-- ==== Sys2Proof/Word.lean ====
section
/-! DEFINITION. The word types of the RCE (spec/00_scope.md R14): bytes, 32-bit command words, 64-bit register words. -/

namespace Sys2Proof

/-- One byte of a message, a block or a digest (R16). -/
abbrev Byte := BitVec 8

/-- A 64-bit word: a control register, a limb, a SHA-512 word (R12 REG_WIDTH, R18). -/
abbrev Word := BitVec 64

/-- A 32-bit command word (R12 CMD_WIDTH, R70). -/
abbrev CmdWord := BitVec 32

end Sys2Proof
end

