-- ==== Sys2Proof/Config.lean ====
section
/-! DEFINITION. What is fixed for one machine: the parameters of spec/00_scope.md R12 and R13, and the free values.
The `opaque` constants have no body: no proof can learn a value of them. -/

namespace Sys2Proof.Config

/-- NREG of R12: the number of big-integer registers. -/
def nreg : Nat := 8

/-- UPDATE_MAX of R12: the most bytes one SHA.UPDATE absorbs. -/
def updateMax : Nat := 8

/-- LIMBS = BIGW/64 of the machine at power-on of the model: R13's default BIGW = 4096. The width itself is
`State.limbs`, so that statements hold for every legal BIGW (log entry 1). -/
def defaultLimbs : Nat := 64

/-- BIGW is a multiple of 64 with 128 <= BIGW <= 32768 (R13), said of BIGW/64. -/
def legalLimbs (limbs : Nat) : Bool := decide (2 ≤ limbs) && decide (limbs ≤ 512)

/-- MAGIC of ID[63:48] (R27); a model of another part takes another value (U27). -/
def idMagic : BitVec 16 := 0x5243

/-- VERSION of ID[47:32] (R27). -/
def idVersion : BitVec 16 := 0x0007

/-- U2: the value the `k`-th draw gives a host read of DOUT or a limb while BUSY = 1 (R55(e)). -/
opaque freeRead : Nat → Word

/-- U3: the value the `k`-th draw leaves in rd of an abandoned command (R216(d)), before it is cut to BIGW bits. -/
opaque freeBig : Nat → Nat

/-- The platform's choice behind ENGINE_BASE (R48, U7): which aligned slot of the host's address space holds the window. -/
opaque windowSlot : Nat

/-- IRQ_LINE of R197 (U8): the line of the platform that IRQ drives. -/
opaque irqLine : Nat

/-- WIN of R46: the size in bytes of the window. -/
def windowBytes (limbs : Nat) : Nat := 0x1000 + nreg * (8 * limbs)

/-- R48: ENGINE_BASE is a multiple of the smallest power of two not less than WIN. -/
def windowAlign (limbs : Nat) : Nat := 2 ^ Nat.clog 2 (windowBytes limbs)

/-- ENGINE_BASE (R13, R48). -/
def engineBase (limbs : Nat) : Nat := windowSlot * windowAlign limbs

/-- The host address of an offset of the window (R46). -/
def hostAddress (limbs off : Nat) : Nat := engineBase limbs + off

/-- The offset a host address reaches in this RCE's window, none for an address outside it (R46). -/
def offsetOf (limbs addr : Nat) : Option Nat :=
  if engineBase limbs ≤ addr ∧ addr < engineBase limbs + windowBytes limbs then some (addr - engineBase limbs) else none

end Sys2Proof.Config
end

