-- ==== Sys2Proof/Machine/Sha512.lean ====
section
/-! DEFINITION. SHA-512 compression as a pure function (spec/40_sha512.md R90, R96 to R103) and the byte orders it uses
(spec/00_scope.md R16). Constants and functions are FIPS 180-4's, as the spec prints them. -/

namespace Sys2Proof.Machine

/-- `BE_n(v)` of R16: the `n` bytes of `v`, most significant first. -/
def beBytes : Nat → Nat → List Byte
  | 0, _ => []
  | n + 1, v => BitVec.ofNat 8 (v / 256 ^ n) :: beBytes n v

/-- `fromBE` of R16: the integer whose big-endian bytes are given. -/
def fromBE (bs : List Byte) : Nat := bs.foldl (fun acc b => acc * 256 + b.toNat) 0

/-- The eight hash words H[0..7] (R31). -/
abbrev HashWords := Vector Word 8

/-- The SHA-512 initial hash value (R90). -/
def iv : HashWords :=
  #v[0x6a09e667f3bcc908, 0xbb67ae8584caa73b, 0x3c6ef372fe94f82b, 0xa54ff53a5f1d36f1,
    0x510e527fade682d1, 0x9b05688c2b3e6c1f, 0x1f83d9abfb41bd6b, 0x5be0cd19137e2179]

/-- Row r of the table of R101: K[4r] to K[4r+3]. -/
def roundConstantRow : Nat → List Word
  | 0 => [0x428a2f98d728ae22, 0x7137449123ef65cd, 0xb5c0fbcfec4d3b2f, 0xe9b5dba58189dbbc]
  | 1 => [0x3956c25bf348b538, 0x59f111f1b605d019, 0x923f82a4af194f9b, 0xab1c5ed5da6d8118]
  | 2 => [0xd807aa98a3030242, 0x12835b0145706fbe, 0x243185be4ee4b28c, 0x550c7dc3d5ffb4e2]
  | 3 => [0x72be5d74f27b896f, 0x80deb1fe3b1696b1, 0x9bdc06a725c71235, 0xc19bf174cf692694]
  | 4 => [0xe49b69c19ef14ad2, 0xefbe4786384f25e3, 0x0fc19dc68b8cd5b5, 0x240ca1cc77ac9c65]
  | 5 => [0x2de92c6f592b0275, 0x4a7484aa6ea6e483, 0x5cb0a9dcbd41fbd4, 0x76f988da831153b5]
  | 6 => [0x983e5152ee66dfab, 0xa831c66d2db43210, 0xb00327c898fb213f, 0xbf597fc7beef0ee4]
  | 7 => [0xc6e00bf33da88fc2, 0xd5a79147930aa725, 0x06ca6351e003826f, 0x142929670a0e6e70]
  | 8 => [0x27b70a8546d22ffc, 0x2e1b21385c26c926, 0x4d2c6dfc5ac42aed, 0x53380d139d95b3df]
  | 9 => [0x650a73548baf63de, 0x766a0abb3c77b2a8, 0x81c2c92e47edaee6, 0x92722c851482353b]
  | 10 => [0xa2bfe8a14cf10364, 0xa81a664bbc423001, 0xc24b8b70d0f89791, 0xc76c51a30654be30]
  | 11 => [0xd192e819d6ef5218, 0xd69906245565a910, 0xf40e35855771202a, 0x106aa07032bbd1b8]
  | 12 => [0x19a4c116b8d2d0c8, 0x1e376c085141ab53, 0x2748774cdf8eeb99, 0x34b0bcb5e19b48a8]
  | 13 => [0x391c0cb3c5c95a63, 0x4ed8aa4ae3418acb, 0x5b9cca4f7763e373, 0x682e6ff3d6b2b8a3]
  | 14 => [0x748f82ee5defb2fc, 0x78a5636f43172f60, 0x84c87814a1f0ab72, 0x8cc702081a6439ec]
  | 15 => [0x90befffa23631e28, 0xa4506cebde82bde9, 0xbef9a3f7b2c67915, 0xc67178f2e372532b]
  | 16 => [0xca273eceea26619c, 0xd186b8c721c0c207, 0xeada7dd6cde0eb1e, 0xf57d4f7fee6ed178]
  | 17 => [0x06f067aa72176fba, 0x0a637dc5a2c898a6, 0x113f9804bef90dae, 0x1b710b35131c471b]
  | 18 => [0x28db77f523047d84, 0x32caab7b40c72493, 0x3c9ebe0a15c9bebc, 0x431d67c49c100d4c]
  | 19 => [0x4cc5d4becb3e42b6, 0x597f299cfc657e2a, 0x5fcb6fab3ad6faec, 0x6c44198c4a475817]
  | _ => []

/-- The 80 round constants K[0..79], row by row (R101). -/
def roundConstants : List Word := (List.range 20).flatMap roundConstantRow

/-- s0 (R98). -/
def sigma0Lower (x : Word) : Word := x.rotateRight 1 ^^^ x.rotateRight 8 ^^^ (x >>> 7)
/-- s1 (R98). -/
def sigma1Lower (x : Word) : Word := x.rotateRight 19 ^^^ x.rotateRight 61 ^^^ (x >>> 6)
/-- S0 (R99). -/
def sigma0Upper (x : Word) : Word := x.rotateRight 28 ^^^ x.rotateRight 34 ^^^ x.rotateRight 39
/-- S1 (R99). -/
def sigma1Upper (x : Word) : Word := x.rotateRight 14 ^^^ x.rotateRight 18 ^^^ x.rotateRight 41
/-- Ch (R100). -/
def choice (x y z : Word) : Word := (x &&& y) ^^^ (~~~x &&& z)
/-- Maj (R100). -/
def majority (x y z : Word) : Word := (x &&& y) ^^^ (x &&& z) ^^^ (y &&& z)

/-- The words M[0..] of a block: each eight bytes, big-endian (R31, R57, R97). -/
def blockWords : List Byte → List Word
  | b0 :: b1 :: b2 :: b3 :: b4 :: b5 :: b6 :: b7 :: rest =>
    BitVec.ofNat 64 (fromBE [b0, b1, b2, b3, b4, b5, b6, b7]) :: blockWords rest
  | _ => []

/-- The next schedule word from the words so far, newest first (R97). -/
def nextScheduleWord (newestFirst : List Word) : Word :=
  sigma1Lower (newestFirst.getD 1 0) + newestFirst.getD 6 0 + sigma0Lower (newestFirst.getD 14 0) + newestFirst.getD 15 0

/-- `n` more schedule words on top of those given, newest first. -/
def extendSchedule : Nat → List Word → List Word
  | 0, ws => ws
  | n + 1, ws => extendSchedule n (nextScheduleWord ws :: ws)

/-- The message schedule W[0..79] (R97). -/
def schedule (blk : List Byte) : List Word := (extendSchedule 64 (blockWords blk).reverse).reverse

/-- The working variables a to h (R102). -/
structure WorkingVars where
  a : Word
  b : Word
  c : Word
  d : Word
  e : Word
  f : Word
  g : Word
  h : Word
deriving DecidableEq, Repr

/-- One round with K[t] and W[t]: every right side uses the values from before the round (R102). -/
def shaRound (v : WorkingVars) (k w : Word) : WorkingVars :=
  let t1 := v.h + sigma1Upper v.e + choice v.e v.f v.g + k + w
  let t2 := sigma0Upper v.a + majority v.a v.b v.c
  ⟨t1 + t2, v.a, v.b, v.c, v.d + t1, v.e, v.f, v.g⟩

/-- The working variables at the start of the rounds (R102). -/
def WorkingVars.ofHash (h : HashWords) : WorkingVars := ⟨h[0], h[1], h[2], h[3], h[4], h[5], h[6], h[7]⟩

/-- The first rounds, one for each pair of a round constant and a schedule word (R102). -/
def shaRounds (v : WorkingVars) (kws : List (Word × Word)) : WorkingVars :=
  kws.foldl (fun v kw => shaRound v kw.1 kw.2) v

/-- The feed-forward addition (R103). -/
def feedForward (h : HashWords) (v : WorkingVars) : HashWords :=
  #v[h[0] + v.a, h[1] + v.b, h[2] + v.c, h[3] + v.d, h[4] + v.e, h[5] + v.f, h[6] + v.g, h[7] + v.h]

/-- compress(blk, H) (R96): a pure function of a 128-byte block and eight words. -/
def compress (blk : List Byte) (h : HashWords) : HashWords :=
  feedForward h (shaRounds (WorkingVars.ofHash h) (roundConstants.zip (schedule blk)))

end Sys2Proof.Machine
end

