-- ==== Sys2Proof/Machine/State.lean ====
section
/-! DEFINITION. The state of the RCE (spec/10_state.md), the reasons a step stops, and the state right after reset. -/

namespace Sys2Proof.Machine

/-- A big-integer register (R21): its value, below 2^BIGW, and for each limb whether anything has written it since
power-on (R23's per-limb definedness). -/
structure BigReg where
  value : Nat
  written : List Bool
deriving DecidableEq, Repr

/-- The SHA context (R31). `blk` is M[0..15] as its 128 bytes; BF is below 128 by its type (R32). -/
structure ShaContext where
  h : HashWords
  blk : Vector Byte 128
  bf : Fin 128
  bc : BitVec 128
deriving DecidableEq, Repr

/-- STATUS.ERR: the codes 0 to 4 of spec/60_exceptions.md R190; codes 5 to 15 are never produced (U13). -/
inductive ErrCode where
  | ok
  | illegal
  | arg
  | logic
  | range
deriving DecidableEq, Repr

/-- One recorded step (u, v, q) of the forward pass (spec/43_gcd.md R154, R155). -/
structure EuclidStep where
  u : Nat
  v : Nat
  q : Nat
deriving DecidableEq, Repr

/-- One host access at an offset of the window (R15's MemRead and MemWrite; spec/20_memory.md R49 to R51). -/
inductive Access where
  | read (off width : Nat)
  | write (off width : Nat) (v : Word)
deriving DecidableEq, Repr

/-- One turn of one agent (spec/10_state.md R20). -/
inductive Turn where
  /-- the host accesses the window -/
  | host (a : Access)
  /-- the engine completes the command in flight, if there is one (spec/60_exceptions.md R193) -/
  | engine
  /-- power-on reset (spec/70_reset_and_hazards.md R215) -/
  | powerOn
deriving DecidableEq, Repr

/-- The state of the machine. The fields up to `work` are the spec's (R21 to R36); the last three are the model's own:
the turns still to come, the value of the latest host read, and the counter of free values drawn. -/
structure State where
  /-- LIMBS = BIGW/64 of ID (R27), the width of every big-integer register (R13) -/
  limbs : Nat
  /-- B0 to B7 (R21) -/
  regs : Vector BigReg 8
  /-- CTRL.IE (R28) -/
  ie : Bool
  /-- STATUS.BUSY (R29), a command is in flight (R36(b)) -/
  busy : Bool
  /-- STATUS.DONE (R29) -/
  doneFlag : Bool
  /-- STATUS.OVR (R29) -/
  ovr : Bool
  /-- STATUS.ERR (R29) -/
  err : ErrCode
  /-- STATUS.EQ (R25) -/
  eqFlag : Bool
  /-- STATUS.LT (R25) -/
  ltFlag : Bool
  /-- STATUS.GT (R25) -/
  gtFlag : Bool
  /-- CMD, the last accepted command word (R30) -/
  cmd : CmdWord
  /-- DIN (R34) -/
  din : Word
  /-- DOUT[0..7] (R35) -/
  dout : Vector Word 8
  /-- the SHA context (R31) -/
  sha : ShaContext
  /-- the work storage of the command in flight: the extended Euclidean step list (R36(c)) -/
  work : List EuclidStep
  /-- model: the turns still to come, in order -/
  agenda : List Turn
  /-- model: the value the latest host read returned -/
  readData : Option Word
  /-- model: how many free values have been drawn -/
  draws : Nat
deriving DecidableEq, Repr

/-- Why the machine stops. Both are the fault of a host access, which changes no state of the RCE (R52). -/
inductive Fault where
  /-- Raised by a host access whose offset is not a multiple of 8, whose width is not 8 bytes, or whose offset is reserved
  (spec/20_memory.md R52, R53). Safe: the spec calls it a fault of the access (U10). -/
  | busError
  /-- Raised by a host access at an offset past the end of the window, which the spec gives no meaning (R46). Safe: the
  model goes no further. -/
  | outsideWindow
deriving DecidableEq, Repr

/-- Why the machine gives an instruction no meaning. -/
inductive Refusal where
  /-- Raised by an arm of `exec` whose instruction has no meaning yet: none is left. Safe. -/
  | notModelled (mnemonic : String)
deriving DecidableEq, Repr

/-- A register at power-on: no limb written (R23). The value 0 is the MODEL's (DESIGN CHOICE, unsafe: log entry 2). -/
def BigReg.powerOn (limbs : Nat) : BigReg := ⟨0, List.replicate limbs false⟩

/-- The SHA context at construction (R38, spec/40_sha512.md R90). -/
def ShaContext.initial : ShaContext := ⟨iv, Vector.replicate 128 0, 0, 0⟩

/-- The reset values of spec/10_state.md R38 for a machine of the given width. -/
def State.resetOf (limbs : Nat) : State where
  limbs := limbs
  regs := Vector.replicate 8 (BigReg.powerOn limbs)
  ie := false
  busy := false
  doneFlag := false
  ovr := false
  err := .ok
  eqFlag := false
  ltFlag := false
  gtFlag := false
  cmd := 0
  din := 0
  dout := Vector.replicate 8 0
  sha := ShaContext.initial
  work := []
  agenda := []
  readData := none
  draws := 0

/-- The machine right after power-on reset, at the default width (R13, R215). -/
def State.reset : State := State.resetOf Config.defaultLimbs

end Sys2Proof.Machine
end

