-- ==== Sys2Proof/Machine/Flags.lean ====
section
/-! DEFINITION. The comparison flags EQ, LT and GT of STATUS (spec/10_state.md R25) and their one computation
(spec/41_bigint_alu.md R134). -/

namespace Sys2Proof.Machine

/-- EQ, LT, GT of an unsigned comparison: exactly one is set (R134). -/
def State.writeCompareFlags (s : State) (a b : Nat) : State :=
  { s with eqFlag := decide (a = b), ltFlag := decide (a < b), gtFlag := decide (b < a) }

/-- How many of the three flags are set: 1 after a BIG.CMP, 0 after a reset (R25). -/
def State.flagCount (s : State) : Nat := s.eqFlag.toNat + s.ltFlag.toNat + s.gtFlag.toNat

end Sys2Proof.Machine
end

