-- ==== Sys2Proof/Syntax.lean ====
section
/-! DEFINITION. The commands of the RCE, one constructor per row of the opcode map (spec/30_encoding.md R77), in its order. -/

namespace Sys2Proof

/-- A big-integer register B0 to B7 (spec/10_state.md R21): three bits of a register field (R72). -/
abbrev Reg := Fin 8

/-- A command (R77). Immediates are the numbers an assembler takes (R73 to R75, R84); `Instr.wf` bounds them. -/
inductive Instr where
  /-- 0x10, format N (R91) -/
  | shaInit
  /-- 0x11, format U: absorb the top `n` bytes of DIN (R93) -/
  | shaUpdate (n : Nat)
  /-- 0x12, format N (R94) -/
  | shaDigest
  /-- 0x20, format R (R120) -/
  | bigMov (rd rs1 : Reg)
  /-- 0x21, format I (R122) -/
  | bigLdi (rd : Reg) (imm20 : Nat)
  /-- 0x22, format R (R124) -/
  | bigAdd (rd rs1 rs2 : Reg)
  /-- 0x23, format R (R126) -/
  | bigSub (rd rs1 rs2 : Reg)
  /-- 0x24, format R (R128) -/
  | bigMul (rd rs1 rs2 : Reg)
  /-- 0x25, format R (R130) -/
  | bigMod (rd rs1 rs2 : Reg)
  /-- 0x26, format S (R132) -/
  | bigShr (rd rs1 : Reg) (imm16 : Nat)
  /-- 0x27, format R (R134) -/
  | bigCmp (rs1 rs2 : Reg)
  /-- 0x30, format R: multiplicands rs1, rs2, modulus rs3 (R140) -/
  | bigModmul (rd rs1 rs2 rs3 : Reg)
  /-- 0x31, format R: base rs1, exponent rs2, modulus rs3 (R144) -/
  | bigModexp (rd rs1 rs2 rs3 : Reg)
  /-- 0x40, format R (R150) -/
  | bigGcd (rd rs1 rs2 : Reg)
  /-- 0x41, format R: a in rs1, m in rs2 (R154) -/
  | bigModinv (rd rs1 rs2 : Reg)
deriving DecidableEq, Repr

/-- The pseudo-instruction `big.clr rd` (R85). -/
def Instr.bigClr (rd : Reg) : Instr := .bigLdi rd 0

/-- The pseudo-instruction `big.li1 rd` (R85). -/
def Instr.bigLi1 (rd : Reg) : Instr := .bigLdi rd 1

end Sys2Proof
end

