-- ==== Sys2Proof/WellFormed.lean ====
section
/-! DEFINITION. Which commands an assembler accepts (spec/30_encoding.md R84). Register names are bounded by their type. -/

namespace Sys2Proof

/-- R84: n is at most 255, imm20 at most 1048575, imm16 at most 65535. `sha.update 0` and `sha.update 9` to `255` are
well formed: they encode, and raise E_ARG when run (R75). -/
def Instr.wf : Instr → Bool
  | .shaUpdate n => decide (n ≤ 255)
  | .bigLdi _ imm20 => decide (imm20 ≤ 1048575)
  | .bigShr _ _ imm16 => decide (imm16 ≤ 65535)
  | .shaInit => true
  | .shaDigest => true
  | .bigMov _ _ => true
  | .bigAdd _ _ _ => true
  | .bigSub _ _ _ => true
  | .bigMul _ _ _ => true
  | .bigMod _ _ _ => true
  | .bigCmp _ _ => true
  | .bigModmul _ _ _ _ => true
  | .bigModexp _ _ _ _ => true
  | .bigGcd _ _ _ => true
  | .bigModinv _ _ _ => true

end Sys2Proof
end

