-- ==== Sys2Proof/Decode.lean ====
section
/-! DEFINITION. The decoder of command words (spec/30_encoding.md R70 to R82), total, rejecting by name, and the encoder
(R83). -/

namespace Sys2Proof

/-- The 15 mnemonics of the opcode map (R77). -/
inductive Mnemonic where
  | shaInit | shaUpdate | shaDigest
  | bigMov | bigLdi | bigAdd | bigSub | bigMul | bigMod | bigShr | bigCmp
  | bigModmul | bigModexp | bigGcd | bigModinv
deriving DecidableEq, Repr

/-- One row of the opcode map (R77). -/
structure OpcodeRow where
  mnemonic : Mnemonic
  opcode : BitVec 8
  pattern : CmdWord
  mask : CmdWord
deriving DecidableEq, Repr

/-- The opcode map of R77, row by row. -/
def opcodeMap : List OpcodeRow :=
  [⟨.shaInit, 0x10, 0x10000000, 0xFFFFFFFF⟩,
   ⟨.shaUpdate, 0x11, 0x11000000, 0xFFFFFF00⟩,
   ⟨.shaDigest, 0x12, 0x12000000, 0xFFFFFFFF⟩,
   ⟨.bigMov, 0x20, 0x20000000, 0xFF88FFFF⟩,
   ⟨.bigLdi, 0x21, 0x21000000, 0xFF800000⟩,
   ⟨.bigAdd, 0x22, 0x22000000, 0xFF888FFF⟩,
   ⟨.bigSub, 0x23, 0x23000000, 0xFF888FFF⟩,
   ⟨.bigMul, 0x24, 0x24000000, 0xFF888FFF⟩,
   ⟨.bigMod, 0x25, 0x25000000, 0xFF888FFF⟩,
   ⟨.bigShr, 0x26, 0x26000000, 0xFF880000⟩,
   ⟨.bigCmp, 0x27, 0x27000000, 0xFFF88FFF⟩,
   ⟨.bigModmul, 0x30, 0x30000000, 0xFF8888FF⟩,
   ⟨.bigModexp, 0x31, 0x31000000, 0xFF8888FF⟩,
   ⟨.bigGcd, 0x40, 0x40000000, 0xFF888FFF⟩,
   ⟨.bigModinv, 0x41, 0x41000000, 0xFF888FFF⟩]

/-- A word selects a row when (w & mask) = match (R77). -/
def OpcodeRow.selects (row : OpcodeRow) (w : CmdWord) : Bool := w &&& row.mask == row.pattern

/-- Why a word is illegal (R80). -/
inductive DecodeError where
  /-- bits 31:24 are no opcode of R77 -/
  | unassignedOpcode
  /-- a listed opcode with bit 3 of a register field, or a bit of an unused field, set (R72) -/
  | reservedBitSet
deriving DecidableEq, Repr

/-- A register field whose low bit is bit `lo` of the word: its bits 2:0 (R72). -/
def regField (w : CmdWord) (lo : Nat) : Reg := (w.extractLsb' lo 3).toFin

/-- rd, bits 23:20 (R71). -/
def fieldRd (w : CmdWord) : Reg := regField w 20
/-- rs1, bits 19:16 (R71). -/
def fieldRs1 (w : CmdWord) : Reg := regField w 16
/-- rs2, bits 15:12 (R71). -/
def fieldRs2 (w : CmdWord) : Reg := regField w 12
/-- rs3, bits 11:8 (R71). -/
def fieldRs3 (w : CmdWord) : Reg := regField w 8
/-- imm20, bits 19:0, unsigned (R73). -/
def fieldImm20 (w : CmdWord) : Nat := (w.extractLsb' 0 20).toNat
/-- imm16, bits 15:0, unsigned (R74). -/
def fieldImm16 (w : CmdWord) : Nat := (w.extractLsb' 0 16).toNat
/-- n, bits 7:0, unsigned (R75). -/
def fieldN (w : CmdWord) : Nat := (w.extractLsb' 0 8).toNat

/-- The command of a row with the operands the word holds (R71, R77). -/
def Mnemonic.operands (m : Mnemonic) (w : CmdWord) : Instr :=
  match m with
  | .shaInit => .shaInit
  | .shaUpdate => .shaUpdate (fieldN w)
  | .shaDigest => .shaDigest
  | .bigMov => .bigMov (fieldRd w) (fieldRs1 w)
  | .bigLdi => .bigLdi (fieldRd w) (fieldImm20 w)
  | .bigAdd => .bigAdd (fieldRd w) (fieldRs1 w) (fieldRs2 w)
  | .bigSub => .bigSub (fieldRd w) (fieldRs1 w) (fieldRs2 w)
  | .bigMul => .bigMul (fieldRd w) (fieldRs1 w) (fieldRs2 w)
  | .bigMod => .bigMod (fieldRd w) (fieldRs1 w) (fieldRs2 w)
  | .bigShr => .bigShr (fieldRd w) (fieldRs1 w) (fieldImm16 w)
  | .bigCmp => .bigCmp (fieldRs1 w) (fieldRs2 w)
  | .bigModmul => .bigModmul (fieldRd w) (fieldRs1 w) (fieldRs2 w) (fieldRs3 w)
  | .bigModexp => .bigModexp (fieldRd w) (fieldRs1 w) (fieldRs2 w) (fieldRs3 w)
  | .bigGcd => .bigGcd (fieldRd w) (fieldRs1 w) (fieldRs2 w)
  | .bigModinv => .bigModinv (fieldRd w) (fieldRs1 w) (fieldRs2 w)

/-- The row a word selects: at most one does (R77). -/
def findRow (w : CmdWord) : Option OpcodeRow := opcodeMap.find? (fun row => row.selects w)

/-- The decoder: total on every word, an illegal word rejected by name (R77, R80). -/
def decode (w : CmdWord) : Except DecodeError Instr :=
  match findRow w with
  | some row => .ok (row.mnemonic.operands w)
  | none =>
    if opcodeMap.any (fun row => row.opcode == w.extractLsb' 24 8) then .error .reservedBitSet
    else .error .unassignedOpcode

/-- A register in its field (R72, R83): `r << lo`. -/
def regBits (r : Reg) (lo : Nat) : CmdWord := BitVec.ofNat 32 r.val <<< lo

/-- The assembler's word of a command: the table of R83. -/
def encode : Instr → CmdWord
  | .shaInit => 0x10000000
  | .shaUpdate n => 0x11000000 ||| BitVec.ofNat 32 n
  | .shaDigest => 0x12000000
  | .bigMov rd rs1 => 0x20000000 ||| regBits rd 20 ||| regBits rs1 16
  | .bigLdi rd imm20 => 0x21000000 ||| regBits rd 20 ||| BitVec.ofNat 32 imm20
  | .bigAdd rd rs1 rs2 => 0x22000000 ||| regBits rd 20 ||| regBits rs1 16 ||| regBits rs2 12
  | .bigSub rd rs1 rs2 => 0x23000000 ||| regBits rd 20 ||| regBits rs1 16 ||| regBits rs2 12
  | .bigMul rd rs1 rs2 => 0x24000000 ||| regBits rd 20 ||| regBits rs1 16 ||| regBits rs2 12
  | .bigMod rd rs1 rs2 => 0x25000000 ||| regBits rd 20 ||| regBits rs1 16 ||| regBits rs2 12
  | .bigShr rd rs1 imm16 => 0x26000000 ||| regBits rd 20 ||| regBits rs1 16 ||| BitVec.ofNat 32 imm16
  | .bigCmp rs1 rs2 => 0x27000000 ||| regBits rs1 16 ||| regBits rs2 12
  | .bigModmul rd rs1 rs2 rs3 => 0x30000000 ||| regBits rd 20 ||| regBits rs1 16 ||| regBits rs2 12 ||| regBits rs3 8
  | .bigModexp rd rs1 rs2 rs3 => 0x31000000 ||| regBits rd 20 ||| regBits rs1 16 ||| regBits rs2 12 ||| regBits rs3 8
  | .bigGcd rd rs1 rs2 => 0x40000000 ||| regBits rd 20 ||| regBits rs1 16 ||| regBits rs2 12
  | .bigModinv rd rs1 rs2 => 0x41000000 ||| regBits rd 20 ||| regBits rs1 16 ||| regBits rs2 12

/-- The word of an opcode-table row whose low `nbits` bits are `w` and whose other bits are 0. -/
def tableWord (nbits w : Nat) : CmdWord := BitVec.ofNat 32 (w % 2 ^ nbits)

/-- What the decoder reads from a word given as a number of `nbits` bits; none where it refuses. -/
def decodeTableWord (nbits w : Nat) : Option Instr :=
  match decode (tableWord nbits w) with
  | .ok i => some i
  | .error _ => none

end Sys2Proof
end

