-- ==== Sys2Proof/Machine/Operands.lean ====
section
/-! DEFINITION. Every operand form of a command (spec/30_encoding.md R73 to R76): big-integer registers, immediates, the byte
group of DIN; and which registers a command reads and writes. -/

namespace Sys2Proof.Machine

/-- BIGW of the machine (R13). -/
def State.bigw (s : State) : Nat := 64 * s.limbs

/-- The register Bi (R21). -/
def State.reg (s : State) (r : Reg) : BigReg := s.regs[r]

/-- x[i] of R15: register Bi as an unsigned integer. -/
def State.big (s : State) (r : Reg) : Nat := (s.reg r).value

/-- Limb `j` of an integer: bits [64j+63 : 64j], limb 0 least significant (R22). -/
def limbOf (value j : Nat) : Word := BitVec.ofNat 64 (value / 2 ^ (64 * j))

/-- An integer with bits [64j+63 : 64j] replaced and the other limbs unchanged (R51). -/
def setLimb (value j : Nat) (v : Word) : Nat :=
  value % 2 ^ (64 * j) + v.toNat * 2 ^ (64 * j) + value / 2 ^ (64 * (j + 1)) * 2 ^ (64 * (j + 1))

/-- R23: a register is defined only when all its limbs have been written since power-on. -/
def BigReg.allWritten (b : BigReg) : Bool := b.written.all id

/-- imm20 zero-extended to BIGW bits (R73): the number itself. -/
def zextImm20 (imm20 : Nat) : Nat := imm20

/-- The byte group of SHA.UPDATE n: g[k] = DIN[63-8k : 56-8k], top byte first (R57, R92). -/
def dinBytes (din : Word) (n : Nat) : List Byte := (List.range n).map (fun k => din.extractLsb' (56 - 8 * k) 8)

/-- The rd register of a command that writes one: every BIG.* command but BIG.CMP (R22, R216). -/
def writesReg : Instr → Option Reg
  | .shaInit => none
  | .shaUpdate _ => none
  | .shaDigest => none
  | .bigMov rd _ => some rd
  | .bigLdi rd _ => some rd
  | .bigAdd rd _ _ => some rd
  | .bigSub rd _ _ => some rd
  | .bigMul rd _ _ => some rd
  | .bigMod rd _ _ => some rd
  | .bigShr rd _ _ => some rd
  | .bigCmp _ _ => none
  | .bigModmul rd _ _ _ => some rd
  | .bigModexp rd _ _ _ => some rd
  | .bigGcd rd _ _ => some rd
  | .bigModinv rd _ _ => some rd

/-- The registers a command reads through rs1, rs2 and rs3 (R22, R76). -/
def operandRegs : Instr → List Reg
  | .shaInit => []
  | .shaUpdate _ => []
  | .shaDigest => []
  | .bigMov _ rs1 => [rs1]
  | .bigLdi _ _ => []
  | .bigAdd _ rs1 rs2 => [rs1, rs2]
  | .bigSub _ rs1 rs2 => [rs1, rs2]
  | .bigMul _ rs1 rs2 => [rs1, rs2]
  | .bigMod _ rs1 rs2 => [rs1, rs2]
  | .bigShr _ rs1 _ => [rs1]
  | .bigCmp rs1 rs2 => [rs1, rs2]
  | .bigModmul _ rs1 rs2 rs3 => [rs1, rs2, rs3]
  | .bigModexp _ rs1 rs2 rs3 => [rs1, rs2, rs3]
  | .bigGcd _ rs1 rs2 => [rs1, rs2]
  | .bigModinv _ rs1 rs2 => [rs1, rs2]

end Sys2Proof.Machine
end

