-- ==== Sys2Proof/Machine/Ops.lean ====
section
/-! DEFINITION. The shared operations: ending a command with a code (what the RCE has in place of taking an exception),
writing a register, the register window as the host sees it, and the two resets. -/

namespace Sys2Proof.Machine

/-! ### Completion (spec/60_exceptions.md R190 to R193) -/

/-- The number of an error code in STATUS[11:8] (R190). -/
def ErrCode.code : ErrCode → Nat
  | .ok => 0
  | .illegal => 1
  | .arg => 2
  | .logic => 3
  | .range => 4

/-- The completion of a command with a code: BUSY <- 0, DONE <- 1, ERR <- the code, and the work storage is discarded
(R191, R193, R36(c)). -/
def State.finish (s : State) (e : ErrCode) : State := { s with busy := false, doneFlag := true, err := e, work := [] }

/-- `complete()` of R15. -/
def complete (s : State) : Host.Outcome State Fault Refusal := .next (s.finish .ok)

/-- `raise E` of R15: the command ends with E's code and writes nothing else. There is no trap, vector or saved state, and
so no return (R191, R201, R202). -/
def raiseErr (e : ErrCode) (s : State) : Host.Outcome State Fault Refusal := .next (s.finish e)

/-- The completion of a word that no row of the opcode map selects (R80, R193). -/
def completeIllegal (s : State) : Host.Outcome State Fault Refusal := raiseErr .illegal s

/-! ### Registers -/

/-- `x[i] <- v` of R15: the one write of a whole register, which defines all its limbs (R23). -/
def State.writeBig (s : State) (r : Reg) (v : Nat) : State :=
  { s with regs := s.regs.set r ⟨v, List.replicate s.limbs true⟩ }

/-- The host's write of limb `j` of Bi (R51), which defines that limb (R23). -/
def State.writeLimb (s : State) (r : Reg) (j : Nat) (v : Word) : State :=
  { s with regs := s.regs.set r ⟨setLimb (s.big r) j v, (s.reg r).written.set j true⟩ }

/-- The work storage of a MODINV command takes the step list of its forward pass (R155). -/
def State.recordWork (s : State) (steps : List EuclidStep) : State := { s with work := steps }

/-! ### The register window (spec/20_memory.md R47) -/

/-- What a mapped offset of the window reaches (R47). -/
inductive Target where
  | id
  | ctrl
  | status
  | cmd
  | din
  | dout (i : Fin 8)
  | limb (r : Reg) (j : Nat)
deriving DecidableEq, Repr

/-- The offset of DOUT[i] (R47). -/
def doutOffset (i : Fin 8) : Nat := 0x040 + 8 * i.val

/-- The offset of limb `j` of Bi (R22, R47). -/
def limbOffset (limbs : Nat) (r : Reg) (j : Nat) : Nat := 0x1000 + r.val * (8 * limbs) + 8 * j

/-- The address map of R47 for an offset that is a multiple of 8; none where nothing is mapped. -/
def target (limbs off : Nat) : Option Target :=
  if off = 0x000 then some .id
  else if off = 0x008 then some .ctrl
  else if off = 0x010 then some .status
  else if off = 0x018 then some .cmd
  else if off = 0x020 then some .din
  else if 0x040 ≤ off ∧ off < 0x080 then some (.dout (Fin.ofNat 8 ((off - 0x040) / 8)))
  else if 0x1000 ≤ off ∧ off < Config.windowBytes limbs then
    some (.limb (Fin.ofNat 8 ((off - 0x1000) / (8 * limbs))) ((off - 0x1000) % (8 * limbs) / 8))
  else none

/-- The access rules: 8 bytes, a multiple of 8, a mapped offset (R49, R52, R53); past the window nothing is the RCE's. -/
def checkAccess (limbs off width : Nat) : Except Fault Target :=
  if width ≠ 8 ∨ off % 8 ≠ 0 then .error .busError
  else match target limbs off with
    | some t => .ok t
    | none => if off < 0x1000 then .error .busError else .error .outsideWindow

/-- The ID register (R27). -/
def State.idWord (s : State) : Word := Config.idMagic ++ Config.idVersion ++ BitVec.ofNat 16 s.limbs ++ BitVec.ofNat 16 Config.nreg

/-- CTRL as the host reads it: IE in bit 0, SRST and the reserved bits 0 (R28). -/
def State.ctrlWord (s : State) : Word := BitVec.ofNat 64 s.ie.toNat

/-- STATUS as the host reads it, reserved bits 0 (R29). -/
def State.statusWord (s : State) : Word :=
  BitVec.ofNat 64 (s.busy.toNat + 2 * s.doneFlag.toNat + 4 * s.ovr.toNat + 2 ^ 8 * s.err.code
    + 2 ^ 16 * s.eqFlag.toNat + 2 ^ 17 * s.ltFlag.toNat + 2 ^ 18 * s.gtFlag.toNat)

/-- IRQ = CTRL.IE & STATUS.DONE, a level (R197). -/
def State.irq (s : State) : Bool := s.ie && s.doneFlag

/-- The platform's interrupt line that the block asserts, if it asserts one (R197, IRQ_LINE). -/
def State.assertedLine (s : State) : Option Nat := if s.irq then some Config.irqLine else none

/-- The value of a register or limb of the window as it stands (R50). -/
def State.valueAt (s : State) : Target → Word
  | .id => s.idWord
  | .ctrl => s.ctrlWord
  | .status => s.statusWord
  | .cmd => s.cmd.setWidth 64
  | .din => s.din
  | .dout i => s.dout[i]
  | .limb r j => limbOf (s.big r) j

/-- The targets whose read while BUSY = 1 is unspecified: DOUT and limbs (R55(e)). -/
def Target.readGuarded : Target → Bool
  | .id => false
  | .ctrl => false
  | .status => false
  | .cmd => false
  | .din => false
  | .dout _ => true
  | .limb _ _ => true

/-- The targets whose write while BUSY = 1 is discarded and sets OVR: CMD, DIN and limbs (R55(a)). -/
def Target.writeGuarded : Target → Bool
  | .id => false
  | .ctrl => false
  | .status => false
  | .cmd => true
  | .din => true
  | .dout _ => false
  | .limb _ _ => true

/-- `MemRead` at a mapped offset (R50), under R55(d) and (e) while BUSY = 1: an unspecified value is a free draw (U2). -/
def hostRead (t : Target) (s : State) : State :=
  if s.busy && t.readGuarded then { s with readData := some (Config.freeRead s.draws), draws := s.draws + 1 }
  else { s with readData := some (s.valueAt t) }

/-- The accept of a command word: BUSY <- 1, DONE <- 0, ERR <- 0 (R30, R192). -/
def State.accept (s : State) (w : CmdWord) : State :=
  { s with cmd := w, busy := true, doneFlag := false, err := .ok }

/-- The rd register a soft reset leaves unspecified: that of the command in flight, if it writes one (R216(d)). -/
def State.abandonedReg (s : State) : Option Reg :=
  if s.busy then
    match decode s.cmd with
    | .ok i => writesReg i
    | .error _ => none
  else none

/-- R216(d), U3: one BIGW-bit draw into rd of an abandoned command; the register then counts as written. -/
def State.drawAbandoned (s : State) : State :=
  match s.abandonedReg with
  | some rd => { s.writeBig rd (Config.freeBig s.draws % 2 ^ s.bigw) with draws := s.draws + 1 }
  | none => s

/-- Soft reset (R216): the command in flight is abandoned, everything but the big-integer registers takes its reset value. -/
def State.softReset (s : State) : State :=
  { s.drawAbandoned with
    ie := false, busy := false, doneFlag := false, ovr := false, err := .ok
    eqFlag := false, ltFlag := false, gtFlag := false
    cmd := 0, din := 0, dout := Vector.replicate 8 0, sha := ShaContext.initial, work := [] }

/-- Power-on reset (R215): every piece of state at the value of R38, the register width kept. -/
def State.powerOnReset (s : State) : State :=
  { State.resetOf s.limbs with agenda := s.agenda, draws := s.draws }

/-- A write of CTRL: IE <- v[0], then a soft reset if v[1] = 1 (R51, R28). -/
def State.writeCtrl (s : State) (v : Word) : State :=
  if v.getLsbD 1 then { s with ie := v.getLsbD 0 }.softReset else { s with ie := v.getLsbD 0 }

/-- A write of STATUS: v[1] clears DONE, v[2] clears OVR (R29, R51). -/
def State.writeStatus (s : State) (v : Word) : State :=
  { s with doneFlag := s.doneFlag && !v.getLsbD 1, ovr := s.ovr && !v.getLsbD 2 }

/-- `MemWrite` at a mapped offset (R51), under R55(a) to (c) while BUSY = 1. -/
def hostWrite (t : Target) (v : Word) (s : State) : State :=
  if s.busy && t.writeGuarded then { s with ovr := true }
  else match t with
    | .id => s
    | .ctrl => s.writeCtrl v
    | .status => s.writeStatus v
    | .cmd => s.accept (v.setWidth 32)
    | .din => { s with din := v }
    | .dout _ => s
    | .limb r j => s.writeLimb r j v

/-- One host access (R50 to R53): a bus error is the fault of the access. -/
def hostTurn (a : Access) (s : State) : Host.Outcome State Fault Refusal :=
  match a with
  | .read off width =>
    match checkAccess s.limbs off width with
    | .ok t => .next (hostRead t s)
    | .error f => .fault f
  | .write off width v =>
    match checkAccess s.limbs off width with
    | .ok t => .next (hostWrite t v s)
    | .error f => .fault f

end Sys2Proof.Machine
end

