-- ==== Sys2Proof/Machine/BigAlu.lean ====
section
/-! DEFINITION. The big-integer register and ALU commands (spec/41_bigint_alu.md R120 to R139). Every operand is read
before rd is written (R136); arithmetic is exact on unsigned integers (R139). -/

namespace Sys2Proof.Machine

/-- BIG.MOV (R120). -/
def execBigMov (rd rs1 : Reg) (s : State) : Host.Outcome State Fault Refusal :=
  complete (s.writeBig rd (s.big rs1))

/-- BIG.LDI (R122). -/
def execBigLdi (rd : Reg) (imm20 : Nat) (s : State) : Host.Outcome State Fault Refusal :=
  complete (s.writeBig rd (zextImm20 imm20))

/-- BIG.ADD (R124): E_RANGE when the sum does not fit. -/
def execBigAdd (rd rs1 rs2 : Reg) (s : State) : Host.Outcome State Fault Refusal :=
  let sum := s.big rs1 + s.big rs2
  if sum ≥ 2 ^ s.bigw then raiseErr .range s else complete (s.writeBig rd sum)

/-- BIG.SUB (R126): E_RANGE when the difference would be negative. -/
def execBigSub (rd rs1 rs2 : Reg) (s : State) : Host.Outcome State Fault Refusal :=
  if s.big rs1 < s.big rs2 then raiseErr .range s else complete (s.writeBig rd (s.big rs1 - s.big rs2))

/-- BIG.MUL (R128): E_RANGE when the product does not fit. -/
def execBigMul (rd rs1 rs2 : Reg) (s : State) : Host.Outcome State Fault Refusal :=
  let product := s.big rs1 * s.big rs2
  if product ≥ 2 ^ s.bigw then raiseErr .range s else complete (s.writeBig rd product)

/-- BIG.MOD (R130): E_ARG on a zero divisor. -/
def execBigMod (rd rs1 rs2 : Reg) (s : State) : Host.Outcome State Fault Refusal :=
  if s.big rs2 = 0 then raiseErr .arg s else complete (s.writeBig rd (s.big rs1 % s.big rs2))

/-- BIG.SHR (R132): an amount at or above BIGW gives 0. -/
def execBigShr (rd rs1 : Reg) (imm16 : Nat) (s : State) : Host.Outcome State Fault Refusal :=
  if imm16 ≥ s.bigw then complete (s.writeBig rd 0) else complete (s.writeBig rd (s.big rs1 / 2 ^ imm16))

/-- BIG.CMP (R134): writes the three flags and no register. -/
def execBigCmp (rs1 rs2 : Reg) (s : State) : Host.Outcome State Fault Refusal :=
  complete (s.writeCompareFlags (s.big rs1) (s.big rs2))

end Sys2Proof.Machine
end

