-- ==== Sys2Proof/Machine/GcdUnit.lean ====
section
/-! DEFINITION. The GCD unit (spec/43_gcd.md R150 to R164): Euclid's loop, and the two-pass iterative extended Euclidean
algorithm. Fuel bounds each loop; it never runs out, since the second number falls at every turn. -/

namespace Sys2Proof.Machine

/-- The loop of R150: while v != 0, (u, v) <- (v, u mod v). -/
def gcdLoop : Nat → Nat → Nat → Nat
  | 0, u, _ => u
  | fuel + 1, u, v => if v = 0 then u else gcdLoop fuel v (u % v)

/-- BIG.GCD's result (R150). -/
def bigGcd (a b : Nat) : Nat := gcdLoop (b + 1) a b

/-- The forward pass of R154 from (u, v): the recorded steps in order and the last divisor g. The step whose remainder is
0 is not recorded (R155). -/
def forwardPass : Nat → Nat → Nat → List EuclidStep × Nat
  | 0, _, v => ([], v)
  | fuel + 1, u, v =>
    if u % v = 0 then ([], v)
    else
      let rest := forwardPass fuel v (u % v)
      (⟨u, v, u / v⟩ :: rest.1, rest.2)

/-- One step of the backward pass: (cu, cv) <- (cv, cu - q * cv) (R154). -/
def backwardStep (c : Int × Int) (step : EuclidStep) : Int × Int := (c.2, c.1 - step.q * c.2)

/-- The backward pass over the recorded steps, last first (R154, R159): it starts from (1, -q of the last
entry). With no step recorded it is not run (R156). -/
def backwardPass (steps : List EuclidStep) : Int × Int :=
  match steps.reverse with
  | [] => (0, 1)
  | last :: earlier => earlier.foldl backwardStep (1, -(last.q : Int))

/-- d of R154 and R160: cv modulo m, in [0, m). -/
def inverseCandidate (m : Nat) (steps : List EuclidStep) : Nat := ((backwardPass steps).2 % (m : Int)).toNat

/-- The part of BIG.MODINV after the forward pass, over the step list in the work storage (R156, R157, R160). -/
def finishModinv (rd : Reg) (m g : Nat) (s : State) : Host.Outcome State Fault Refusal :=
  if s.work = [] then raiseErr .logic s
  else if g ≠ 1 then raiseErr .logic s
  else if inverseCandidate m s.work = 0 then raiseErr .logic s
  else complete (s.writeBig rd (inverseCandidate m s.work))

/-- BIG.GCD (R150, R151): no operand value is an error. -/
def execBigGcd (rd rs1 rs2 : Reg) (s : State) : Host.Outcome State Fault Refusal :=
  complete (s.writeBig rd (bigGcd (s.big rs1) (s.big rs2)))

/-- BIG.MODINV (R154): a in rs1, m in rs2. -/
def execBigModinv (rd rs1 rs2 : Reg) (s : State) : Host.Outcome State Fault Refusal :=
  let a := s.big rs1
  let m := s.big rs2
  if a = 0 ∨ m = 0 ∨ a ≥ m then raiseErr .arg s
  else
    let pass := forwardPass a m a
    finishModinv rd m pass.2 (s.recordWork pass.1)

end Sys2Proof.Machine
end

