-- ==== Sys2Proof/Machine/ModUnit.lean ====
section
/-! DEFINITION. The modular multiplier (spec/42_modmul.md R140 to R149). Results are exact residues for every operand and every
modulus >= 1 (R141, R142). -/

namespace Sys2Proof.Machine

/-- One step of binary exponentiation (R147): square, then multiply by the base if the exponent's bit is set. -/
def modPowStep (b n : Nat) (bit : Bool) (r : Nat) : Nat :=
  if bit then r * r % n * (b % n) % n else r * r % n

/-- The binary exponentiation of R147 over the low `bits` bits of the exponent, most significant bit first. -/
def modPowBits (b n k : Nat) : Nat → Nat
  | 0 => 1 % n
  | bits + 1 => modPowStep b n (decide (k % 2 = 1)) (modPowBits b n (k / 2) bits)

/-- (b ^ k) mod n of R144, by the reference computation of R147. -/
def modPow (b k n : Nat) : Nat := modPowBits b n k (Nat.log2 k + 1)

/-- BIG.MODMUL (R140): E_ARG when the modulus is 0. -/
def execBigModmul (rd rs1 rs2 rs3 : Reg) (s : State) : Host.Outcome State Fault Refusal :=
  if s.big rs3 = 0 then raiseErr .arg s
  else complete (s.writeBig rd (s.big rs1 * s.big rs2 % s.big rs3))

/-- BIG.MODEXP (R144, R145): E_ARG when the modulus is 0. It is the power of the RSA operations below (R146). -/
def execBigModexp (rd rs1 rs2 rs3 : Reg) (s : State) : Host.Outcome State Fault Refusal :=
  if s.big rs3 = 0 then raiseErr .arg s
  else complete (s.writeBig rd (modPow (s.big rs1) (s.big rs2) (s.big rs3)))

/-! ### The public-key operations as commands (R146)

Each is one BIG.MODEXP: the base in `x`, the exponent in `e` or `d`, the modulus N in `n`. The range checks around them are
host software (R146). -/

/-- Encryption computes x^e mod N (R146). -/
def encryptCommand (rd x e n : Reg) : Instr := .bigModexp rd x e n

/-- Signature verification computes x^e mod N, x the signature (R146). -/
def verifyCommand (rd x e n : Reg) : Instr := .bigModexp rd x e n

/-- Decryption computes x^d mod N (R146). -/
def decryptCommand (rd x d n : Reg) : Instr := .bigModexp rd x d n

/-- Signing is the identical computation to decryption (R146). -/
def signCommand (rd x d n : Reg) : Instr := decryptCommand rd x d n

end Sys2Proof.Machine
end

