-- ==== Sys2Proof/Machine/ShaUnit.lean ====
section
/-! DEFINITION. The SHA unit: SHA.INIT, SHA.UPDATE, SHA.DIGEST (spec/40_sha512.md R91 to R95). -/

namespace Sys2Proof.Machine

/-- One byte of SHA.UPDATE: placed at blk[BF]; a block that fills is compressed at once and BF returns to 0 (R93, R32). -/
def ShaContext.absorbByte (c : ShaContext) (b : Byte) : ShaContext :=
  let blk := c.blk.set c.bf b
  if hb : c.bf.val + 1 < 128 then { c with blk := blk, bf := ⟨c.bf.val + 1, hb⟩ }
  else { c with blk := blk, bf := 0, h := compress blk.toList c.h }

/-- A byte group: its bytes in order, then BC <- (BC + 8n) mod 2^128 (R93). -/
def ShaContext.absorb (c : ShaContext) (g : List Byte) : ShaContext :=
  { g.foldl ShaContext.absorbByte c with bc := c.bc + BitVec.ofNat 128 (8 * g.length) }

/-- The working block of SHA.DIGEST: the bytes below BF, the terminator 0x80 at BF, zeros above (R94, R95). -/
def ShaContext.terminatedBlock (c : ShaContext) : List Byte :=
  c.blk.toList.take c.bf.val ++ 0x80 :: List.replicate (127 - c.bf.val) 0

/-- A block with its last 16 bytes replaced by the bit count (R94, R59). -/
def withLength (blk : List Byte) (bc : BitVec 128) : List Byte := blk.take 112 ++ beBytes 16 bc.toNat

/-- The eight final hash words of SHA.DIGEST (R94): one compression with BF < 112, two otherwise (R113). The branch for
BF = 128 is left out, as R108 allows: no context has it. -/
def ShaContext.digest (c : ShaContext) : HashWords :=
  if c.bf.val ≥ 112 then
    compress (withLength (List.replicate 128 0) c.bc) (compress c.terminatedBlock c.h)
  else compress (withLength c.terminatedBlock c.bc) c.h

/-- SHA.INIT (R91). -/
def execShaInit (s : State) : Host.Outcome State Fault Refusal :=
  complete { s with sha := ShaContext.initial }

/-- SHA.UPDATE n (R93). -/
def execShaUpdate (n : Nat) (s : State) : Host.Outcome State Fault Refusal :=
  if n = 0 ∨ n > Config.updateMax then raiseErr .arg s
  else complete { s with sha := s.sha.absorb (dinBytes s.din n) }

/-- SHA.DIGEST (R94): writes DOUT and leaves the context alone. -/
def execShaDigest (s : State) : Host.Outcome State Fault Refusal :=
  complete { s with dout := s.sha.digest }

end Sys2Proof.Machine
end

