-- ==== Sys2Proof/Machine/Dispatch.lean ====
section
/-! DEFINITION. The engine's completion of a decoded command: one arm per command (spec/60_exceptions.md R193). -/

namespace Sys2Proof.Machine

def exec (i : Instr) (s : State) : Host.Outcome State Fault Refusal :=
  match i with
  | .shaInit => Sys2Proof.Machine.execShaInit s
  | .shaUpdate n => Sys2Proof.Machine.execShaUpdate n s
  | .shaDigest => Sys2Proof.Machine.execShaDigest s
  | .bigMov rd rs1 => Sys2Proof.Machine.execBigMov rd rs1 s
  | .bigLdi rd imm20 => Sys2Proof.Machine.execBigLdi rd imm20 s
  | .bigAdd rd rs1 rs2 => Sys2Proof.Machine.execBigAdd rd rs1 rs2 s
  | .bigSub rd rs1 rs2 => Sys2Proof.Machine.execBigSub rd rs1 rs2 s
  | .bigMul rd rs1 rs2 => Sys2Proof.Machine.execBigMul rd rs1 rs2 s
  | .bigMod rd rs1 rs2 => Sys2Proof.Machine.execBigMod rd rs1 rs2 s
  | .bigShr rd rs1 imm16 => Sys2Proof.Machine.execBigShr rd rs1 imm16 s
  | .bigCmp rs1 rs2 => Sys2Proof.Machine.execBigCmp rs1 rs2 s
  | .bigModmul rd rs1 rs2 rs3 => Sys2Proof.Machine.execBigModmul rd rs1 rs2 rs3 s
  | .bigModexp rd rs1 rs2 rs3 => Sys2Proof.Machine.execBigModexp rd rs1 rs2 rs3 s
  | .bigGcd rd rs1 rs2 => Sys2Proof.Machine.execBigGcd rd rs1 rs2 s
  | .bigModinv rd rs1 rs2 => Sys2Proof.Machine.execBigModinv rd rs1 rs2 s

end Sys2Proof.Machine
end

