-- ==== Sys2Proof/Machine/Step.lean ====
section
/-! DEFINITION. One step of the machine: the next turn of the agenda. The RCE fetches no instructions (spec/10_state.md
R24): a command runs when the host has written it to CMD, and the engine's turn completes it. -/

namespace Sys2Proof.Machine

/-- The engine's turn (spec/60_exceptions.md R193): it decodes the accepted word and runs its rule; a word no row selects
ends with E_ILLEGAL; with no command in flight the engine is idle (R208). -/
def engineTurn (s : State) : Host.Outcome State Fault Refusal :=
  if s.busy then
    match decode s.cmd with
    | .ok i => exec i s
    | .error _ => completeIllegal s
  else .next s

/-- One step. With an empty agenda it is the engine's turn: every accepted command completes (spec/70 R226). -/
def step (s : State) : Host.Outcome State Fault Refusal :=
  match s.agenda with
  | [] => engineTurn s
  | .engine :: rest => engineTurn { s with agenda := rest }
  | .host a :: rest => hostTurn a { s with agenda := rest }
  | .powerOn :: rest => .next { s with agenda := rest }.powerOnReset

/-- The state in which the very next step runs the given command word: as after the host's write of it to CMD while idle
(R30, R192), with the engine's turn next. -/
def State.withFetchWord (s : State) (nbits w : Nat) : State :=
  { s.accept (tableWord nbits w) with agenda := .engine :: s.agenda }

end Sys2Proof.Machine
end

