-- ==== Sys2Proof/Machine/HostPort.lean ====
section
/-! DEFINITION. The host-program notation of spec/30_encoding.md R86: each line as what the host does to the machine, one turn
at a time, and what it learns from the values its reads return. -/

namespace Sys2Proof.Machine

/-- Goes on from a next state, or stops where the machine stopped. -/
def andThen {α β : Type} (o : Host.Outcome α Fault Refusal) (f : α → Host.Outcome β Fault Refusal) :
    Host.Outcome β Fault Refusal :=
  match o with
  | .next a => f a
  | .fault e => .fault e
  | .refused r => .refused r

/-! ### Turns -/

/-- `st OFF, V` (R86). -/
def turnSt (off : Nat) (v : Word) : Turn := .host (.write off 8 v)

/-- `ld OFF` (R86). -/
def turnLd (off : Nat) : Turn := .host (.read off 8)

/-- `cmd <command>` (R86): the command's word, zero-extended to 64 bits. -/
def turnCmd (i : Instr) : Turn := turnSt 0x018 ((encode i).setWidth 64)

/-- `stbig bi, V` (R86): the limbs of V, limb 0 first. -/
def turnsStbig (limbs : Nat) (r : Reg) (v : Nat) : List Turn :=
  (List.range limbs).map (fun j => turnSt (limbOffset limbs r j) (limbOf v j))

/-- One turn taken now, ahead of the agenda (log entry 3). -/
def perform (turn : Turn) (s : State) : Host.Outcome State Fault Refusal := step { s with agenda := turn :: s.agenda }

/-- Turns taken now, in order. -/
def runTurns : List Turn → State → Host.Outcome State Fault Refusal
  | [], s => .next s
  | turn :: turns, s => andThen (perform turn s) (runTurns turns)

/-! ### Reads -/

/-- The value `ld OFF` returns, and the state after it (R86, R50). -/
def hostLd (off : Nat) (s : State) : Host.Outcome (Word × State) Fault Refusal :=
  andThen (perform (turnLd off) s) fun t => .next (t.readData.getD 0, t)

/-- The values of a list of loads, in order. -/
def hostLdAll : List Nat → State → Host.Outcome (List Word × State) Fault Refusal
  | [], s => .next ([], s)
  | off :: offs, s =>
    andThen (hostLd off s) fun first =>
      andThen (hostLdAll offs first.2) fun others => .next (first.1 :: others.1, others.2)

/-- The integer with the given limbs, limb 0 first (R22, R58). -/
def fromLimbs : List Word → Nat
  | [] => 0
  | w :: ws => w.toNat + 2 ^ 64 * fromLimbs ws

/-- `ldbig bi` (R86): the integer whose limb j is the load of limb j of Bi. -/
def hostLdbig (r : Reg) (s : State) : Host.Outcome (Nat × State) Fault Refusal :=
  andThen (hostLdAll ((List.range s.limbs).map (limbOffset s.limbs r)) s) fun got => .next (fromLimbs got.1, got.2)

/-- `stbig bi, V` (R86). -/
def hostStbig (r : Reg) (v : Nat) (s : State) : Host.Outcome State Fault Refusal := runTurns (turnsStbig s.limbs r v) s

/-! ### Commands -/

/-- `wait` (R86): loads STATUS until bit 0 is 0, and gives the value of the last load. `polls` is the command's LATENCY in
polls: the engine completes before the poll after that many, so that poll ends the loop. -/
def hostWait : Nat → State → Host.Outcome (Word × State) Fault Refusal
  | 0, s => andThen (perform .engine s) (hostLd 0x010)
  | polls + 1, s =>
    andThen (hostLd 0x010 s) fun poll => if poll.1.getLsbD 0 then hostWait polls poll.2 else .next poll

/-- ERR of a STATUS word, v[11:8] (R86, spec/10_state.md R29). -/
def statusErr (v : Word) : BitVec 4 := v.extractLsb' 8 4

/-- `run <command>` (R86): `cmd`, then `wait`, then the host's check that v[11:8] = 0, whose answer is the value. A program
that says otherwise ignores the answer. -/
def hostRun (polls : Nat) (i : Instr) (s : State) : Host.Outcome (Bool × State) Fault Refusal :=
  andThen (perform (turnCmd i) s) fun accepted =>
    andThen (hostWait polls accepted) fun done => .next (statusErr done.1 == 0, done.2)

/-! ### Messages -/

/-- The DIN word of a byte group: fromBE(g) << 8 (8 - |g|) (R86 `absorb`). -/
def packGroup (g : List Byte) : Word := BitVec.ofNat 64 (fromBE g * 2 ^ (8 * (8 - g.length)))

/-- The groups of up to 8 consecutive bytes of a byte string: groups of 8, the last one shorter (R86 `absorb`). -/
def byteGroups (bs : List Byte) : List (List Byte) :=
  (List.range ((bs.length + 7) / 8)).map (fun k => (bs.drop (8 * k)).take 8)

/-- `st 0x020, fromBE(g) << 8 (8 - |g|)`; `run sha.update |g|`, for each group in order while the check of `run` holds. `polls`
gives each command's LATENCY, by the number of groups after it. -/
def hostAbsorbGroups (polls : Nat → Nat) : List (List Byte) → State → Host.Outcome (Bool × State) Fault Refusal
  | [], s => .next (true, s)
  | g :: gs, s =>
    andThen (perform (turnSt 0x020 (packGroup g)) s) fun stored =>
      andThen (hostRun (polls gs.length) (.shaUpdate g.length) stored) fun ran =>
        if ran.1 then hostAbsorbGroups polls gs ran.2 else .next ran

/-- `absorb s` (R86). -/
def hostAbsorb (polls : Nat → Nat) (bs : List Byte) : State → Host.Outcome (Bool × State) Fault Refusal :=
  hostAbsorbGroups polls (byteGroups bs)

/-- The 64 bytes of eight DOUT words: BE_8 of each, DOUT[0] first (R86 `digest`, R59). -/
def digestBytes (ws : List Word) : List Byte := ws.flatMap (fun w => beBytes 8 w.toNat)

/-- `digest -> D` (R86): `run sha.digest`, then D from the loads of DOUT[0] to DOUT[7]; no D where the check of `run` fails. -/
def hostDigest (polls : Nat) (s : State) : Host.Outcome (Option (List Byte) × State) Fault Refusal :=
  andThen (hostRun polls .shaDigest s) fun ran =>
    if ran.1 then
      andThen (hostLdAll ((List.finRange 8).map doutOffset) ran.2) fun got => .next (some (digestBytes got.1), got.2)
    else .next (none, ran.2)

end Sys2Proof.Machine
end

