-- ==== Sys2Proof/Safety.lean ====
section
/-! DEFINITION. The terms claims are stated in: frames, the invariant of every step, which turns respect the spec's rules for
host software, the message a SHA context holds, and SHA-512 as FIPS 180-4 pads and chains it. -/

namespace Sys2Proof.Machine

/-! ### Frames -/

/-- The completion of a command with code `e` (spec/60_exceptions.md R191, R193): STATUS.BUSY, DONE and ERR take the values of
the completion, the work storage is discarded, and nothing of the rest of STATUS and of the host's side changes. -/
structure CompletedWith (e : ErrCode) (s t : State) : Prop where
  busy : t.busy = false
  done_set : t.doneFlag = true
  err : t.err = e
  work : t.work = []
  ovr : t.ovr = s.ovr
  ie : t.ie = s.ie
  cmd : t.cmd = s.cmd
  din : t.din = s.din
  limbs : t.limbs = s.limbs
  agenda : t.agenda = s.agenda
  readData : t.readData = s.readData
  draws : t.draws = s.draws

/-- EQ, LT and GT are as before (spec/10_state.md R25). -/
structure SameFlags (s t : State) : Prop where
  eq_same : t.eqFlag = s.eqFlag
  lt_same : t.ltFlag = s.ltFlag
  gt_same : t.gtFlag = s.gtFlag

/-- Every big-integer register is as before, with its written marks. -/
def SameRegs (s t : State) : Prop := ∀ r : Reg, t.reg r = s.reg r

/-- A successful command whose one result is `v` in rd: every limb of rd is then written (R23), every other register, the
flags, the SHA context and DOUT are as before, and STATUS says OK. -/
structure ResultIn (rd : Reg) (v : Nat) (s t : State) : Prop where
  value : t.big rd = v
  written : (t.reg rd).written = List.replicate s.limbs true
  others : ∀ r : Reg, r ≠ rd → t.reg r = s.reg r
  flags : SameFlags s t
  sha : t.sha = s.sha
  dout : t.dout = s.dout
  completed : CompletedWith .ok s t

/-- A command that ends with the error `e` and writes nothing but STATUS (R191). -/
structure ErrorOnly (e : ErrCode) (s t : State) : Prop where
  regs : SameRegs s t
  flags : SameFlags s t
  sha : t.sha = s.sha
  dout : t.dout = s.dout
  completed : CompletedWith e s t

/-- Everything but the model's own agenda, read port and draw counter is as before: what a host access that changes no
state of the RCE leaves (spec/20_memory.md R50, R52). -/
def SameBlock (s t : State) : Prop :=
  t = { s with agenda := t.agenda, readData := t.readData, draws := t.draws }

/-! ### Which turn comes next -/

/-- The offset of a host access. -/
def Access.off : Access → Nat
  | .read off _ => off
  | .write off _ _ => off

/-- The width in bytes of a host access. -/
def Access.width : Access → Nat
  | .read _ width => width
  | .write _ width _ => width

/-- The turn the next step takes: the head of the agenda, the engine's when there is none. -/
def State.nextTurn (s : State) : Turn := s.agenda.headD .engine

/-- The next step is the engine's turn. -/
def State.engineNext (s : State) : Prop := s.agenda = [] ∨ ∃ rest, s.agenda = .engine :: rest

/-- The next step completes the command `i` (spec/60_exceptions.md R193). -/
def State.completes (s : State) (i : Instr) : Prop := s.busy = true ∧ decode s.cmd = .ok i ∧ s.engineNext

/-- The next step is a host write of CTRL with bit 1 set: a soft reset (spec/70_reset_and_hazards.md R216). -/
def State.softResetNext (s : State) : Prop :=
  ∃ v rest, s.agenda = .host (.write 0x008 8 v) :: rest ∧ v.getLsbD 1 = true

/-- The next step is a power-on reset (R215). -/
def State.powerOnNext (s : State) : Prop := ∃ rest, s.agenda = .powerOn :: rest

/-- The next step is the host's write of CMD while BUSY = 0: an accept (R192). -/
def State.acceptNext (s : State) : Prop :=
  s.busy = false ∧ ∃ v rest, s.agenda = .host (.write 0x018 8 v) :: rest

/-- The next step is a host write of the offset `off` with the value `v`. -/
def State.writeNext (s : State) (off : Nat) (v : Word) : Prop := ∃ rest, s.agenda = .host (.write off 8 v) :: rest

/-- The state after the head of the agenda has been taken off, nothing else changed. -/
def State.popTurn (s : State) : State := { s with agenda := s.agenda.tail }

/-- A turn that neither stops the machine nor resets the block: the engine's, or a legal access that is no soft reset. -/
def harmlessTurn (limbs : Nat) : Turn → Bool
  | .engine => true
  | .powerOn => false
  | .host (.read off width) => (checkAccess limbs off width).isOk
  | .host (.write off width v) => (checkAccess limbs off width).isOk && !(off == 0x008 && v.getLsbD 1)

/-! ### The invariant of every step -/

/-- What holds of every state a run reaches, and every step keeps. -/
structure State.Inv (s : State) : Prop where
  /-- BIGW is a legal width (spec/00_scope.md R13) -/
  limbs_legal : Config.legalLimbs s.limbs = true
  /-- every register is in [0, 2^BIGW) (spec/10_state.md R21) -/
  regs_fit : ∀ r : Reg, s.big r < 2 ^ s.bigw
  /-- one written mark per limb (R23) -/
  marks : ∀ r : Reg, (s.reg r).written.length = s.limbs
  /-- a command in flight has DONE = 0 and ERR = 0 (R30) -/
  in_flight : s.busy = true → s.doneFlag = false ∧ s.err = .ok
  /-- at most one comparison flag is set (R25) -/
  one_flag : s.flagCount ≤ 1
  /-- BC counts the bytes of the block too: BC mod 1024 = 8 BF (spec/40_sha512.md R112) -/
  counters : s.sha.bc.toNat % 1024 = 8 * s.sha.bf.val
  /-- the work storage is empty between steps (R36(c)) -/
  no_work : s.work = []

/-! ### The spec's rules for host software -/

/-- Every limb of Bi has been written since power-on (R23). -/
def State.defined (s : State) (r : Reg) : Bool := (s.reg r).allWritten

/-- The command in flight reads a register that is not defined: the read that R23 and U1 ask a model to fault on, and that
this model answers with the reset value of log entry 2. -/
def State.completionReadsUnwritten (s : State) : Bool :=
  s.busy && match decode s.cmd with
    | .ok i => (operandRegs i).any (fun r => !s.defined r)
    | .error _ => false

/-- The host reads a limb that nothing has written since power-on (R23, U1). -/
def State.readIsUnwritten (s : State) : Access → Bool
  | .read off width =>
    match checkAccess s.limbs off width with
    | .ok (.limb r j) => !(s.reg r).written.getD j false
    | .ok _ => false
    | .error _ => false
  | .write _ _ _ => false

/-- A host access that respects the issue and result hazards (spec/70_reset_and_hazards.md R219, R220): while BUSY = 1 it writes
no CMD, DIN or limb and reads no DOUT or limb. -/
def State.respectsHazards (s : State) : Access → Bool
  | .read off width =>
    match checkAccess s.limbs off width with
    | .ok t => !(s.busy && t.readGuarded)
    | .error _ => true
  | .write off width _ =>
    match checkAccess s.limbs off width with
    | .ok t => !(s.busy && t.writeGuarded)
    | .error _ => true

/-- A turn the spec defines whole: a legal access that respects the hazards and reads no unwritten limb, and is no soft reset
that leaves an rd unspecified (R216(d)); or a completion that reads no undefined register. A run of such turns draws no
value and reads no power-on value of a register (log entry 2). -/
def State.safeTurn (s : State) : Turn → Bool
  | .host (.read off width) =>
    (checkAccess s.limbs off width).isOk && s.respectsHazards (.read off width) && !s.readIsUnwritten (.read off width)
  | .host (.write off width v) =>
    (checkAccess s.limbs off width).isOk && s.respectsHazards (.write off width v) &&
      !(off == 0x008 && v.getLsbD 1 && s.abandonedReg.isSome)
  | .engine => !s.completionReadsUnwritten
  | .powerOn => true

/-- Two states that differ, if at all, only in the values of limbs that nothing has written since power-on (R23). -/
structure SameButUnwritten (s s' : State) : Prop where
  rest : s' = { s with regs := s'.regs }
  marks : ∀ r : Reg, (s'.reg r).written = (s.reg r).written
  limbs : ∀ (r : Reg) (j : Nat), (s.reg r).written.getD j false = true → limbOf (s'.big r) j = limbOf (s.big r) j

/-! ### Messages and SHA-512 -/

/-- SHA.UPDATE of a byte group the host has put in DIN (R86 `absorb`). -/
def updateWith (g : List Byte) (s : State) : Host.Outcome State Fault Refusal :=
  exec (.shaUpdate g.length) { s with din := packGroup g }

/-- SHA.UPDATE of each group in order. -/
def runUpdates : List (List Byte) → State → Host.Outcome State Fault Refusal
  | [], s => .next s
  | g :: gs, s =>
    match updateWith g s with
    | .next t => runUpdates gs t
    | .fault f => .fault f
    | .refused r => .refused r

/-- The compression chain over the first `n` 128-byte blocks of a byte string. -/
def chain : Nat → List Byte → HashWords → HashWords
  | 0, _, h => h
  | n + 1, bs, h => chain n (bs.drop 128) (compress (bs.take 128) h)

/-- The SHA context after absorbing the message `m` since SHA.INIT (spec/40_sha512.md R112). -/
structure HoldsMessage (m : List Byte) (c : ShaContext) : Prop where
  h : c.h = chain (m.length / 128) m iv
  bf : c.bf.val = m.length % 128
  blk : c.blk.toList.take c.bf.val = m.drop (128 * (m.length / 128))
  bc : c.bc.toNat = 8 * m.length % 2 ^ 128

/-- FIPS 180-4 5.1.2 padding: a 1 bit, zeros, and the 128-bit length, to a multiple of 128 bytes (R106). -/
def sha512Pad (m : List Byte) : List Byte :=
  m ++ 0x80 :: List.replicate ((239 - m.length % 128) % 128) 0 ++ beBytes 16 (8 * m.length)

/-- SHA-512 of a byte string, as FIPS 180-4 defines it: the chain over the padded message (R2, R106). -/
def sha512 (m : List Byte) : HashWords := chain ((sha512Pad m).length / 128) (sha512Pad m) iv

end Sys2Proof.Machine
end

