-- ==== Sys2Proof/Certificates/Slice0/Obligations.lean ====
section
/-! DEFINITION. The statements for the provers. Each docstring names the rule of spec/ it formalises. -/

open Sys2Proof Sys2Proof.Machine

/-! ### Encoding (spec/30_encoding.md) -/

/-- No bit of an encoding is dropped: decoding the assembler's word of a well-formed command gives it back (R71 to R75, R77,
R83). -/
def Obligations.DecodeOfEncodeIsIdentity : Prop :=
  ∀ i : Instr, i.wf = true → decode (encode i) = .ok i

/-- The other direction: a word that decodes is the assembler's word of a well-formed command, so every legal word has one
meaning (R77, R83, R84). -/
def Obligations.EncodeOfDecodeIsIdentity : Prop :=
  ∀ (w : CmdWord) (i : Instr), decode w = .ok i → i.wf = true ∧ encode i = w

/-- R77: a word decodes exactly when (w & mask) = match for a row; no two rows share an opcode; at most one row matches. -/
def Obligations.AtMostOneRowMatches : Prop :=
  (∀ w : CmdWord, (∃ i, decode w = .ok i) ↔ ∃ row ∈ opcodeMap, w &&& row.mask = row.pattern) ∧
  (∀ r1 ∈ opcodeMap, ∀ r2 ∈ opcodeMap, r1.opcode = r2.opcode → r1 = r2) ∧
  (∀ (w : CmdWord), ∀ r1 ∈ opcodeMap, ∀ r2 ∈ opcodeMap, w &&& r1.mask = r1.pattern → w &&& r2.mask = r2.pattern → r1 = r2)

/-- R80: the unassigned opcodes, every word of a listed opcode with a must-be-zero bit set and the all-zero word are illegal;
an illegal word completes with E_ILLEGAL and changes nothing but STATUS. -/
def Obligations.IllegalWordsCompleteWithIllegal : Prop :=
  (∀ w : CmdWord,
    (let op := (w.extractLsb' 24 8).toNat
     op ≤ 0x0F ∨ (0x13 ≤ op ∧ op ≤ 0x1F) ∨ (0x28 ≤ op ∧ op ≤ 0x2F) ∨ (0x32 ≤ op ∧ op ≤ 0x3F) ∨ 0x42 ≤ op) →
    ∃ d, decode w = .error d) ∧
  (∀ w : CmdWord, ∀ row ∈ opcodeMap, w.extractLsb' 24 8 = row.opcode → w &&& row.mask ≠ row.pattern →
    ∃ d, decode w = .error d) ∧
  (∃ d, decode 0 = .error d) ∧
  (∀ (s : State) (d : DecodeError), s.busy = true → decode s.cmd = .error d →
    ∃ t, engineTurn s = .next t ∧ ErrorOnly .illegal s t)

/-- R89's worked decodes, and one word of each other format written from R71 and R77 (a sanity statement). -/
def Obligations.WorkedWordsDecode : Prop :=
  encode (.bigModexp 2 0 1 3) = 0x31201300 ∧
  decode 0x31201300 = .ok (.bigModexp 2 0 1 3) ∧
  (0x31201300 : CmdWord) &&& 0xFF8888FF = 0x31000000 ∧
  decode 0x31A01300 = .error .reservedBitSet ∧
  decode 0x10000000 = .ok .shaInit ∧
  decode 0x11000008 = .ok (.shaUpdate 8) ∧
  decode 0x217FFFFF = .ok (.bigLdi 7 0xFFFFF) ∧
  decode 0x2610FFFF = .ok (.bigShr 1 0 65535) ∧
  decode 0x27043000 = .ok (.bigCmp 4 3) ∧
  decode 0x41543000 = .ok (.bigModinv 5 4 3)

/-! ### Steps and completion (spec/60_exceptions.md) -/

/-- A step runs the decoded command: with a command in flight, the engine's turn is `exec` of the word in CMD, at the state
without that turn (R193). -/
def Obligations.EngineTurnRunsDecodedCommand : Prop :=
  ∀ (s : State) (i : Instr), s.completes i → step s = exec i s.popTurn

/-- R30, R88, R192, R193: a CMD write while idle latches the low 32 bits, sets BUSY and clears DONE and ERR, and the engine's
turn after it runs that word's command. -/
def Obligations.CmdWriteIsAcceptedThenRun : Prop :=
  ∀ (s : State) (v : Word) (rest : List Turn), s.busy = false → s.agenda = .host (.write 0x018 8 v) :: rest →
    ∃ t, step s = .next t ∧
      t = { s with cmd := v.extractLsb' 0 32, busy := true, doneFlag := false, err := .ok, agenda := rest } ∧
      ∀ (i : Instr) (rest' : List Turn), decode (v.extractLsb' 0 32) = .ok i → rest = .engine :: rest' →
        step t = exec i { t with agenda := rest' }

/-- The host's placed word runs next (log entry 3): `withFetchWord` is the accept of that word with the engine's turn next. -/
def Obligations.PlacedWordRunsNext : Prop :=
  ∀ (s : State) (w : Nat) (i : Instr), decode (BitVec.ofNat 32 w) = .ok i →
    step (s.withFetchWord 32 w) = exec i { s with cmd := BitVec.ofNat 32 w, busy := true, doneFlag := false, err := .ok }

/-- Every completion of a command ends with one code, and an error writes no register, no flag, no DOUT word and no part of
the SHA context (R191). -/
def Obligations.CompletionIsPrecise : Prop :=
  ∀ s : State, s.busy = true →
    ∃ t e, engineTurn s = .next t ∧ CompletedWith e s t ∧ (e ≠ .ok → ErrorOnly e s t)

/-- R190: which command raises which code. -/
def Obligations.CodesAreRaisedByTheirCommands : Prop :=
  ∀ (i : Instr) (s t : State), exec i s = .next t →
    (t.err ≠ .illegal) ∧
    (t.err = .arg →
      (∃ n, i = .shaUpdate n ∧ (n = 0 ∨ 8 < n)) ∨
      (∃ rd a m, i = .bigMod rd a m ∧ s.big m = 0) ∨
      (∃ rd a b m, (i = .bigModmul rd a b m ∨ i = .bigModexp rd a b m) ∧ s.big m = 0) ∨
      (∃ rd a m, i = .bigModinv rd a m ∧ (s.big a = 0 ∨ s.big m = 0 ∨ s.big m ≤ s.big a))) ∧
    (t.err = .logic → ∃ rd a m, i = .bigModinv rd a m ∧ (s.big m % s.big a = 0 ∨ Nat.gcd (s.big a) (s.big m) ≠ 1)) ∧
    (t.err = .range → ∃ rd a b,
      (i = .bigAdd rd a b ∧ 2 ^ s.bigw ≤ s.big a + s.big b) ∨ (i = .bigSub rd a b ∧ s.big a < s.big b) ∨
      (i = .bigMul rd a b ∧ 2 ^ s.bigw ≤ s.big a * s.big b))

/-- The host sees a completed command only where it wrote: every mapped offset but STATUS, the limbs of rd and, after
SHA.DIGEST, DOUT reads as before (R137, R138, R149, R163). -/
def Obligations.WindowUnchangedOutsideResult : Prop :=
  ∀ (i : Instr) (s t : State) (off : Nat) (tg : Target), exec i s = .next t → target s.limbs off = some tg →
    tg ≠ .status → (∀ rd j, writesReg i = some rd → tg ≠ .limb rd j) → (i = .shaDigest → ∀ k, tg ≠ .dout k) →
    t.valueAt tg = s.valueAt tg

/-- The machine stops exactly at an illegal host access, and never refuses (R49, R52, R53): a bus error for a wrong width, a
misaligned or a reserved offset; a fault of its own past the window (log entry 5). -/
def Obligations.StepStopsExactlyAtIllegalAccess : Prop :=
  ∀ s : State,
    (∀ r, step s ≠ .refused r) ∧
    (step s = .fault .busError ↔ ∃ a rest, s.agenda = .host a :: rest ∧
      (a.width ≠ 8 ∨ a.off % 8 ≠ 0 ∨ (0x028 ≤ a.off ∧ a.off ≤ 0x03F) ∨ (0x080 ≤ a.off ∧ a.off ≤ 0xFFF))) ∧
    (step s = .fault .outsideWindow ↔ ∃ a rest, s.agenda = .host a :: rest ∧
      a.width = 8 ∧ a.off % 8 = 0 ∧ 0x1000 + 8 * (8 * s.limbs) ≤ a.off)

/-- R226: an accepted command completes after finitely many turns, unless a reset abandons it: whatever legal accesses the host
makes first. That an exhausted agenda gives the engine its turn is the model's form of R226's fairness (log entry 3). -/
def Obligations.AcceptedCommandCompletes : Prop :=
  ∀ s : State, s.busy = true → (∀ turn ∈ s.agenda, harmlessTurn s.limbs turn = true) →
    ∃ k t, 1 ≤ k ∧ k ≤ s.agenda.length + 1 ∧ Sys2Proof.core.run k s = .next t ∧ t.busy = false ∧ t.doneFlag = true

/-! ### The register window (spec/20_memory.md, spec/10_state.md) -/

/-- R50: a host read of a mapped offset while idle returns the value of the register or limb and changes no state of the
block. For each kind of register the value is written out: ID, CTRL and STATUS are words whose bits `IdIsConstant` and
`ControlAndStatusLayout` state, CMD is zero-extended (R30), DIN, DOUT[i] and limbs are as they stand. -/
def Obligations.IdleReadReturnsValue : Prop :=
  ∀ (s : State) (rest : List Turn), s.busy = false →
    let returns (off : Nat) (v : Word) : Prop :=
      s.agenda = .host (.read off 8) :: rest → step s = .next { s with readData := some v, agenda := rest }
    returns 0x000 s.idWord ∧ returns 0x008 s.ctrlWord ∧ returns 0x010 s.statusWord ∧
    returns 0x018 (BitVec.ofNat 64 s.cmd.toNat) ∧ returns 0x020 s.din ∧
    (∀ i : Fin 8, returns (0x040 + 8 * i.val) s.dout[i]) ∧
    (∀ (r : Reg) (j : Nat), j < s.limbs →
      returns (0x1000 + r.val * (8 * s.limbs) + 8 * j) (BitVec.ofNat 64 (s.big r / 2 ^ (64 * j)))) ∧
    (∀ (off : Nat) (tg : Target), off % 8 = 0 → target s.limbs off = some tg → returns off (s.valueAt tg))

/-- R51, while BUSY = 0: what a host write does at each mapped offset. What a soft reset leaves is `SoftResetEffects`. -/
def Obligations.IdleWriteEffects : Prop :=
  ∀ (s : State) (v : Word) (rest : List Turn), s.busy = false →
    (s.agenda = .host (.write 0x000 8 v) :: rest → step s = .next { s with agenda := rest }) ∧
    (∀ i, s.agenda = .host (.write (doutOffset i) 8 v) :: rest → step s = .next { s with agenda := rest }) ∧
    (v.getLsbD 1 = false → s.agenda = .host (.write 0x008 8 v) :: rest →
      step s = .next { s with ie := v.getLsbD 0, agenda := rest }) ∧
    (v.getLsbD 1 = true → s.agenda = .host (.write 0x008 8 v) :: rest →
      step s = .next { s with ie := v.getLsbD 0, agenda := rest }.softReset) ∧
    (s.agenda = .host (.write 0x010 8 v) :: rest →
      step s = .next { s with doneFlag := s.doneFlag && !v.getLsbD 1, ovr := s.ovr && !v.getLsbD 2, agenda := rest }) ∧
    (s.agenda = .host (.write 0x018 8 v) :: rest →
      step s = .next { s with cmd := v.extractLsb' 0 32, busy := true, doneFlag := false, err := .ok, agenda := rest }) ∧
    (s.agenda = .host (.write 0x020 8 v) :: rest → step s = .next { s with din := v, agenda := rest }) ∧
    (∀ (r : Reg) (j : Nat), j < s.limbs → s.agenda = .host (.write (limbOffset s.limbs r j) 8 v) :: rest →
      ∃ t, step s = .next t ∧ t = { s with regs := t.regs, agenda := rest } ∧ (∀ r', r' ≠ r → t.reg r' = s.reg r') ∧
        (t.reg r).written = (s.reg r).written.set j true ∧
        ∀ k, (t.big r).testBit k
          = if 64 * j ≤ k ∧ k < 64 * j + 64 then v.getLsbD (k - 64 * j) else (s.big r).testBit k)

/-- R55: host accesses while BUSY = 1. (a) writes to CMD, DIN and limbs are discarded and set OVR; (b) CTRL and STATUS writes are
performed; (c) ID and DOUT writes are ignored; (d) control registers read as they stand; (e) DOUT and limbs read as a free
draw. -/
def Obligations.BusyAccesses : Prop :=
  ∀ (s : State) (off : Nat) (tg : Target) (v : Word) (rest : List Turn), s.busy = true → off % 8 = 0 →
    target s.limbs off = some tg →
    (s.agenda = .host (.write off 8 v) :: rest →
      (tg = .cmd ∨ tg = .din ∨ (∃ r j, tg = .limb r j) → step s = .next { s with ovr := true, agenda := rest }) ∧
      (tg = .ctrl → v.getLsbD 1 = false → step s = .next { s with ie := v.getLsbD 0, agenda := rest }) ∧
      (tg = .ctrl → v.getLsbD 1 = true → step s = .next { s with ie := v.getLsbD 0, agenda := rest }.softReset) ∧
      (tg = .status →
        step s = .next { s with doneFlag := s.doneFlag && !v.getLsbD 1, ovr := s.ovr && !v.getLsbD 2, agenda := rest }) ∧
      (tg = .id ∨ (∃ i, tg = .dout i) → step s = .next { s with agenda := rest })) ∧
    (s.agenda = .host (.read off 8) :: rest →
      (tg = .id ∨ tg = .ctrl ∨ tg = .status ∨ tg = .cmd ∨ tg = .din →
        step s = .next { s with readData := some (s.valueAt tg), agenda := rest }) ∧
      ((∃ i, tg = .dout i) ∨ (∃ r j, tg = .limb r j) →
        step s = .next { s with readData := some (Config.freeRead s.draws), draws := s.draws + 1, agenda := rest }))

/-- Read after write of limbs (R22, R50, R51): the limb written reads back, every other limb of every register as before. -/
def Obligations.LimbReadsBackAfterWrite : Prop :=
  ∀ (s : State) (r r' : Reg) (j k : Nat) (v : Word) (rest : List Turn), s.busy = false → j < s.limbs → k < s.limbs →
    s.agenda = .host (.write (limbOffset s.limbs r j) 8 v) :: .host (.read (limbOffset s.limbs r' k) 8) :: rest →
    ∃ t u, step s = .next t ∧ step t = .next u ∧
      u.readData = some (if r' = r ∧ k = j then v else limbOf (s.big r') k)

/-- Loading a whole integer limb by limb (R58, R86 `stbig`, R23) leaves exactly that integer in the register, defined, and
nothing else changed. -/
def Obligations.StbigLoadsTheInteger : Prop :=
  ∀ (s : State) (r : Reg) (v : Nat), s.busy = false → s.Inv → v < 2 ^ s.bigw → s.agenda = turnsStbig s.limbs r v →
    ∃ t, Sys2Proof.core.run s.limbs s = .next t ∧ t.big r = v ∧ t.defined r = true ∧
      (∀ r', r' ≠ r → t.reg r' = s.reg r') ∧ t = { s with regs := t.regs, agenda := [] }

/-- R27: ID reads MAGIC 0x5243, VERSION 7, LIMBS and NREG 8 in their fields, a write of it is ignored, and no step changes
it. -/
def Obligations.IdIsConstant : Prop :=
  (∀ s : State, Config.legalLimbs s.limbs = true →
    s.idWord.toNat = 0x5243 * 2 ^ 48 + 7 * 2 ^ 32 + s.limbs * 2 ^ 16 + 8) ∧
  (∀ (s : State) (rest : List Turn), s.agenda = .host (.read 0x000 8) :: rest →
    step s = .next { s with readData := some s.idWord, agenda := rest }) ∧
  (∀ (s : State) (v : Word) (rest : List Turn), s.agenda = .host (.write 0x000 8 v) :: rest →
    step s = .next { s with agenda := rest }) ∧
  (∀ s t : State, step s = .next t → t.idWord = s.idWord)

/-- The bits of CTRL and STATUS as the host reads them (R28, R29): every field at its place, every reserved bit 0. -/
def Obligations.ControlAndStatusLayout : Prop :=
  ∀ (s : State) (k : Nat), k < 64 →
    (s.ctrlWord.getLsbD k = (decide (k = 0) && s.ie)) ∧
    (s.statusWord.getLsbD k =
      if k = 0 then s.busy else if k = 1 then s.doneFlag else if k = 2 then s.ovr
      else if 8 ≤ k ∧ k ≤ 11 then s.err.code.testBit (k - 8)
      else if k = 16 then s.eqFlag else if k = 17 then s.ltFlag else if k = 18 then s.gtFlag else false)

/-- The window's place in the host's address space (R46, R48): ENGINE_BASE is a multiple of the smallest power of two not less
than WIN, and a host address reaches the offset it stands at, and nothing outside the window. -/
def Obligations.WindowIsAlignedAndDecoded : Prop :=
  ∀ limbs : Nat,
    (∃ p, Config.windowAlign limbs = 2 ^ p) ∧ 0x1000 + 8 * (8 * limbs) ≤ Config.windowAlign limbs ∧
    (∀ p, 0x1000 + 8 * (8 * limbs) ≤ 2 ^ p → Config.windowAlign limbs ≤ 2 ^ p) ∧
    Config.windowAlign limbs ∣ Config.engineBase limbs ∧
    (∀ off, off < Config.windowBytes limbs → Config.offsetOf limbs (Config.hostAddress limbs off) = some off) ∧
    (∀ addr off, Config.offsetOf limbs addr = some off →
      off < Config.windowBytes limbs ∧ Config.hostAddress limbs off = addr)

/-! ### Resets, flags, interrupt: rules about the whole machine -/

/-- R216: a soft reset, also while BUSY = 1. The block takes its reset values, DONE stays 0 and no IRQ is raised, and every
big-integer register keeps its value but the rd of an abandoned command, which then counts as written. -/
def Obligations.SoftResetEffects : Prop :=
  ∀ (s : State), s.softResetNext →
    ∃ t, step s = .next t ∧ t.ie = false ∧ t.busy = false ∧ t.doneFlag = false ∧ t.ovr = false ∧ t.err = .ok ∧
      t.eqFlag = false ∧ t.ltFlag = false ∧ t.gtFlag = false ∧ t.cmd = 0 ∧ t.din = 0 ∧ (∀ i : Fin 8, t.dout[i] = 0) ∧
      t.sha.h = iv ∧ (∀ j : Fin 128, t.sha.blk[j] = 0) ∧ t.sha.bf = 0 ∧ t.sha.bc = 0 ∧ t.work = [] ∧ t.irq = false ∧
      t.limbs = s.limbs ∧ t.agenda = s.agenda.tail ∧ t.readData = s.readData ∧
      (∀ r : Reg, (s.busy = true ∧ ∃ i, decode s.cmd = .ok i ∧ writesReg i = some r) ∨ t.reg r = s.reg r) ∧
      (∀ (r : Reg) (i : Instr), s.busy = true → decode s.cmd = .ok i → writesReg i = some r →
        t.big r < 2 ^ s.bigw ∧ (t.reg r).written = List.replicate s.limbs true)

/-- R215 and R38: power-on reset puts every piece of state at the value the spec gives, and leaves every big-integer register
unwritten (their values are the model's, log entry 2, and are not stated). -/
def Obligations.PowerOnEffects : Prop :=
  ∀ s : State, s.powerOnNext →
    ∃ t, step s = .next t ∧ t.ie = false ∧ t.busy = false ∧ t.doneFlag = false ∧ t.ovr = false ∧ t.err = .ok ∧
      t.eqFlag = false ∧ t.ltFlag = false ∧ t.gtFlag = false ∧ t.cmd = 0 ∧ t.din = 0 ∧ (∀ i : Fin 8, t.dout[i] = 0) ∧
      t.sha.h = iv ∧ (∀ j : Fin 128, t.sha.blk[j] = 0) ∧ t.sha.bf = 0 ∧ t.sha.bc = 0 ∧ t.work = [] ∧ t.irq = false ∧
      t.idWord = s.idWord ∧ ∀ r : Reg, (t.reg r).written = List.replicate s.limbs false

/-- R25: STATUS bits 16, 17 and 18 are EQ, LT and GT; only BIG.CMP writes them, and it sets exactly one; soft reset and
power-on clear all three. -/
def Obligations.FlagsChangeOnlyByCompareOrReset : Prop :=
  (∀ s : State, s.statusWord.getLsbD 16 = s.eqFlag ∧ s.statusWord.getLsbD 17 = s.ltFlag ∧
    s.statusWord.getLsbD 18 = s.gtFlag) ∧
  ∀ s t : State, step s = .next t →
    (SameFlags s t ∨ (∃ rs1 rs2, s.completes (.bigCmp rs1 rs2)) ∨ s.softResetNext ∨ s.powerOnNext) ∧
    ((∃ rs1 rs2, s.completes (.bigCmp rs1 rs2)) → t.flagCount = 1) ∧
    (s.softResetNext ∨ s.powerOnNext → t.flagCount = 0)

/-- R198: DONE, and so IRQ, clears exactly on a STATUS write with bit 1 set, the accept of a command, or a reset. -/
def Obligations.DoneClearsExactlyOn : Prop :=
  ∀ s t : State, step s = .next t → s.doneFlag = true →
    (t.doneFlag = false ↔
      (∃ v, s.writeNext 0x010 v ∧ v.getLsbD 1 = true) ∨ s.acceptNext ∨ s.softResetNext ∨ s.powerOnNext)

/-- R197: IRQ = CTRL.IE & STATUS.DONE. It asserts at the completion of any command while IE = 1, whatever the code; setting IE
while DONE = 1 asserts it at once; the line the block drives is IRQ_LINE and no other. -/
def Obligations.IrqAssertsAtCompletion : Prop :=
  (∀ s t : State, s.busy = true → s.engineNext → step s = .next t → t.irq = s.ie) ∧
  (∀ (s t : State) (v : Word), s.writeNext 0x008 v → v.getLsbD 1 = false → step s = .next t →
    t.irq = (v.getLsbD 0 && s.doneFlag)) ∧
  (∀ s : State, s.irq = (s.ie && s.doneFlag) ∧ s.assertedLine = if s.irq then some Config.irqLine else none)

/-- R209: a host write of CMD, DIN or a limb while BUSY = 1 sets OVR and leaves ERR, the command in flight and everything else
alone; nothing else sets OVR; and OVR stays 1 until the host writes 1 to it or a reset. -/
def Obligations.OverrunIsStickyAndHarmless : Prop :=
  (∀ (s t : State) (off : Nat) (v : Word) (tg : Target) (rest : List Turn), s.busy = true →
    s.agenda = .host (.write off 8 v) :: rest → target s.limbs off = some tg →
    (tg = .cmd ∨ tg = .din ∨ ∃ r j, tg = .limb r j) → step s = .next t →
    t.ovr = true ∧ t.err = s.err ∧ t.cmd = s.cmd ∧ t.busy = true ∧ t = { s with ovr := true, agenda := rest }) ∧
  (∀ s t : State, step s = .next t → s.ovr = false → t.ovr = true →
    s.busy = true ∧ ∃ off v tg rest, s.agenda = .host (.write off 8 v) :: rest ∧ off % 8 = 0 ∧
      target s.limbs off = some tg ∧ (tg = .cmd ∨ tg = .din ∨ ∃ r j, tg = .limb r j)) ∧
  (∀ s t : State, step s = .next t → s.ovr = true → t.ovr = false →
    (∃ v, s.writeNext 0x010 v ∧ v.getLsbD 2 = true) ∨ s.softResetNext ∨ s.powerOnNext)

/-- R33: the SHA context is written only by SHA.INIT, SHA.UPDATE and reset, and read only by SHA.UPDATE and SHA.DIGEST: two
machines that differ in the context alone make the same step, but for the context, at every other turn; so nothing the host
sees depends on it. -/
def Obligations.ShaContextIsEncapsulated : Prop :=
  (∀ s t : State, step s = .next t →
    t.sha = s.sha ∨ s.completes .shaInit ∨ (∃ n, s.completes (.shaUpdate n)) ∨ s.softResetNext ∨ s.powerOnNext) ∧
  ∀ (s : State) (c : ShaContext), (∀ n, ¬ s.completes (.shaUpdate n)) → ¬ s.completes .shaDigest →
    (∀ t, step s = .next t → ∃ c', step { s with sha := c } = .next { t with sha := c' }) ∧
    (∀ f, step s = .fault f → step { s with sha := c } = .fault f)

/-- R34, R35: only the host (or a reset) writes DIN; only SHA.DIGEST (or a reset) writes DOUT. -/
def Obligations.DinAndDoutWriters : Prop :=
  ∀ s t : State, step s = .next t →
    (t.din = s.din ∨ (∃ v, s.busy = false ∧ s.writeNext 0x020 v ∧ t.din = v) ∨ s.softResetNext ∨ s.powerOnNext) ∧
    (t.dout = s.dout ∨ s.completes .shaDigest ∨ s.softResetNext ∨ s.powerOnNext)

/-- R22: a big-integer register changes only by a command whose rd it is, by a host write of one of its limbs while idle, or by
a reset. -/
def Obligations.RegisterWriters : Prop :=
  ∀ (s t : State) (r : Reg), step s = .next t →
    t.reg r = s.reg r ∨ (∃ i, s.completes i ∧ writesReg i = some r) ∨
    (s.busy = false ∧ ∃ j v, j < s.limbs ∧ s.writeNext (limbOffset s.limbs r j) v) ∨ s.softResetNext ∨ s.powerOnNext

/-- R23: definedness is tracked per limb: once written, a limb stays written until power-on, whatever the step. -/
def Obligations.WrittenLimbsStayWritten : Prop :=
  ∀ (s t : State) (r : Reg) (j : Nat), s.Inv → step s = .next t → ¬ s.powerOnNext →
    (s.reg r).written.getD j false = true → (t.reg r).written.getD j false = true

/-- R37: while BUSY = 1 no host access that is no reset changes an operand, so a command's result is a function of the state
at its acceptance alone: completing after the access gives what completing in its place gives. -/
def Obligations.OperandsAreHeldWhileBusy : Prop :=
  ∀ (s t : State) (a : Access) (rest : List Turn), s.busy = true → s.agenda = .host a :: rest → ¬ s.softResetNext →
    step s = .next t →
    (t.busy = true ∧ t.cmd = s.cmd ∧ t.regs = s.regs ∧ t.din = s.din ∧ t.sha = s.sha ∧ t.dout = s.dout ∧
      t.limbs = s.limbs ∧ SameFlags s t) ∧
    ∃ u u', engineTurn s = .next u ∧ engineTurn t = .next u' ∧ u'.err = u.err ∧ SameRegs u u' ∧ SameFlags u u' ∧
      u'.sha = u.sha ∧ u'.dout = u.dout

/-- R219, R220, R23: a safe turn (`State.safeTurn`: the hazards respected, no unwritten limb read by the host or a command) is
exact. It sets no OVR and draws no value; a write has the effect R51 gives it; a read returns its target's value, of a limb
that has been written. And the power-on values of log entry 2 are never seen: two states that differ only in the values of
unwritten limbs take, on a safe turn, steps that differ only in such limbs. -/
def Obligations.HazardFreeAccessesAreExact : Prop :=
  (∀ s : State, s.safeTurn s.nextTurn = true → ∃ t, step s = .next t ∧ (t.ovr = true → s.ovr = true) ∧ t.draws = s.draws) ∧
  (∀ (s t : State) (off : Nat) (v : Word) (tg : Target) (rest : List Turn), s.agenda = .host (.write off 8 v) :: rest →
    s.safeTurn (.host (.write off 8 v)) = true → target s.limbs off = some tg → step s = .next t →
    t = hostWrite tg v s.popTurn ∧ (s.busy = false ∨ tg = .id ∨ tg = .ctrl ∨ tg = .status ∨ ∃ i, tg = .dout i) ∧
    (tg = .cmd → t.cmd = v.extractLsb' 0 32 ∧ t.busy = true) ∧ (tg = .din → t.din = v) ∧
    (∀ r j, tg = .limb r j → limbOf (t.big r) j = v) ∧ (tg = .ctrl → t.ie = (v.getLsbD 0 && !v.getLsbD 1)) ∧
    (tg = .status → t.doneFlag = (s.doneFlag && !v.getLsbD 1) ∧ t.ovr = (s.ovr && !v.getLsbD 2))) ∧
  (∀ (s t : State) (off : Nat) (tg : Target) (rest : List Turn), s.agenda = .host (.read off 8) :: rest →
    s.safeTurn (.host (.read off 8)) = true → target s.limbs off = some tg → step s = .next t →
    t.readData = some (s.valueAt tg) ∧ (s.busy = true → (∀ i, tg ≠ .dout i) ∧ ∀ r j, tg ≠ .limb r j) ∧
    ∀ r j, tg = .limb r j → (s.reg r).written.getD j false = true) ∧
  (∀ s s' t : State, s.Inv → s'.Inv → SameButUnwritten s s' → s.safeTurn s.nextTurn = true → step s = .next t →
    ∃ t', step s' = .next t' ∧ SameButUnwritten t t')

/-- Every step keeps the invariant `State.Inv`: legal width, registers in [0, 2^BIGW), one written mark per limb, DONE and ERR 0
while busy, at most one flag, BC in step with BF, empty work storage. -/
def Obligations.EveryStepKeepsInv : Prop :=
  ∀ s t : State, s.Inv → step s = .next t → t.Inv

/-- The machine right after reset meets the invariant. -/
def Obligations.ResetMeetsInv : Prop :=
  State.reset.Inv

/-! ### Big-integer ALU (spec/41_bigint_alu.md) -/

/-- R120: BIG.MOV. -/
def Obligations.MovCopies : Prop :=
  ∀ (rd rs1 : Reg) (s : State),
    decode (0x20000000 ||| regBits rd 20 ||| regBits rs1 16) = .ok (.bigMov rd rs1) ∧
    ∃ t, exec (.bigMov rd rs1) s = .next t ∧ ResultIn rd (s.big rs1) s t

/-- R122: BIG.LDI, for every immediate the encoding holds. -/
def Obligations.LdiLoadsImmediate : Prop :=
  ∀ (rd : Reg) (imm20 : Nat) (s : State), imm20 ≤ 1048575 →
    decode (0x21000000 ||| regBits rd 20 ||| BitVec.ofNat 32 imm20) = .ok (.bigLdi rd imm20) ∧
    ∃ t, exec (.bigLdi rd imm20) s = .next t ∧ ResultIn rd imm20 s t

/-- R124: BIG.ADD, the exact sum or E_RANGE with rd unchanged. -/
def Obligations.AddIsExactOrRange : Prop :=
  ∀ (rd rs1 rs2 : Reg) (s : State),
    decode (0x22000000 ||| regBits rd 20 ||| regBits rs1 16 ||| regBits rs2 12) = .ok (.bigAdd rd rs1 rs2) ∧
    ∃ t, exec (.bigAdd rd rs1 rs2) s = .next t ∧
      (s.big rs1 + s.big rs2 < 2 ^ s.bigw → ResultIn rd (s.big rs1 + s.big rs2) s t) ∧
      (2 ^ s.bigw ≤ s.big rs1 + s.big rs2 → ErrorOnly .range s t)

/-- R126: BIG.SUB, the exact difference or E_RANGE. -/
def Obligations.SubIsExactOrRange : Prop :=
  ∀ (rd rs1 rs2 : Reg) (s : State),
    decode (0x23000000 ||| regBits rd 20 ||| regBits rs1 16 ||| regBits rs2 12) = .ok (.bigSub rd rs1 rs2) ∧
    ∃ t, exec (.bigSub rd rs1 rs2) s = .next t ∧
      (s.big rs2 ≤ s.big rs1 → ∃ d, d + s.big rs2 = s.big rs1 ∧ ResultIn rd d s t) ∧
      (s.big rs1 < s.big rs2 → ErrorOnly .range s t)

/-- R128: BIG.MUL, the exact product or E_RANGE. -/
def Obligations.MulIsExactOrRange : Prop :=
  ∀ (rd rs1 rs2 : Reg) (s : State),
    decode (0x24000000 ||| regBits rd 20 ||| regBits rs1 16 ||| regBits rs2 12) = .ok (.bigMul rd rs1 rs2) ∧
    ∃ t, exec (.bigMul rd rs1 rs2) s = .next t ∧
      (s.big rs1 * s.big rs2 < 2 ^ s.bigw → ResultIn rd (s.big rs1 * s.big rs2) s t) ∧
      (2 ^ s.bigw ≤ s.big rs1 * s.big rs2 → ErrorOnly .range s t)

/-- R130: BIG.MOD, the remainder in [0, divisor), or E_ARG on a zero divisor. -/
def Obligations.ModIsRemainderOrArg : Prop :=
  ∀ (rd rs1 rs2 : Reg) (s : State),
    decode (0x25000000 ||| regBits rd 20 ||| regBits rs1 16 ||| regBits rs2 12) = .ok (.bigMod rd rs1 rs2) ∧
    ∃ t, exec (.bigMod rd rs1 rs2) s = .next t ∧
      (s.big rs2 ≠ 0 → ∃ q r, s.big rs1 = q * s.big rs2 + r ∧ r < s.big rs2 ∧ ResultIn rd r s t) ∧
      (s.big rs2 = 0 → ErrorOnly .arg s t)

/-- R132: BIG.SHR, the quotient by 2^imm16; an amount at or above BIGW gives 0. -/
def Obligations.ShrDividesByPowerOfTwo : Prop :=
  ∀ (rd rs1 : Reg) (imm16 : Nat) (s : State), imm16 ≤ 65535 →
    decode (0x26000000 ||| regBits rd 20 ||| regBits rs1 16 ||| BitVec.ofNat 32 imm16) = .ok (.bigShr rd rs1 imm16) ∧
    ∃ t, exec (.bigShr rd rs1 imm16) s = .next t ∧
      (imm16 < s.bigw → ResultIn rd (s.big rs1 / 2 ^ imm16) s t) ∧ (s.bigw ≤ imm16 → ResultIn rd 0 s t)

/-- R134: BIG.CMP sets exactly the flag of the unsigned order, and writes no register. -/
def Obligations.CmpSetsExactlyOneFlag : Prop :=
  ∀ (rs1 rs2 : Reg) (s : State),
    decode (0x27000000 ||| regBits rs1 16 ||| regBits rs2 12) = .ok (.bigCmp rs1 rs2) ∧
    ∃ t, exec (.bigCmp rs1 rs2) s = .next t ∧ SameRegs s t ∧ t.sha = s.sha ∧ t.dout = s.dout ∧ CompletedWith .ok s t ∧
      (t.eqFlag = true ↔ s.big rs1 = s.big rs2) ∧ (t.ltFlag = true ↔ s.big rs1 < s.big rs2) ∧
      (t.gtFlag = true ↔ s.big rs2 < s.big rs1) ∧ t.flagCount = 1

/-! ### Modular multiplier (spec/42_modmul.md) -/

/-- R140, R141: BIG.MODMUL, the exact residue for every operand and every modulus >= 1, or E_ARG on a zero modulus. -/
def Obligations.ModmulIsExactResidue : Prop :=
  ∀ (rd rs1 rs2 rs3 : Reg) (s : State),
    decode (0x30000000 ||| regBits rd 20 ||| regBits rs1 16 ||| regBits rs2 12 ||| regBits rs3 8)
      = .ok (.bigModmul rd rs1 rs2 rs3) ∧
    ∃ t, exec (.bigModmul rd rs1 rs2 rs3) s = .next t ∧
      (s.big rs3 ≠ 0 → ∃ r, r < s.big rs3 ∧ r ≡ s.big rs1 * s.big rs2 [MOD s.big rs3] ∧ ResultIn rd r s t) ∧
      (s.big rs3 = 0 → ErrorOnly .arg s t)

/-- R144, R145: BIG.MODEXP, the exact residue of the power (0^0 is 1), or E_ARG on a zero modulus. R146: encryption and
verification are the commands that compute x^e mod N, decryption and signing those that compute x^d mod N. -/
def Obligations.ModexpIsExactPower : Prop :=
  (∀ (rd rs1 rs2 rs3 : Reg) (s : State),
    decode (0x31000000 ||| regBits rd 20 ||| regBits rs1 16 ||| regBits rs2 12 ||| regBits rs3 8)
      = .ok (.bigModexp rd rs1 rs2 rs3) ∧
    ∃ t, exec (.bigModexp rd rs1 rs2 rs3) s = .next t ∧
      (s.big rs3 ≠ 0 → ResultIn rd (s.big rs1 ^ s.big rs2 % s.big rs3) s t) ∧
      (s.big rs3 ≠ 0 → s.big rs2 = 0 → ResultIn rd (1 % s.big rs3) s t) ∧
      (s.big rs3 = 0 → ErrorOnly .arg s t)) ∧
  (∀ (rd x e d n : Reg) (s : State), s.big n ≠ 0 →
    ∃ t u, exec (encryptCommand rd x e n) s = .next t ∧ exec (verifyCommand rd x e n) s = .next t ∧
      ResultIn rd (s.big x ^ s.big e % s.big n) s t ∧
      exec (decryptCommand rd x d n) s = .next u ∧ exec (signCommand rd x d n) s = .next u ∧
      ResultIn rd (s.big x ^ s.big d % s.big n) s u)

/-! ### GCD unit (spec/43_gcd.md) -/

/-- R150, R151: BIG.GCD, the greatest common divisor, with gcd(a, 0) = a and gcd(0, b) = b; no operand is an error. -/
def Obligations.GcdIsGreatestCommonDivisor : Prop :=
  ∀ (rd rs1 rs2 : Reg) (s : State),
    decode (0x40000000 ||| regBits rd 20 ||| regBits rs1 16 ||| regBits rs2 12) = .ok (.bigGcd rd rs1 rs2) ∧
    ∃ t g, exec (.bigGcd rd rs1 rs2) s = .next t ∧ ResultIn rd g s t ∧
      g ∣ s.big rs1 ∧ g ∣ s.big rs2 ∧ (∀ d, d ∣ s.big rs1 → d ∣ s.big rs2 → d ∣ g) ∧
      (s.big rs2 = 0 → g = s.big rs1) ∧ (s.big rs1 = 0 → g = s.big rs2) ∧ g ≤ max (s.big rs1) (s.big rs2)

/-- R154, R161: for 1 < a < m with gcd(a, m) = 1, BIG.MODINV gives the unique d in (0, m) with (a * d) mod m = 1. -/
def Obligations.ModinvIsTheInverse : Prop :=
  ∀ (rd rs1 rs2 : Reg) (s : State), 1 < s.big rs1 → s.big rs1 < s.big rs2 → Nat.gcd (s.big rs1) (s.big rs2) = 1 →
    ∃ t d, exec (.bigModinv rd rs1 rs2) s = .next t ∧ ResultIn rd d s t ∧ 0 < d ∧ d < s.big rs2 ∧
      s.big rs1 * d % s.big rs2 = 1 ∧ ∀ d', d' < s.big rs2 → s.big rs1 * d' % s.big rs2 = 1 → d' = d

/-- R156, R157, R158: the argument errors of BIG.MODINV, then zero recorded steps, then a greatest common divisor above 1. -/
def Obligations.ModinvErrors : Prop :=
  ∀ (rd rs1 rs2 : Reg) (s : State),
    decode (0x41000000 ||| regBits rd 20 ||| regBits rs1 16 ||| regBits rs2 12) = .ok (.bigModinv rd rs1 rs2) ∧
    ∃ t, exec (.bigModinv rd rs1 rs2) s = .next t ∧
      (s.big rs1 = 0 ∨ s.big rs2 = 0 ∨ s.big rs2 ≤ s.big rs1 → ErrorOnly .arg s t) ∧
      (0 < s.big rs1 → s.big rs1 < s.big rs2 → s.big rs2 % s.big rs1 = 0 → ErrorOnly .logic s t) ∧
      (0 < s.big rs1 → s.big rs1 < s.big rs2 → s.big rs2 % s.big rs1 ≠ 0 → Nat.gcd (s.big rs1) (s.big rs2) ≠ 1 →
        ErrorOnly .logic s t)

/-! ### SHA unit (spec/40_sha512.md) -/

/-- R97: the message schedule: 80 words, the first 16 the block's big-endian words, the rest by the recurrence. -/
def Obligations.ScheduleRecurrence : Prop :=
  ∀ blk : List Byte, blk.length = 128 →
    (schedule blk).length = 80 ∧
    (∀ t, t < 16 → (schedule blk).getD t 0 = BitVec.ofNat 64 (fromBE ((blk.drop (8 * t)).take 8))) ∧
    (∀ t, 16 ≤ t → t < 80 → (schedule blk).getD t 0 =
      sigma1Lower ((schedule blk).getD (t - 2) 0) + (schedule blk).getD (t - 7) 0
        + sigma0Lower ((schedule blk).getD (t - 15) 0) + (schedule blk).getD (t - 16) 0)

/-- R98, R99, R100: the six functions, bit by bit. -/
def Obligations.RoundFunctionsBitwise : Prop :=
  ∀ (x y z : Word) (i : Nat), i < 64 →
    (let rot (n : Nat) : Bool := x.getLsbD ((i + n) % 64)
     let shr (n : Nat) : Bool := x.getLsbD (i + n)
     (sigma0Lower x).getLsbD i = (rot 1 ^^ rot 8 ^^ shr 7) ∧
     (sigma1Lower x).getLsbD i = (rot 19 ^^ rot 61 ^^ shr 6) ∧
     (sigma0Upper x).getLsbD i = (rot 28 ^^ rot 34 ^^ rot 39) ∧
     (sigma1Upper x).getLsbD i = (rot 14 ^^ rot 18 ^^ rot 41)) ∧
    (choice x y z).getLsbD i = (if x.getLsbD i then y.getLsbD i else z.getLsbD i) ∧
    (majority x y z).getLsbD i = decide (2 ≤ (x.getLsbD i).toNat + (y.getLsbD i).toNat + (z.getLsbD i).toNat)

/-- R96, R102, R103: compress is the 80 rounds from the hash words and the feed-forward, for any run of the working variables
that follows the eight assignments of each round. -/
def Obligations.CompressIsEightyRounds : Prop :=
  ∀ (blk : List Byte) (h : HashWords) (v : Nat → WorkingVars), blk.length = 128 →
    v 0 = ⟨h[0], h[1], h[2], h[3], h[4], h[5], h[6], h[7]⟩ →
    (∀ t, t < 80 →
      let t1 := (v t).h + sigma1Upper (v t).e + choice (v t).e (v t).f (v t).g + roundConstants.getD t 0
        + (schedule blk).getD t 0
      let t2 := sigma0Upper (v t).a + majority (v t).a (v t).b (v t).c
      (v (t + 1)).h = (v t).g ∧ (v (t + 1)).g = (v t).f ∧ (v (t + 1)).f = (v t).e ∧ (v (t + 1)).e = (v t).d + t1 ∧
      (v (t + 1)).d = (v t).c ∧ (v (t + 1)).c = (v t).b ∧ (v (t + 1)).b = (v t).a ∧ (v (t + 1)).a = t1 + t2) →
    compress blk h = #v[h[0] + (v 80).a, h[1] + (v 80).b, h[2] + (v 80).c, h[3] + (v 80).d,
      h[4] + (v 80).e, h[5] + (v 80).f, h[6] + (v 80).g, h[7] + (v 80).h]

/-- R91: SHA.INIT puts the SHA context at its construction state and changes nothing else but STATUS. -/
def Obligations.ShaInitStartsOver : Prop :=
  decode 0x10000000 = .ok .shaInit ∧
  ∀ s : State, ∃ t, exec .shaInit s = .next t ∧ t.sha.h = iv ∧ (∀ j : Fin 128, t.sha.blk[j] = 0) ∧ t.sha.bf = 0 ∧
    t.sha.bc = 0 ∧ SameRegs s t ∧ SameFlags s t ∧ t.dout = s.dout ∧ CompletedWith .ok s t

/-- R92, R93, R107: SHA.UPDATE n takes the n top bytes of DIN into the block; a block that fills is compressed and the rest of
the group starts the next one; BC counts 8n bits modulo 2^128; n = 0 or n > 8 is E_ARG with the context unchanged. -/
def Obligations.ShaUpdateAbsorbsDin : Prop :=
  ∀ (n : Nat) (s : State), n ≤ 255 →
    decode (0x11000000 ||| BitVec.ofNat 32 n) = .ok (.shaUpdate n) ∧
    ∃ t, exec (.shaUpdate n) s = .next t ∧
      (n = 0 ∨ 8 < n → ErrorOnly .arg s t) ∧
      (1 ≤ n → n ≤ 8 →
        let byte (k : Nat) : Byte := s.din.extractLsb' (56 - 8 * k) 8
        let f := s.sha.bf.val
        SameRegs s t ∧ SameFlags s t ∧ t.dout = s.dout ∧ CompletedWith .ok s t ∧
        t.sha.bc.toNat = (s.sha.bc.toNat + 8 * n) % 2 ^ 128 ∧
        (f + n < 128 → t.sha.h = s.sha.h ∧ t.sha.bf.val = f + n ∧
          ∀ j : Fin 128, t.sha.blk[j] = if f ≤ j.val ∧ j.val < f + n then byte (j.val - f) else s.sha.blk[j]) ∧
        (128 ≤ f + n → t.sha.bf.val = f + n - 128 ∧
          t.sha.h = compress (s.sha.blk.toList.take f ++ (List.range (128 - f)).map byte) s.sha.h ∧
          ∀ j : Fin 128, t.sha.blk[j] =
            if j.val < f + n - 128 then byte (128 - f + j.val) else if f ≤ j.val then byte (j.val - f) else s.sha.blk[j]))

/-- R94, R95, R105: SHA.DIGEST writes DOUT from a padded copy of the block and leaves H, blk, BF and BC alone; a second
SHA.DIGEST writes the same DOUT. -/
def Obligations.ShaDigestPadsACopy : Prop :=
  decode 0x12000000 = .ok .shaDigest ∧
  ∀ s : State, ∃ t u, exec .shaDigest s = .next t ∧ exec .shaDigest t = .next u ∧
    t.sha = s.sha ∧ SameRegs s t ∧ SameFlags s t ∧ CompletedWith .ok s t ∧ u.dout = t.dout ∧
    (s.sha.bf.val < 112 → t.dout = compress (s.sha.blk.toList.take s.sha.bf.val ++ 0x80 ::
      List.replicate (111 - s.sha.bf.val) 0 ++ beBytes 16 s.sha.bc.toNat) s.sha.h) ∧
    (112 ≤ s.sha.bf.val → t.dout = compress (List.replicate 112 0 ++ beBytes 16 s.sha.bc.toNat)
      (compress (s.sha.blk.toList.take s.sha.bf.val ++ 0x80 :: List.replicate (127 - s.sha.bf.val) 0) s.sha.h))

/-- D20, U21: the stale bytes at and above BF are never read: a digest depends only on H, BF, BC and the bytes below BF. -/
def Obligations.DigestIgnoresStaleBytes : Prop :=
  ∀ c c' : ShaContext, c'.h = c.h → c'.bf = c.bf → c'.bc = c.bc →
    (∀ j : Fin 128, j.val < c.bf.val → c'.blk[j] = c.blk[j]) → c'.digest = c.digest

/-- R57, R86, R92: the host's packing of a byte group into DIN and SHA.UPDATE's reading of it agree, for every group of up to
8 bytes. -/
def Obligations.GroupPackingAgrees : Prop :=
  ∀ g : List Byte, g.length ≤ 8 → dinBytes (packGroup g) g.length = g

/-- R104, R112: after SHA.INIT, absorbing a message by SHA.UPDATE in any groups of 1 to 8 bytes leaves a context that is a
function of the message alone: two ways to split it give the same context, in which H is the chain over the message's
whole blocks, BF and the bytes below it are its last bytes, and BC counts its bits. -/
def Obligations.ContextHoldsTheMessage : Prop :=
  ∀ (s : State) (gs gs' : List (List Byte)), (∀ g ∈ gs, 1 ≤ g.length ∧ g.length ≤ 8) →
    (∀ g ∈ gs', 1 ≤ g.length ∧ g.length ≤ 8) → gs'.flatten = gs.flatten →
    ∃ t u u', exec .shaInit s = .next t ∧ runUpdates gs t = .next u ∧ runUpdates gs' t = .next u' ∧ u'.sha = u.sha ∧
      HoldsMessage gs.flatten u.sha ∧ SameRegs s u ∧ SameFlags s u ∧ u.dout = s.dout ∧ u.err = u'.err

/-- R106, R2: the digest of a message absorbed in any groups after SHA.INIT is SHA-512 of the message, as FIPS 180-4 pads
and chains it, for every message shorter than 2^128 bits. -/
def Obligations.DigestIsSha512OfTheMessage : Prop :=
  ∀ (s : State) (gs : List (List Byte)), (∀ g ∈ gs, 1 ≤ g.length ∧ g.length ≤ 8) → 8 * gs.flatten.length < 2 ^ 128 →
    ∃ t u v, exec .shaInit s = .next t ∧ runUpdates gs t = .next u ∧ exec .shaDigest u = .next v ∧
      v.dout = sha512 gs.flatten ∧ v.sha = u.sha

/-- R112 as a rule about every step: if the SHA context holds the message m, a completed SHA.UPDATE of 1 to 8 bytes leaves it
holding m and those bytes, SHA.INIT and the resets leave it holding the empty message, every other step leaves it holding m,
and SHA.DIGEST then gives SHA-512 of m (R106). -/
def Obligations.MessageGrowsOnlyByUpdate : Prop :=
  ∀ (s t : State) (m : List Byte), HoldsMessage m s.sha → step s = .next t →
    (∀ n, 1 ≤ n → n ≤ 8 → s.completes (.shaUpdate n) →
      HoldsMessage (m ++ (List.range n).map (fun k => s.din.extractLsb' (56 - 8 * k) 8)) t.sha ∧ t.err = .ok) ∧
    (s.completes .shaInit ∨ s.softResetNext ∨ s.powerOnNext → HoldsMessage [] t.sha) ∧
    ((∀ n, 1 ≤ n → n ≤ 8 → ¬ s.completes (.shaUpdate n)) → ¬ s.completes .shaInit → ¬ s.softResetNext → ¬ s.powerOnNext →
      HoldsMessage m t.sha) ∧
    (s.completes .shaDigest → 8 * m.length < 2 ^ 128 → t.dout = sha512 m)

/-! ### Host programs (spec/30_encoding.md R86) -/

/-- R86: what the lines of the host-program notation give. `wait` on a command in flight ends with a STATUS word whose bit 0
is 0, that of the engine's completion, however many polls come before it; `ldbig` after `stbig` gives the integer back; and
`run sha.init`, `absorb m`, `digest -> D` all pass the check of `run` and give the 64 bytes of SHA-512 of m. -/
def Obligations.HostLinesComputeWhatTheyName : Prop :=
  (∀ (s : State) (polls : Nat), s.busy = true →
    ∃ c t v, engineTurn s = .next c ∧ hostWait polls s = .next (v, t) ∧ v.getLsbD 0 = false ∧ v = c.statusWord ∧
      t = { c with readData := some v }) ∧
  (∀ (s : State) (r : Reg) (v : Nat), s.busy = false → s.Inv → v < 2 ^ s.bigw →
    ∃ t u, hostStbig r v s = .next t ∧ hostLdbig r t = .next (v, u) ∧ u = { t with readData := u.readData }) ∧
  (∀ (s : State) (m : List Byte) (p q : Nat) (polls : Nat → Nat), s.busy = false → 8 * m.length < 2 ^ 128 →
    ∃ t u w, hostRun p .shaInit s = .next (true, t) ∧ hostAbsorb polls m t = .next (true, u) ∧
      hostDigest q u = .next (some (digestBytes (sha512 m).toList), w) ∧ SameRegs s w ∧ w.sha = u.sha)
end

