-- ==== Sys2Proof/Laws/State.lean ====
section
/-! SUPPORT. One lemma per field per update of the state, true by definition, so that no later proof unfolds an update; and
the one register an update of the register file changes. -/

namespace Sys2Proof.Machine

@[simp] theorem State.finish_limbs (s : State) (e : ErrCode) : (s.finish e).limbs = s.limbs := rfl
@[simp] theorem State.finish_regs (s : State) (e : ErrCode) : (s.finish e).regs = s.regs := rfl
@[simp] theorem State.finish_ie (s : State) (e : ErrCode) : (s.finish e).ie = s.ie := rfl
@[simp] theorem State.finish_busy (s : State) (e : ErrCode) : (s.finish e).busy = false := rfl
@[simp] theorem State.finish_doneFlag (s : State) (e : ErrCode) : (s.finish e).doneFlag = true := rfl
@[simp] theorem State.finish_ovr (s : State) (e : ErrCode) : (s.finish e).ovr = s.ovr := rfl
@[simp] theorem State.finish_err (s : State) (e : ErrCode) : (s.finish e).err = e := rfl
@[simp] theorem State.finish_eqFlag (s : State) (e : ErrCode) : (s.finish e).eqFlag = s.eqFlag := rfl
@[simp] theorem State.finish_ltFlag (s : State) (e : ErrCode) : (s.finish e).ltFlag = s.ltFlag := rfl
@[simp] theorem State.finish_gtFlag (s : State) (e : ErrCode) : (s.finish e).gtFlag = s.gtFlag := rfl
@[simp] theorem State.finish_cmd (s : State) (e : ErrCode) : (s.finish e).cmd = s.cmd := rfl
@[simp] theorem State.finish_din (s : State) (e : ErrCode) : (s.finish e).din = s.din := rfl
@[simp] theorem State.finish_dout (s : State) (e : ErrCode) : (s.finish e).dout = s.dout := rfl
@[simp] theorem State.finish_sha (s : State) (e : ErrCode) : (s.finish e).sha = s.sha := rfl
@[simp] theorem State.finish_work (s : State) (e : ErrCode) : (s.finish e).work = [] := rfl
@[simp] theorem State.finish_agenda (s : State) (e : ErrCode) : (s.finish e).agenda = s.agenda := rfl
@[simp] theorem State.finish_readData (s : State) (e : ErrCode) : (s.finish e).readData = s.readData := rfl
@[simp] theorem State.finish_draws (s : State) (e : ErrCode) : (s.finish e).draws = s.draws := rfl

@[simp] theorem State.writeBig_limbs (s : State) (r : Reg) (v : Nat) : (s.writeBig r v).limbs = s.limbs := rfl
@[simp] theorem State.writeBig_regs (s : State) (r : Reg) (v : Nat) : (s.writeBig r v).regs = s.regs.set r ⟨v, List.replicate s.limbs true⟩ := rfl
@[simp] theorem State.writeBig_ie (s : State) (r : Reg) (v : Nat) : (s.writeBig r v).ie = s.ie := rfl
@[simp] theorem State.writeBig_busy (s : State) (r : Reg) (v : Nat) : (s.writeBig r v).busy = s.busy := rfl
@[simp] theorem State.writeBig_doneFlag (s : State) (r : Reg) (v : Nat) : (s.writeBig r v).doneFlag = s.doneFlag := rfl
@[simp] theorem State.writeBig_ovr (s : State) (r : Reg) (v : Nat) : (s.writeBig r v).ovr = s.ovr := rfl
@[simp] theorem State.writeBig_err (s : State) (r : Reg) (v : Nat) : (s.writeBig r v).err = s.err := rfl
@[simp] theorem State.writeBig_eqFlag (s : State) (r : Reg) (v : Nat) : (s.writeBig r v).eqFlag = s.eqFlag := rfl
@[simp] theorem State.writeBig_ltFlag (s : State) (r : Reg) (v : Nat) : (s.writeBig r v).ltFlag = s.ltFlag := rfl
@[simp] theorem State.writeBig_gtFlag (s : State) (r : Reg) (v : Nat) : (s.writeBig r v).gtFlag = s.gtFlag := rfl
@[simp] theorem State.writeBig_cmd (s : State) (r : Reg) (v : Nat) : (s.writeBig r v).cmd = s.cmd := rfl
@[simp] theorem State.writeBig_din (s : State) (r : Reg) (v : Nat) : (s.writeBig r v).din = s.din := rfl
@[simp] theorem State.writeBig_dout (s : State) (r : Reg) (v : Nat) : (s.writeBig r v).dout = s.dout := rfl
@[simp] theorem State.writeBig_sha (s : State) (r : Reg) (v : Nat) : (s.writeBig r v).sha = s.sha := rfl
@[simp] theorem State.writeBig_work (s : State) (r : Reg) (v : Nat) : (s.writeBig r v).work = s.work := rfl
@[simp] theorem State.writeBig_agenda (s : State) (r : Reg) (v : Nat) : (s.writeBig r v).agenda = s.agenda := rfl
@[simp] theorem State.writeBig_readData (s : State) (r : Reg) (v : Nat) : (s.writeBig r v).readData = s.readData := rfl
@[simp] theorem State.writeBig_draws (s : State) (r : Reg) (v : Nat) : (s.writeBig r v).draws = s.draws := rfl

@[simp] theorem State.writeLimb_limbs (s : State) (r : Reg) (j : Nat) (v : Word) : (s.writeLimb r j v).limbs = s.limbs := rfl
@[simp] theorem State.writeLimb_regs (s : State) (r : Reg) (j : Nat) (v : Word) : (s.writeLimb r j v).regs = s.regs.set r ⟨setLimb (s.big r) j v, (s.reg r).written.set j true⟩ := rfl
@[simp] theorem State.writeLimb_ie (s : State) (r : Reg) (j : Nat) (v : Word) : (s.writeLimb r j v).ie = s.ie := rfl
@[simp] theorem State.writeLimb_busy (s : State) (r : Reg) (j : Nat) (v : Word) : (s.writeLimb r j v).busy = s.busy := rfl
@[simp] theorem State.writeLimb_doneFlag (s : State) (r : Reg) (j : Nat) (v : Word) : (s.writeLimb r j v).doneFlag = s.doneFlag := rfl
@[simp] theorem State.writeLimb_ovr (s : State) (r : Reg) (j : Nat) (v : Word) : (s.writeLimb r j v).ovr = s.ovr := rfl
@[simp] theorem State.writeLimb_err (s : State) (r : Reg) (j : Nat) (v : Word) : (s.writeLimb r j v).err = s.err := rfl
@[simp] theorem State.writeLimb_eqFlag (s : State) (r : Reg) (j : Nat) (v : Word) : (s.writeLimb r j v).eqFlag = s.eqFlag := rfl
@[simp] theorem State.writeLimb_ltFlag (s : State) (r : Reg) (j : Nat) (v : Word) : (s.writeLimb r j v).ltFlag = s.ltFlag := rfl
@[simp] theorem State.writeLimb_gtFlag (s : State) (r : Reg) (j : Nat) (v : Word) : (s.writeLimb r j v).gtFlag = s.gtFlag := rfl
@[simp] theorem State.writeLimb_cmd (s : State) (r : Reg) (j : Nat) (v : Word) : (s.writeLimb r j v).cmd = s.cmd := rfl
@[simp] theorem State.writeLimb_din (s : State) (r : Reg) (j : Nat) (v : Word) : (s.writeLimb r j v).din = s.din := rfl
@[simp] theorem State.writeLimb_dout (s : State) (r : Reg) (j : Nat) (v : Word) : (s.writeLimb r j v).dout = s.dout := rfl
@[simp] theorem State.writeLimb_sha (s : State) (r : Reg) (j : Nat) (v : Word) : (s.writeLimb r j v).sha = s.sha := rfl
@[simp] theorem State.writeLimb_work (s : State) (r : Reg) (j : Nat) (v : Word) : (s.writeLimb r j v).work = s.work := rfl
@[simp] theorem State.writeLimb_agenda (s : State) (r : Reg) (j : Nat) (v : Word) : (s.writeLimb r j v).agenda = s.agenda := rfl
@[simp] theorem State.writeLimb_readData (s : State) (r : Reg) (j : Nat) (v : Word) : (s.writeLimb r j v).readData = s.readData := rfl
@[simp] theorem State.writeLimb_draws (s : State) (r : Reg) (j : Nat) (v : Word) : (s.writeLimb r j v).draws = s.draws := rfl

@[simp] theorem State.writeCompareFlags_limbs (s : State) (a b : Nat) : (s.writeCompareFlags a b).limbs = s.limbs := rfl
@[simp] theorem State.writeCompareFlags_regs (s : State) (a b : Nat) : (s.writeCompareFlags a b).regs = s.regs := rfl
@[simp] theorem State.writeCompareFlags_ie (s : State) (a b : Nat) : (s.writeCompareFlags a b).ie = s.ie := rfl
@[simp] theorem State.writeCompareFlags_busy (s : State) (a b : Nat) : (s.writeCompareFlags a b).busy = s.busy := rfl
@[simp] theorem State.writeCompareFlags_doneFlag (s : State) (a b : Nat) : (s.writeCompareFlags a b).doneFlag = s.doneFlag := rfl
@[simp] theorem State.writeCompareFlags_ovr (s : State) (a b : Nat) : (s.writeCompareFlags a b).ovr = s.ovr := rfl
@[simp] theorem State.writeCompareFlags_err (s : State) (a b : Nat) : (s.writeCompareFlags a b).err = s.err := rfl
@[simp] theorem State.writeCompareFlags_eqFlag (s : State) (a b : Nat) : (s.writeCompareFlags a b).eqFlag = decide (a = b) := rfl
@[simp] theorem State.writeCompareFlags_ltFlag (s : State) (a b : Nat) : (s.writeCompareFlags a b).ltFlag = decide (a < b) := rfl
@[simp] theorem State.writeCompareFlags_gtFlag (s : State) (a b : Nat) : (s.writeCompareFlags a b).gtFlag = decide (b < a) := rfl
@[simp] theorem State.writeCompareFlags_cmd (s : State) (a b : Nat) : (s.writeCompareFlags a b).cmd = s.cmd := rfl
@[simp] theorem State.writeCompareFlags_din (s : State) (a b : Nat) : (s.writeCompareFlags a b).din = s.din := rfl
@[simp] theorem State.writeCompareFlags_dout (s : State) (a b : Nat) : (s.writeCompareFlags a b).dout = s.dout := rfl
@[simp] theorem State.writeCompareFlags_sha (s : State) (a b : Nat) : (s.writeCompareFlags a b).sha = s.sha := rfl
@[simp] theorem State.writeCompareFlags_work (s : State) (a b : Nat) : (s.writeCompareFlags a b).work = s.work := rfl
@[simp] theorem State.writeCompareFlags_agenda (s : State) (a b : Nat) : (s.writeCompareFlags a b).agenda = s.agenda := rfl
@[simp] theorem State.writeCompareFlags_readData (s : State) (a b : Nat) : (s.writeCompareFlags a b).readData = s.readData := rfl
@[simp] theorem State.writeCompareFlags_draws (s : State) (a b : Nat) : (s.writeCompareFlags a b).draws = s.draws := rfl

@[simp] theorem State.recordWork_limbs (s : State) (l : List EuclidStep) : (s.recordWork l).limbs = s.limbs := rfl
@[simp] theorem State.recordWork_regs (s : State) (l : List EuclidStep) : (s.recordWork l).regs = s.regs := rfl
@[simp] theorem State.recordWork_ie (s : State) (l : List EuclidStep) : (s.recordWork l).ie = s.ie := rfl
@[simp] theorem State.recordWork_busy (s : State) (l : List EuclidStep) : (s.recordWork l).busy = s.busy := rfl
@[simp] theorem State.recordWork_doneFlag (s : State) (l : List EuclidStep) : (s.recordWork l).doneFlag = s.doneFlag := rfl
@[simp] theorem State.recordWork_ovr (s : State) (l : List EuclidStep) : (s.recordWork l).ovr = s.ovr := rfl
@[simp] theorem State.recordWork_err (s : State) (l : List EuclidStep) : (s.recordWork l).err = s.err := rfl
@[simp] theorem State.recordWork_eqFlag (s : State) (l : List EuclidStep) : (s.recordWork l).eqFlag = s.eqFlag := rfl
@[simp] theorem State.recordWork_ltFlag (s : State) (l : List EuclidStep) : (s.recordWork l).ltFlag = s.ltFlag := rfl
@[simp] theorem State.recordWork_gtFlag (s : State) (l : List EuclidStep) : (s.recordWork l).gtFlag = s.gtFlag := rfl
@[simp] theorem State.recordWork_cmd (s : State) (l : List EuclidStep) : (s.recordWork l).cmd = s.cmd := rfl
@[simp] theorem State.recordWork_din (s : State) (l : List EuclidStep) : (s.recordWork l).din = s.din := rfl
@[simp] theorem State.recordWork_dout (s : State) (l : List EuclidStep) : (s.recordWork l).dout = s.dout := rfl
@[simp] theorem State.recordWork_sha (s : State) (l : List EuclidStep) : (s.recordWork l).sha = s.sha := rfl
@[simp] theorem State.recordWork_work (s : State) (l : List EuclidStep) : (s.recordWork l).work = l := rfl
@[simp] theorem State.recordWork_agenda (s : State) (l : List EuclidStep) : (s.recordWork l).agenda = s.agenda := rfl
@[simp] theorem State.recordWork_readData (s : State) (l : List EuclidStep) : (s.recordWork l).readData = s.readData := rfl
@[simp] theorem State.recordWork_draws (s : State) (l : List EuclidStep) : (s.recordWork l).draws = s.draws := rfl

@[simp] theorem State.accept_limbs (s : State) (w : CmdWord) : (s.accept w).limbs = s.limbs := rfl
@[simp] theorem State.accept_regs (s : State) (w : CmdWord) : (s.accept w).regs = s.regs := rfl
@[simp] theorem State.accept_ie (s : State) (w : CmdWord) : (s.accept w).ie = s.ie := rfl
@[simp] theorem State.accept_busy (s : State) (w : CmdWord) : (s.accept w).busy = true := rfl
@[simp] theorem State.accept_doneFlag (s : State) (w : CmdWord) : (s.accept w).doneFlag = false := rfl
@[simp] theorem State.accept_ovr (s : State) (w : CmdWord) : (s.accept w).ovr = s.ovr := rfl
@[simp] theorem State.accept_err (s : State) (w : CmdWord) : (s.accept w).err = .ok := rfl
@[simp] theorem State.accept_eqFlag (s : State) (w : CmdWord) : (s.accept w).eqFlag = s.eqFlag := rfl
@[simp] theorem State.accept_ltFlag (s : State) (w : CmdWord) : (s.accept w).ltFlag = s.ltFlag := rfl
@[simp] theorem State.accept_gtFlag (s : State) (w : CmdWord) : (s.accept w).gtFlag = s.gtFlag := rfl
@[simp] theorem State.accept_cmd (s : State) (w : CmdWord) : (s.accept w).cmd = w := rfl
@[simp] theorem State.accept_din (s : State) (w : CmdWord) : (s.accept w).din = s.din := rfl
@[simp] theorem State.accept_dout (s : State) (w : CmdWord) : (s.accept w).dout = s.dout := rfl
@[simp] theorem State.accept_sha (s : State) (w : CmdWord) : (s.accept w).sha = s.sha := rfl
@[simp] theorem State.accept_work (s : State) (w : CmdWord) : (s.accept w).work = s.work := rfl
@[simp] theorem State.accept_agenda (s : State) (w : CmdWord) : (s.accept w).agenda = s.agenda := rfl
@[simp] theorem State.accept_readData (s : State) (w : CmdWord) : (s.accept w).readData = s.readData := rfl
@[simp] theorem State.accept_draws (s : State) (w : CmdWord) : (s.accept w).draws = s.draws := rfl

@[simp] theorem State.writeStatus_limbs (s : State) (v : Word) : (s.writeStatus v).limbs = s.limbs := rfl
@[simp] theorem State.writeStatus_regs (s : State) (v : Word) : (s.writeStatus v).regs = s.regs := rfl
@[simp] theorem State.writeStatus_ie (s : State) (v : Word) : (s.writeStatus v).ie = s.ie := rfl
@[simp] theorem State.writeStatus_busy (s : State) (v : Word) : (s.writeStatus v).busy = s.busy := rfl
@[simp] theorem State.writeStatus_doneFlag (s : State) (v : Word) : (s.writeStatus v).doneFlag = (s.doneFlag && !v.getLsbD 1) := rfl
@[simp] theorem State.writeStatus_ovr (s : State) (v : Word) : (s.writeStatus v).ovr = (s.ovr && !v.getLsbD 2) := rfl
@[simp] theorem State.writeStatus_err (s : State) (v : Word) : (s.writeStatus v).err = s.err := rfl
@[simp] theorem State.writeStatus_eqFlag (s : State) (v : Word) : (s.writeStatus v).eqFlag = s.eqFlag := rfl
@[simp] theorem State.writeStatus_ltFlag (s : State) (v : Word) : (s.writeStatus v).ltFlag = s.ltFlag := rfl
@[simp] theorem State.writeStatus_gtFlag (s : State) (v : Word) : (s.writeStatus v).gtFlag = s.gtFlag := rfl
@[simp] theorem State.writeStatus_cmd (s : State) (v : Word) : (s.writeStatus v).cmd = s.cmd := rfl
@[simp] theorem State.writeStatus_din (s : State) (v : Word) : (s.writeStatus v).din = s.din := rfl
@[simp] theorem State.writeStatus_dout (s : State) (v : Word) : (s.writeStatus v).dout = s.dout := rfl
@[simp] theorem State.writeStatus_sha (s : State) (v : Word) : (s.writeStatus v).sha = s.sha := rfl
@[simp] theorem State.writeStatus_work (s : State) (v : Word) : (s.writeStatus v).work = s.work := rfl
@[simp] theorem State.writeStatus_agenda (s : State) (v : Word) : (s.writeStatus v).agenda = s.agenda := rfl
@[simp] theorem State.writeStatus_readData (s : State) (v : Word) : (s.writeStatus v).readData = s.readData := rfl
@[simp] theorem State.writeStatus_draws (s : State) (v : Word) : (s.writeStatus v).draws = s.draws := rfl

@[simp] theorem State.powerOnReset_limbs (s : State) : (s.powerOnReset).limbs = s.limbs := rfl
@[simp] theorem State.powerOnReset_regs (s : State) : (s.powerOnReset).regs = Vector.replicate 8 (BigReg.powerOn s.limbs) := rfl
@[simp] theorem State.powerOnReset_ie (s : State) : (s.powerOnReset).ie = false := rfl
@[simp] theorem State.powerOnReset_busy (s : State) : (s.powerOnReset).busy = false := rfl
@[simp] theorem State.powerOnReset_doneFlag (s : State) : (s.powerOnReset).doneFlag = false := rfl
@[simp] theorem State.powerOnReset_ovr (s : State) : (s.powerOnReset).ovr = false := rfl
@[simp] theorem State.powerOnReset_err (s : State) : (s.powerOnReset).err = .ok := rfl
@[simp] theorem State.powerOnReset_eqFlag (s : State) : (s.powerOnReset).eqFlag = false := rfl
@[simp] theorem State.powerOnReset_ltFlag (s : State) : (s.powerOnReset).ltFlag = false := rfl
@[simp] theorem State.powerOnReset_gtFlag (s : State) : (s.powerOnReset).gtFlag = false := rfl
@[simp] theorem State.powerOnReset_cmd (s : State) : (s.powerOnReset).cmd = 0 := rfl
@[simp] theorem State.powerOnReset_din (s : State) : (s.powerOnReset).din = 0 := rfl
@[simp] theorem State.powerOnReset_dout (s : State) : (s.powerOnReset).dout = Vector.replicate 8 0 := rfl
@[simp] theorem State.powerOnReset_sha (s : State) : (s.powerOnReset).sha = ShaContext.initial := rfl
@[simp] theorem State.powerOnReset_work (s : State) : (s.powerOnReset).work = [] := rfl
@[simp] theorem State.powerOnReset_agenda (s : State) : (s.powerOnReset).agenda = s.agenda := rfl
@[simp] theorem State.powerOnReset_readData (s : State) : (s.powerOnReset).readData = none := rfl
@[simp] theorem State.powerOnReset_draws (s : State) : (s.powerOnReset).draws = s.draws := rfl

@[simp] theorem State.softReset_regs (s : State) : (s.softReset).regs = s.drawAbandoned.regs := rfl
@[simp] theorem State.softReset_ie (s : State) : (s.softReset).ie = false := rfl
@[simp] theorem State.softReset_busy (s : State) : (s.softReset).busy = false := rfl
@[simp] theorem State.softReset_doneFlag (s : State) : (s.softReset).doneFlag = false := rfl
@[simp] theorem State.softReset_ovr (s : State) : (s.softReset).ovr = false := rfl
@[simp] theorem State.softReset_err (s : State) : (s.softReset).err = .ok := rfl
@[simp] theorem State.softReset_eqFlag (s : State) : (s.softReset).eqFlag = false := rfl
@[simp] theorem State.softReset_ltFlag (s : State) : (s.softReset).ltFlag = false := rfl
@[simp] theorem State.softReset_gtFlag (s : State) : (s.softReset).gtFlag = false := rfl
@[simp] theorem State.softReset_cmd (s : State) : (s.softReset).cmd = 0 := rfl
@[simp] theorem State.softReset_din (s : State) : (s.softReset).din = 0 := rfl
@[simp] theorem State.softReset_dout (s : State) : (s.softReset).dout = Vector.replicate 8 0 := rfl
@[simp] theorem State.softReset_sha (s : State) : (s.softReset).sha = ShaContext.initial := rfl
@[simp] theorem State.softReset_work (s : State) : (s.softReset).work = [] := rfl
@[simp] theorem State.softReset_draws (s : State) : (s.softReset).draws = s.drawAbandoned.draws := rfl

/-! ### The register file -/

@[simp] theorem State.reg_writeBig_self (s : State) (r : Reg) (v : Nat) :
    (s.writeBig r v).reg r = ⟨v, List.replicate s.limbs true⟩ := by
  simp [State.reg]

theorem State.reg_writeBig_other (s : State) {r r' : Reg} (v : Nat) (h : r' ≠ r) :
    (s.writeBig r v).reg r' = s.reg r' := by
  simp [State.reg, Fin.val_inj, h.symm]

@[simp] theorem State.big_writeBig_self (s : State) (r : Reg) (v : Nat) : (s.writeBig r v).big r = v := by
  simp [State.big]

@[simp] theorem State.reg_writeLimb_self (s : State) (r : Reg) (j : Nat) (v : Word) :
    (s.writeLimb r j v).reg r = ⟨setLimb (s.big r) j v, (s.reg r).written.set j true⟩ := by
  simp [State.reg]

theorem State.reg_writeLimb_other (s : State) {r r' : Reg} (j : Nat) (v : Word) (h : r' ≠ r) :
    (s.writeLimb r j v).reg r' = s.reg r' := by
  simp [State.reg, Fin.val_inj, h.symm]

/-! Reading a register sees only the register file. -/

theorem State.reg_congr {s t : State} (h : t.regs = s.regs) (r : Reg) : t.reg r = s.reg r := by
  simp [State.reg, h]

@[simp] theorem State.reg_finish (s : State) (e : ErrCode) (r : Reg) : (s.finish e).reg r = s.reg r := rfl
@[simp] theorem State.big_finish (s : State) (e : ErrCode) (r : Reg) : (s.finish e).big r = s.big r := rfl
@[simp] theorem State.reg_recordWork (s : State) (l : List EuclidStep) (r : Reg) : (s.recordWork l).reg r = s.reg r := rfl
@[simp] theorem State.reg_accept (s : State) (w : CmdWord) (r : Reg) : (s.accept w).reg r = s.reg r := rfl
@[simp] theorem State.reg_writeCompareFlags (s : State) (a b : Nat) (r : Reg) :
    (s.writeCompareFlags a b).reg r = s.reg r := rfl

/-! ### Soft reset: what the abandoned command's draw leaves (spec/70_reset_and_hazards.md R216(d)) -/

@[simp] theorem State.drawAbandoned_limbs (s : State) : s.drawAbandoned.limbs = s.limbs := by
  unfold State.drawAbandoned; split <;> rfl
@[simp] theorem State.drawAbandoned_agenda (s : State) : s.drawAbandoned.agenda = s.agenda := by
  unfold State.drawAbandoned; split <;> rfl
@[simp] theorem State.drawAbandoned_readData (s : State) : s.drawAbandoned.readData = s.readData := by
  unfold State.drawAbandoned; split <;> rfl
@[simp] theorem State.softReset_limbs (s : State) : s.softReset.limbs = s.limbs := s.drawAbandoned_limbs
@[simp] theorem State.softReset_agenda (s : State) : s.softReset.agenda = s.agenda := s.drawAbandoned_agenda
@[simp] theorem State.softReset_readData (s : State) : s.softReset.readData = s.readData := s.drawAbandoned_readData

theorem State.drawAbandoned_none {s : State} (h : s.abandonedReg = none) : s.drawAbandoned = s := by
  simp [State.drawAbandoned, h]

theorem State.drawAbandoned_some {s : State} {rd : Reg} (h : s.abandonedReg = some rd) :
    s.drawAbandoned = { s.writeBig rd (Config.freeBig s.draws % 2 ^ s.bigw) with draws := s.draws + 1 } := by
  simp [State.drawAbandoned, h]

end Sys2Proof.Machine
end

