-- ==== Sys2Proof/Laws/Ops.lean ====
section
/-! SUPPORT. One lemma for each shared operation, saying all it can do: completion, limbs of a register, the window's map, a
host access. -/

namespace Sys2Proof.Machine

/-! ### Completion -/

theorem complete_eq (s : State) : complete s = .next (s.finish .ok) := rfl
theorem raiseErr_eq (e : ErrCode) (s : State) : raiseErr e s = .next (s.finish e) := rfl

/-! ### Limbs (spec/10_state.md R22) -/

theorem two_pow_limb_succ (j : Nat) : 2 ^ (64 * (j + 1)) = 2 ^ (64 * j) * 2 ^ 64 := by
  rw [← pow_add]; congr 1

/-- The limb just written reads back (R50, R51). -/
theorem limbOf_setLimb_self (value j : Nat) (v : Word) : limbOf (setLimb value j v) j = v := by
  have hpos : 0 < 2 ^ (64 * j) := by positivity
  have hlow : value % 2 ^ (64 * j) < 2 ^ (64 * j) := Nat.mod_lt _ hpos
  have hsplit : setLimb value j v
      = value % 2 ^ (64 * j) + 2 ^ (64 * j) * (v.toNat + 2 ^ 64 * (value / 2 ^ (64 * (j + 1)))) := by
    simp only [setLimb, two_pow_limb_succ]; ring
  have hdiv : setLimb value j v / 2 ^ (64 * j) = v.toNat + 2 ^ 64 * (value / 2 ^ (64 * (j + 1))) := by
    rw [hsplit, Nat.add_mul_div_left _ _ hpos, Nat.div_eq_of_lt hlow, Nat.zero_add]
  apply BitVec.eq_of_toNat_eq
  rw [limbOf, BitVec.toNat_ofNat, hdiv, Nat.add_mul_mod_self_left, Nat.mod_eq_of_lt v.isLt]

/-- Bit by bit: a limb write replaces bits [64j+63 : 64j] and no other (R51). -/
theorem testBit_setLimb (value j : Nat) (v : Word) (k : Nat) :
    (setLimb value j v).testBit k
      = if k < 64 * j then value.testBit k
        else if k < 64 * (j + 1) then v.getLsbD (k - 64 * j) else value.testBit k := by
  have h1 : setLimb value j v
      = 2 ^ (64 * j) * (2 ^ 64 * (value / 2 ^ (64 * (j + 1))) + v.toNat) + value % 2 ^ (64 * j) := by
    simp only [setLimb, two_pow_limb_succ]; ring
  rw [h1, Nat.testBit_two_pow_mul_add _ (Nat.mod_lt _ (by positivity))]
  split
  · next hk => simp [Nat.testBit_mod_two_pow, hk]
  · next hk =>
    rw [Nat.testBit_two_pow_mul_add _ v.isLt]
    by_cases hk2 : k < 64 * (j + 1)
    · rw [if_pos (by omega), if_pos hk2]; rfl
    · have hk3 : k - 64 * j - 64 + 64 * (j + 1) = k := by omega
      rw [if_neg (by omega), if_neg hk2, Nat.testBit_div_two_pow, hk3]

/-- A limb write leaves every other limb alone (R51). -/
theorem limbOf_setLimb_other (value : Nat) {j k : Nat} (v : Word) (h : k ≠ j) :
    limbOf (setLimb value j v) k = limbOf value k := by
  apply BitVec.eq_of_getLsbD_eq
  intro i hi
  simp only [limbOf, BitVec.getLsbD_ofNat, hi, decide_true, Bool.true_and, Nat.testBit_div_two_pow, testBit_setLimb]
  rcases Nat.lt_or_gt_of_ne h with hlt | hgt
  · rw [if_pos (by omega)]
  · rw [if_neg (by omega), if_neg (by omega)]

/-- A limb write keeps the register below 2^BIGW (R21). -/
theorem setLimb_lt {value limbs j : Nat} (v : Word) (hv : value < 2 ^ (64 * limbs)) (hj : j < limbs) :
    setLimb value j v < 2 ^ (64 * limbs) := by
  apply Nat.lt_pow_two_of_testBit
  intro k hk
  rw [testBit_setLimb, if_neg (by omega), if_neg (by omega)]
  exact Nat.testBit_lt_two_pow (hv.trans_le (Nat.pow_le_pow_right (by decide) hk))

/-- Two integers below 2^BIGW with the same limbs are the same. -/
theorem eq_of_limbs_eq {a b limbs : Nat} (ha : a < 2 ^ (64 * limbs)) (hb : b < 2 ^ (64 * limbs))
    (h : ∀ j, j < limbs → limbOf a j = limbOf b j) : a = b := by
  apply Nat.eq_of_testBit_eq
  intro k
  by_cases hk : k < 64 * limbs
  · have := congrArg (fun w : Word => w.getLsbD (k % 64)) (h (k / 64) (by omega))
    simp only [limbOf, BitVec.getLsbD_ofNat, Nat.testBit_div_two_pow] at this
    have hm : k % 64 < 64 := Nat.mod_lt _ (by decide)
    have hsum : k % 64 + 64 * (k / 64) = k := Nat.mod_add_div k 64
    simpa [hm, hsum, Nat.add_comm] using this
  · rw [Nat.testBit_lt_two_pow (ha.trans_le (Nat.pow_le_pow_right (by decide) (by omega))),
      Nat.testBit_lt_two_pow (hb.trans_le (Nat.pow_le_pow_right (by decide) (by omega)))]

/-! ### The window (spec/20_memory.md R47) -/

/-- The map names a limb of the machine only (R47). -/
theorem target_limb_lt {limbs off : Nat} {r : Reg} {j : Nat} (h : target limbs off = some (.limb r j)) : j < limbs := by
  unfold target at h
  split at h <;> try simp at h
  split at h <;> try simp at h
  split at h <;> try simp at h
  split at h <;> try simp at h
  split at h <;> try simp at h
  split at h <;> try simp at h
  obtain ⟨⟨h1, h2⟩, -, hj⟩ := h
  have hl : 0 < limbs := by
    rcases Nat.eq_zero_or_pos limbs with h0 | h0
    · subst h0; simp [Config.windowBytes] at h2; omega
    · exact h0
  have hm : (off - 4096) % (8 * limbs) < 8 * limbs := Nat.mod_lt _ (by omega)
  omega

/-- Where the map of R47 holds nothing, among the multiples of 8: the reserved ranges, and past the window. -/
theorem target_none_iff {limbs off : Nat} (h8 : off % 8 = 0) :
    target limbs off = none ↔
      (0x028 ≤ off ∧ off ≤ 0x03F) ∨ (0x080 ≤ off ∧ off ≤ 0xFFF) ∨ Config.windowBytes limbs ≤ off := by
  have hwin : 0x1000 ≤ Config.windowBytes limbs := by simp [Config.windowBytes]
  unfold target
  repeat' split
  all_goals simp only [reduceCtorEq, false_iff, true_iff]
  all_goals omega

/-- The one offset of a control register. -/
theorem target_control {limbs off : Nat} {tg : Target} (h : target limbs off = some tg) :
    (tg = .id → off = 0x000) ∧ (tg = .ctrl → off = 0x008) ∧ (tg = .status → off = 0x010) ∧ (tg = .cmd → off = 0x018) ∧
    (tg = .din → off = 0x020) := by
  unfold target at h
  repeat' split at h
  all_goals first | contradiction | (obtain rfl := Option.some.inj h; simp_all)

/-- A multiple of 8 that reaches limb j of Bi is that limb's offset (R22, R47). -/
theorem off_of_target_limb {limbs off : Nat} {r : Reg} {j : Nat} (h8 : off % 8 = 0)
    (h : target limbs off = some (.limb r j)) : off = limbOffset limbs r j := by
  unfold target at h
  repeat' split at h
  all_goals cases h
  next hin =>
  obtain ⟨h1, h2⟩ := hin
  have hl : 0 < limbs := by
    rcases Nat.eq_zero_or_pos limbs with h0 | h0
    · subst h0; simp [Config.windowBytes] at h2; omega
    · exact h0
  have hq : (off - 0x1000) / (8 * limbs) < 8 := by
    rw [Nat.div_lt_iff_lt_mul (by omega)]; simp only [Config.windowBytes, Config.nreg] at h2; omega
  have hsplit := Nat.div_add_mod (off - 0x1000) (8 * limbs)
  have hm8 : (off - 0x1000) % (8 * limbs) % 8 = 0 := by
    rw [Nat.mod_mul_right_mod]; omega
  simp only [limbOffset, Fin.ofNat, Nat.mod_eq_of_lt hq]
  rw [Nat.mul_comm]
  omega

/-- A legal access is 8 bytes wide, at a multiple of 8 that R47 maps (R49). -/
theorem checkAccess_ok {limbs off width : Nat} {t : Target} :
    checkAccess limbs off width = .ok t ↔ width = 8 ∧ off % 8 = 0 ∧ target limbs off = some t := by
  unfold checkAccess
  by_cases hw : width ≠ 8 ∨ off % 8 ≠ 0
  · rw [if_pos hw]
    simp only [reduceCtorEq, false_iff]
    rintro ⟨h1, h2, -⟩
    rcases hw with h | h
    · exact h h1
    · exact h h2
  · rw [if_neg hw]
    push Not at hw
    cases ht : target limbs off with
    | some t' => simp [hw.1, hw.2]
    | none => simp only [reduceCtorEq, and_false, iff_false]; split <;> simp

/-- The offset of DOUT[i] reaches DOUT[i] (R47). -/
theorem target_doutOffset (limbs : Nat) (i : Fin 8) : target limbs (doutOffset i) = some (.dout i) := by
  fin_cases i <;> rfl

/-- The offset of limb j of Bi reaches that limb (R22, R47). -/
theorem target_limbOffset {limbs j : Nat} (r : Reg) (hj : j < limbs) :
    target limbs (limbOffset limbs r j) = some (.limb r j) := by
  have hr := r.isLt
  have hprod : r.val * (8 * limbs) + 8 * j < 8 * (8 * limbs) := by
    have : (r.val + 1) * (8 * limbs) ≤ 8 * (8 * limbs) := Nat.mul_le_mul_right _ hr
    rw [Nat.add_mul, Nat.one_mul] at this; omega
  have hoff : limbOffset limbs r j = 0x1000 + (r.val * (8 * limbs) + 8 * j) := by unfold limbOffset; omega
  have hdiv : (r.val * (8 * limbs) + 8 * j) / (8 * limbs) = r.val := by
    rw [Nat.mul_comm r.val, Nat.mul_add_div (by omega), Nat.div_eq_of_lt (by omega), Nat.add_zero]
  have hmod : (r.val * (8 * limbs) + 8 * j) % (8 * limbs) = 8 * j := by
    rw [Nat.mul_comm r.val, Nat.mul_add_mod, Nat.mod_eq_of_lt (by omega)]
  unfold target
  rw [hoff, if_neg (by omega), if_neg (by omega), if_neg (by omega), if_neg (by omega), if_neg (by omega),
    if_neg (by omega), if_pos ⟨by omega, by simp only [Config.windowBytes, Config.nreg]; omega⟩, Nat.add_sub_cancel_left, hdiv, hmod,
    Nat.mul_div_cancel_left _ (by decide)]
  congr 2
  exact Fin.ext (by simp [Fin.ofNat, Nat.mod_eq_of_lt hr])

/-! ### A host access -/

/-- All a host access can do: a legal read or a legal write, each a next state, or the fault of the access. -/
theorem hostTurn_next {a : Access} {s t : State} (h : hostTurn a s = .next t) :
    (∃ off tg, a = .read off 8 ∧ off % 8 = 0 ∧ target s.limbs off = some tg ∧ t = hostRead tg s) ∨
    (∃ off v tg, a = .write off 8 v ∧ off % 8 = 0 ∧ target s.limbs off = some tg ∧ t = hostWrite tg v s) := by
  cases a with
  | read off width =>
    simp only [hostTurn] at h
    split at h
    · next tg hc =>
      obtain ⟨rfl, ho, ht⟩ := checkAccess_ok.mp hc
      exact .inl ⟨off, tg, rfl, ho, ht, by simpa using h.symm⟩
    · simp at h
  | write off width v =>
    simp only [hostTurn] at h
    split at h
    · next tg hc =>
      obtain ⟨rfl, ho, ht⟩ := checkAccess_ok.mp hc
      exact .inr ⟨off, v, tg, rfl, ho, ht, by simpa using h.symm⟩
    · simp at h

/-- All a host read can do: an unspecified value drawn while BUSY = 1, or the register's value (R50, R55). -/
theorem hostRead_cases (tg : Target) (s : State) :
    (s.busy = true ∧ tg.readGuarded = true ∧
      hostRead tg s = { s with readData := some (Config.freeRead s.draws), draws := s.draws + 1 }) ∨
    ((s.busy = false ∨ tg.readGuarded = false) ∧ hostRead tg s = { s with readData := some (s.valueAt tg) }) := by
  unfold hostRead
  cases s.busy <;> cases tg.readGuarded <;> simp

/-- All a host write can do: discarded while BUSY = 1, or the effect of R51 for its target. -/
theorem hostWrite_cases (tg : Target) (v : Word) (s : State) :
    (s.busy = true ∧ tg.writeGuarded = true ∧ hostWrite tg v s = { s with ovr := true }) ∨
    ((s.busy = false ∨ tg.writeGuarded = false) ∧
      ((tg = .ctrl ∧ hostWrite tg v s = s.writeCtrl v) ∨
       (tg = .status ∧ hostWrite tg v s = s.writeStatus v) ∨
       (tg = .cmd ∧ hostWrite tg v s = s.accept (v.setWidth 32)) ∨
       (tg = .din ∧ hostWrite tg v s = { s with din := v }) ∨
       (∃ r j, tg = .limb r j ∧ hostWrite tg v s = s.writeLimb r j v) ∨
       ((tg = .id ∨ ∃ i, tg = .dout i) ∧ hostWrite tg v s = s))) := by
  unfold hostWrite
  cases hb : s.busy <;> cases tg <;> simp [Target.writeGuarded]

end Sys2Proof.Machine
end

