-- ==== Sys2Proof/Laws/Exec.lean ====
section
/-! SUPPORT. What the completion of a command and a step of the machine can do, said once; the provers cite these lemmas in
place of unfolding `exec` and `step`. -/

namespace Sys2Proof.Machine

/-- Completing with a code is what `CompletedWith` says (spec/60_exceptions.md R191, R193). -/
theorem completedWith_finish (s : State) (e : ErrCode) : CompletedWith e s (s.finish e) := by
  constructor <;> rfl

/-- Writing rd and completing is what `ResultIn` says. -/
theorem resultIn_writeBig (s : State) (rd : Reg) (v : Nat) : ResultIn rd v s ((s.writeBig rd v).finish .ok) where
  value := s.big_writeBig_self rd v
  written := congrArg BigReg.written (s.reg_writeBig_self rd v)
  others _ h := s.reg_writeBig_other v h
  flags := ⟨rfl, rfl, rfl⟩
  sha := rfl
  dout := rfl
  completed := by constructor <;> rfl

/-- Ending with an error code is what `ErrorOnly` says (R191). -/
theorem errorOnly_finish (s : State) (e : ErrCode) : ErrorOnly e s (s.finish e) where
  regs _ := rfl
  flags := ⟨rfl, rfl, rfl⟩
  sha := rfl
  dout := rfl
  completed := completedWith_finish s e

/-- The work storage of a MODINV command is gone at its completion (R36(c)). -/
@[simp] theorem State.recordWork_finish (s : State) (l : List EuclidStep) (e : ErrCode) :
    (s.recordWork l).finish e = s.finish e := rfl

@[simp] theorem State.recordWork_writeBig_finish (s : State) (l : List EuclidStep) (rd : Reg) (v : Nat) (e : ErrCode) :
    ((s.recordWork l).writeBig rd v).finish e = (s.writeBig rd v).finish e := rfl

/-- All BIG.MODINV can do after its forward pass. -/
theorem finishModinv_cases (rd : Reg) (m g : Nat) (s : State) :
    finishModinv rd m g s = .next (s.finish .logic) ∨
    (s.work ≠ [] ∧ g = 1 ∧ inverseCandidate m s.work ≠ 0 ∧
      finishModinv rd m g s = .next ((s.writeBig rd (inverseCandidate m s.work)).finish .ok)) := by
  unfold finishModinv
  by_cases h1 : s.work = [] <;> by_cases h2 : g = 1 <;> by_cases h3 : inverseCandidate m s.work = 0 <;>
    simp [h1, h2, h3, raiseErr, complete]

/-- All the completion of a command can do: an error that writes nothing but STATUS, one register, the flags, the SHA
context or DOUT. -/
theorem exec_cases (i : Instr) (s : State) :
    (∃ e, e ≠ .ok ∧ e ≠ .illegal ∧ exec i s = .next (s.finish e)) ∨
    (∃ rd v, writesReg i = some rd ∧ exec i s = .next ((s.writeBig rd v).finish .ok)) ∨
    (∃ rs1 rs2, i = .bigCmp rs1 rs2 ∧ exec i s = .next ((s.writeCompareFlags (s.big rs1) (s.big rs2)).finish .ok)) ∨
    (i = .shaInit ∧ exec i s = .next ({ s with sha := ShaContext.initial }.finish .ok)) ∨
    (∃ n, i = .shaUpdate n ∧ exec i s = .next ({ s with sha := s.sha.absorb (dinBytes s.din n) }.finish .ok)) ∨
    (i = .shaDigest ∧ exec i s = .next ({ s with dout := s.sha.digest }.finish .ok)) := by
  cases i with
  | shaInit => exact .inr (.inr (.inr (.inl ⟨rfl, rfl⟩)))
  | shaUpdate n =>
    simp only [exec, execShaUpdate]; split
    · exact .inl ⟨.arg, by decide, by decide, rfl⟩
    · exact .inr (.inr (.inr (.inr (.inl ⟨n, rfl, rfl⟩))))
  | shaDigest => exact .inr (.inr (.inr (.inr (.inr ⟨rfl, rfl⟩))))
  | bigMov rd rs1 => exact .inr (.inl ⟨rd, _, rfl, rfl⟩)
  | bigLdi rd imm20 => exact .inr (.inl ⟨rd, _, rfl, rfl⟩)
  | bigAdd rd rs1 rs2 =>
    simp only [exec, execBigAdd]; split
    · exact .inl ⟨.range, by decide, by decide, rfl⟩
    · exact .inr (.inl ⟨rd, _, rfl, rfl⟩)
  | bigSub rd rs1 rs2 =>
    simp only [exec, execBigSub]; split
    · exact .inl ⟨.range, by decide, by decide, rfl⟩
    · exact .inr (.inl ⟨rd, _, rfl, rfl⟩)
  | bigMul rd rs1 rs2 =>
    simp only [exec, execBigMul]; split
    · exact .inl ⟨.range, by decide, by decide, rfl⟩
    · exact .inr (.inl ⟨rd, _, rfl, rfl⟩)
  | bigMod rd rs1 rs2 =>
    simp only [exec, execBigMod]; split
    · exact .inl ⟨.arg, by decide, by decide, rfl⟩
    · exact .inr (.inl ⟨rd, _, rfl, rfl⟩)
  | bigShr rd rs1 imm16 =>
    simp only [exec, execBigShr]; split <;> exact .inr (.inl ⟨rd, _, rfl, rfl⟩)
  | bigCmp rs1 rs2 => exact .inr (.inr (.inl ⟨rs1, rs2, rfl, rfl⟩))
  | bigModmul rd rs1 rs2 rs3 =>
    simp only [exec, execBigModmul]; split
    · exact .inl ⟨.arg, by decide, by decide, rfl⟩
    · exact .inr (.inl ⟨rd, _, rfl, rfl⟩)
  | bigModexp rd rs1 rs2 rs3 =>
    simp only [exec, execBigModexp]; split
    · exact .inl ⟨.arg, by decide, by decide, rfl⟩
    · exact .inr (.inl ⟨rd, _, rfl, rfl⟩)
  | bigGcd rd rs1 rs2 => exact .inr (.inl ⟨rd, _, rfl, rfl⟩)
  | bigModinv rd rs1 rs2 =>
    simp only [exec, execBigModinv]; split
    · exact .inl ⟨.arg, by decide, by decide, rfl⟩
    · rcases finishModinv_cases rd (s.big rs2) (forwardPass (s.big rs1) (s.big rs2) (s.big rs1)).2
        (s.recordWork (forwardPass (s.big rs1) (s.big rs2) (s.big rs1)).1) with h | ⟨-, -, -, h⟩
      · exact .inl ⟨.logic, by decide, by decide, h⟩
      · exact .inr (.inl ⟨rd, _, rfl, h⟩)

/-- All the engine's turn can do (R193, R80, R208). -/
theorem engineTurn_cases (s : State) :
    (s.busy = true ∧ ∃ i, decode s.cmd = .ok i ∧ engineTurn s = exec i s) ∨
    (s.busy = true ∧ ∃ d, decode s.cmd = .error d ∧ engineTurn s = .next (s.finish .illegal)) ∨
    (s.busy = false ∧ engineTurn s = .next s) := by
  unfold engineTurn
  cases hb : s.busy with
  | false => simp
  | true =>
    cases hd : decode s.cmd with
    | ok i => exact .inl ⟨rfl, i, rfl, by simp⟩
    | error d => exact .inr (.inl ⟨rfl, d, rfl, by simp [completeIllegal, raiseErr]⟩)

/-- All a step can do: the turn at the head of the agenda, the engine's when there is none. -/
theorem step_cases (s : State) :
    (s.agenda = [] ∧ step s = engineTurn s) ∨
    (∃ rest, s.agenda = .engine :: rest ∧ step s = engineTurn { s with agenda := rest }) ∨
    (∃ a rest, s.agenda = .host a :: rest ∧ step s = hostTurn a { s with agenda := rest }) ∨
    (∃ rest, s.agenda = .powerOn :: rest ∧ step s = .next { s with agenda := rest }.powerOnReset) := by
  unfold step
  cases s.agenda with
  | nil => simp
  | cons t rest => cases t <;> simp

/-- All a step with a next state can do, each effect at the state without the turn taken: the engine idle; an illegal
word; a command; a power-on; a host read; a host write. -/
theorem step_next_cases {s t : State} (h : step s = .next t) :
    (s.engineNext ∧ s.busy = false ∧ t = s.popTurn) ∨
    (s.engineNext ∧ s.busy = true ∧ (∃ d, decode s.cmd = .error d) ∧ t = s.popTurn.finish .illegal) ∨
    (∃ i, s.completes i ∧ exec i s.popTurn = .next t) ∨
    (s.powerOnNext ∧ t = s.popTurn.powerOnReset) ∨
    (∃ off tg rest, s.agenda = .host (.read off 8) :: rest ∧ off % 8 = 0 ∧ target s.limbs off = some tg ∧
      t = hostRead tg s.popTurn) ∨
    (∃ off v tg rest, s.agenda = .host (.write off 8 v) :: rest ∧ off % 8 = 0 ∧ target s.limbs off = some tg ∧
      t = hostWrite tg v s.popTurn) := by
  have engine : s.engineNext → engineTurn s.popTurn = .next t →
      (s.engineNext ∧ s.busy = false ∧ t = s.popTurn) ∨
      (s.engineNext ∧ s.busy = true ∧ (∃ d, decode s.cmd = .error d) ∧ t = s.popTurn.finish .illegal) ∨
      (∃ i, s.completes i ∧ exec i s.popTurn = .next t) := by
    intro hn he
    rcases engineTurn_cases s.popTurn with ⟨hb, i, hd, h2⟩ | ⟨hb, d, hd, h2⟩ | ⟨hb, h2⟩
    · exact .inr (.inr ⟨i, ⟨hb, hd, hn⟩, h2 ▸ he⟩)
    · exact .inr (.inl ⟨hn, hb, ⟨d, hd⟩, by rw [h2] at he; exact (Host.Outcome.next.inj he).symm⟩)
    · exact .inl ⟨hn, hb, by rw [h2] at he; exact (Host.Outcome.next.inj he).symm⟩
  rcases step_cases s with ⟨ha, h'⟩ | ⟨rest, ha, h'⟩ | ⟨a, rest, ha, h'⟩ | ⟨rest, ha, h'⟩
  · have hp : s.popTurn = s := by cases s; simp only [State.popTurn] at *; simp [ha]
    rcases engine (.inl ha) (by rw [hp, ← h', h]) with h | h | h
    · exact .inl h
    · exact .inr (.inl h)
    · exact .inr (.inr (.inl h))
  · have hp : s.popTurn = { s with agenda := rest } := by simp [State.popTurn, ha]
    rcases engine (.inr ⟨rest, ha⟩) (by rw [hp, ← h', h]) with h | h | h
    · exact .inl h
    · exact .inr (.inl h)
    · exact .inr (.inr (.inl h))
  · have hp : s.popTurn = { s with agenda := rest } := by simp [State.popTurn, ha]
    rw [h', ← hp] at h
    rcases hostTurn_next h with ⟨off, tg, rfl, ho, ht, ht2⟩ | ⟨off, v, tg, rfl, ho, ht, ht2⟩
    · exact .inr (.inr (.inr (.inr (.inl ⟨off, tg, rest, ha, ho, ht, ht2⟩))))
    · exact .inr (.inr (.inr (.inr (.inr ⟨off, v, tg, rest, ha, ho, ht, ht2⟩))))
  · have hp : s.popTurn = { s with agenda := rest } := by simp [State.popTurn, ha]
    rw [h', ← hp] at h
    exact .inr (.inr (.inr (.inl ⟨⟨rest, ha⟩, (Host.Outcome.next.inj h).symm⟩)))

/-- A host access that is legal is what the window does with it (R50, R51). -/
theorem step_hostRead {s : State} {off : Nat} {tg : Target} {rest : List Turn} (ha : s.agenda = .host (.read off 8) :: rest)
    (h8 : off % 8 = 0) (ht : target s.limbs off = some tg) : step s = .next (hostRead tg { s with agenda := rest }) := by
  simp [step, ha, hostTurn, checkAccess, h8, ht]

theorem step_hostWrite {s : State} {off : Nat} {v : Word} {tg : Target} {rest : List Turn}
    (ha : s.agenda = .host (.write off 8 v) :: rest) (h8 : off % 8 = 0) (ht : target s.limbs off = some tg) :
    step s = .next (hostWrite tg v { s with agenda := rest }) := by
  simp [step, ha, hostTurn, checkAccess, h8, ht]

/-! ### Taking the turn off the agenda changes nothing else -/

@[simp] theorem State.reg_popTurn (s : State) (r : Reg) : s.popTurn.reg r = s.reg r := rfl
@[simp] theorem State.big_popTurn (s : State) (r : Reg) : s.popTurn.big r = s.big r := rfl
@[simp] theorem State.popTurn_limbs (s : State) : s.popTurn.limbs = s.limbs := rfl
@[simp] theorem State.popTurn_regs (s : State) : s.popTurn.regs = s.regs := rfl
@[simp] theorem State.popTurn_ie (s : State) : s.popTurn.ie = s.ie := rfl
@[simp] theorem State.popTurn_busy (s : State) : s.popTurn.busy = s.busy := rfl
@[simp] theorem State.popTurn_doneFlag (s : State) : s.popTurn.doneFlag = s.doneFlag := rfl
@[simp] theorem State.popTurn_ovr (s : State) : s.popTurn.ovr = s.ovr := rfl
@[simp] theorem State.popTurn_err (s : State) : s.popTurn.err = s.err := rfl
@[simp] theorem State.popTurn_eqFlag (s : State) : s.popTurn.eqFlag = s.eqFlag := rfl
@[simp] theorem State.popTurn_ltFlag (s : State) : s.popTurn.ltFlag = s.ltFlag := rfl
@[simp] theorem State.popTurn_gtFlag (s : State) : s.popTurn.gtFlag = s.gtFlag := rfl
@[simp] theorem State.popTurn_cmd (s : State) : s.popTurn.cmd = s.cmd := rfl
@[simp] theorem State.popTurn_din (s : State) : s.popTurn.din = s.din := rfl
@[simp] theorem State.popTurn_dout (s : State) : s.popTurn.dout = s.dout := rfl
@[simp] theorem State.popTurn_sha (s : State) : s.popTurn.sha = s.sha := rfl
@[simp] theorem State.popTurn_work (s : State) : s.popTurn.work = s.work := rfl
@[simp] theorem State.popTurn_readData (s : State) : s.popTurn.readData = s.readData := rfl
@[simp] theorem State.popTurn_draws (s : State) : s.popTurn.draws = s.draws := rfl

end Sys2Proof.Machine
end

