-- ==== Sys2Proof/Laws/GcdUnit.lean ====
section
/-! SUPPORT. What the loops of the GCD unit compute (spec/43_gcd.md R150, R154, R159). -/

namespace Sys2Proof.Machine

/-- Euclid's loop with enough fuel is the greatest common divisor. -/
theorem gcdLoop_eq (fuel : Nat) : ∀ u v, v < fuel → gcdLoop fuel u v = Nat.gcd u v := by
  induction fuel with
  | zero => intro u v h; omega
  | succ fuel ih =>
    intro u v h
    unfold gcdLoop
    split
    · next hv => simp [hv]
    · next hv =>
      rw [ih v (u % v) (by have := Nat.mod_lt u (Nat.pos_of_ne_zero hv); omega), Nat.gcd_comm v, ← Nat.gcd_rec,
        Nat.gcd_comm]

/-- BIG.GCD's result is the greatest common divisor (R150, R151). -/
theorem bigGcd_eq (a b : Nat) : bigGcd a b = Nat.gcd a b := gcdLoop_eq _ _ _ (Nat.lt_succ_self b)

/-- The forward pass records nothing exactly when the first remainder is 0 (R155, R156). -/
theorem forwardPass_nil {fuel u v : Nat} (hf : 0 < fuel) : (forwardPass fuel u v).1 = [] ↔ u % v = 0 := by
  cases fuel with
  | zero => omega
  | succ fuel => unfold forwardPass; split <;> simp_all

/-- The forward pass ends with the greatest common divisor (R154). -/
theorem forwardPass_gcd (fuel : Nat) : ∀ u v, 0 < v → v ≤ fuel → (forwardPass fuel u v).2 = Nat.gcd u v := by
  induction fuel with
  | zero => intro u v hv hf; omega
  | succ fuel ih =>
    intro u v hv hf
    have hlt := Nat.mod_lt u hv
    unfold forwardPass
    split
    · next h0 => rw [Nat.gcd_comm, Nat.gcd_rec, h0]; simp
    · next h0 =>
      simp only
      rw [ih v (u % v) (Nat.pos_of_ne_zero h0) (by omega), Nat.gcd_comm v, ← Nat.gcd_rec, Nat.gcd_comm]

/-- Walking one more recorded step is one more backward step (R159). -/
theorem backwardPass_cons (x : EuclidStep) {steps : List EuclidStep} (h : steps ≠ []) :
    backwardPass (x :: steps) = backwardStep (backwardPass steps) x := by
  unfold backwardPass
  obtain ⟨last, earlier, hrev⟩ : ∃ last earlier, steps.reverse = last :: earlier := by
    cases hr : steps.reverse with
    | nil => exact absurd (List.reverse_eq_nil_iff.mp hr) h
    | cons a l => exact ⟨a, l, rfl⟩
  simp [hrev]

/-- The pair (cu, cv) of the backward pass: cu * u + cv * v = g (R159). -/
theorem backwardPass_bezout (fuel : Nat) : ∀ u v, 0 < v → v ≤ fuel → u % v ≠ 0 →
    (backwardPass (forwardPass fuel u v).1).1 * u + (backwardPass (forwardPass fuel u v).1).2 * v
      = ((forwardPass fuel u v).2 : Int) := by
  induction fuel with
  | zero => intro u v hv hf; omega
  | succ fuel ih =>
    intro u v hv hf h0
    have hlt := Nat.mod_lt u hv
    have hdiv : (u : Int) = v * (u / v : Nat) + (u % v : Nat) := by exact_mod_cast (Nat.div_add_mod u v).symm
    have hrec : forwardPass (fuel + 1) u v
        = (⟨u, v, u / v⟩ :: (forwardPass fuel v (u % v)).1, (forwardPass fuel v (u % v)).2) := by
      rw [forwardPass, if_neg h0]
    simp only [hrec]
    by_cases h1 : v % (u % v) = 0
    · have hrest : (forwardPass fuel v (u % v)).1 = [] := (forwardPass_nil (by omega)).mpr h1
      have hg : (forwardPass fuel v (u % v)).2 = u % v := by
        rw [forwardPass_gcd fuel v _ (Nat.pos_of_ne_zero h0) (by omega), Nat.gcd_comm, Nat.gcd_rec, h1]; simp
      rw [hrest, hg]
      simp only [backwardPass, List.reverse_singleton, List.foldl_nil]
      linarith
    · have hne : (forwardPass fuel v (u % v)).1 ≠ [] := fun h => h1 ((forwardPass_nil (by omega)).mp h)
      rw [backwardPass_cons _ hne, ← ih v (u % v) (Nat.pos_of_ne_zero h0) (by omega) h1]
      simp only [backwardStep]
      rw [hdiv]
      ring

/-- For 0 < a < m with a recorded step and g = 1, the normalised coefficient is the inverse, in (0, m) (R159 to R161). -/
theorem inverseCandidate_spec {a m : Nat} (h0 : 0 < a) (h1 : a < m) (hne : m % a ≠ 0) (hg : Nat.gcd a m = 1) :
    0 < inverseCandidate m (forwardPass a m a).1 ∧ inverseCandidate m (forwardPass a m a).1 < m ∧
      a * inverseCandidate m (forwardPass a m a).1 % m = 1 := by
  have hb := backwardPass_bezout a m a h0 le_rfl hne
  rw [forwardPass_gcd a m a h0 le_rfl, Nat.gcd_comm, hg] at hb
  set cu := (backwardPass (forwardPass a m a).1).1
  set cv := (backwardPass (forwardPass a m a).1).2
  have hm : (0 : Int) < m := by omega
  have hd : ((inverseCandidate m (forwardPass a m a).1 : Nat) : Int) = cv % m := by
    unfold inverseCandidate; rw [Int.toNat_of_nonneg (Int.emod_nonneg _ (by omega))]
  have hlt : cv % m < m := Int.emod_lt_of_pos _ hm
  have hprod : ((a * inverseCandidate m (forwardPass a m a).1 % m : Nat) : Int) = 1 := by
    have h2 : (a : Int) * cv = 1 + m * (-cu) := by push_cast at hb; linarith
    push_cast
    rw [hd, Int.mul_emod, Int.emod_emod_of_dvd _ (dvd_refl _), ← Int.mul_emod, h2, Int.add_mul_emod_self_left]
    exact Int.emod_eq_of_lt (by omega) (by omega)
  have hprod' : a * inverseCandidate m (forwardPass a m a).1 % m = 1 := by exact_mod_cast hprod
  refine ⟨Nat.pos_of_ne_zero fun h => ?_, by omega, hprod'⟩
  simp [h] at hprod'

end Sys2Proof.Machine
end

