-- ==== Sys2Proof/Laws/HostPort.lean ====
section
/-! SUPPORT. What the lines of the host-program notation are made of: one turn taken now, one load, the limbs of an integer, the
groups of a byte string; and what it means that a register is defined. -/

namespace Sys2Proof.Machine

@[simp] theorem andThen_next {α β : Type} (a : α) (f : α → Host.Outcome β Fault Refusal) : andThen (.next a) f = f a := rfl

/-- All that going on can give: a next state only from a next state. -/
theorem andThen_eq_next {α β : Type} {o : Host.Outcome α Fault Refusal} {f : α → Host.Outcome β Fault Refusal} {b : β} :
    andThen o f = .next b ↔ ∃ a, o = .next a ∧ f a = .next b := by
  cases o <;> simp [andThen]

@[simp] theorem runTurns_nil (s : State) : runTurns [] s = .next s := rfl
@[simp] theorem runTurns_cons (turn : Turn) (turns : List Turn) (s : State) :
    runTurns (turn :: turns) s = andThen (perform turn s) (runTurns turns) := rfl

/-! ### One turn taken now -/

/-- The engine's turn, taken now, leaves the agenda as it was. -/
theorem perform_engine (s : State) : perform .engine s = engineTurn s := rfl

/-- A legal load, taken now (R50). -/
theorem perform_ld {s : State} {off : Nat} {tg : Target} (h8 : off % 8 = 0) (ht : target s.limbs off = some tg) :
    perform (turnLd off) s = .next (hostRead tg s) :=
  step_hostRead (s := { s with agenda := turnLd off :: s.agenda }) rfl h8 ht

/-- A legal store, taken now (R51). -/
theorem perform_st {s : State} {off : Nat} {v : Word} {tg : Target} (h8 : off % 8 = 0) (ht : target s.limbs off = some tg) :
    perform (turnSt off v) s = .next (hostWrite tg v s) :=
  step_hostWrite (s := { s with agenda := turnSt off v :: s.agenda }) rfl h8 ht

/-- All a legal load can give: the value the read returns. -/
theorem hostLd_eq {s : State} {off : Nat} {tg : Target} (h8 : off % 8 = 0) (ht : target s.limbs off = some tg) :
    hostLd off s = .next ((hostRead tg s).readData.getD 0, hostRead tg s) := by
  rw [hostLd, perform_ld h8 ht, andThen_next]

/-- A load that no hazard touches gives the value that stands there (R50, R55(d)). -/
theorem hostLd_exact {s : State} {off : Nat} {tg : Target} (h8 : off % 8 = 0) (ht : target s.limbs off = some tg)
    (hs : s.busy = false ∨ tg.readGuarded = false) :
    hostLd off s = .next (s.valueAt tg, { s with readData := some (s.valueAt tg) }) := by
  have hr : hostRead tg s = { s with readData := some (s.valueAt tg) } := by
    rcases hs with h | h <;> simp [hostRead, h]
  rw [hostLd_eq h8 ht, hr]; rfl

/-! ### Limbs -/

theorem limbOf_succ (v j : Nat) : limbOf v (j + 1) = limbOf (v / 2 ^ 64) j := by
  unfold limbOf
  rw [Nat.div_div_eq_div_mul, ← pow_add, show 64 + 64 * j = 64 * (j + 1) by ring]

/-- The limbs of an integer give it back, as far as they reach (R22). -/
theorem fromLimbs_limbOf (n : Nat) : ∀ v : Nat, fromLimbs ((List.range n).map (limbOf v)) = v % 2 ^ (64 * n) := by
  induction n with
  | zero => intro v; simp [fromLimbs, Nat.mod_one]
  | succ n ih =>
    intro v
    have hrest : (List.range n).map (limbOf v ∘ Nat.succ) = (List.range n).map (limbOf (v / 2 ^ 64)) := by
      apply List.map_congr_left; intro j _; exact limbOf_succ v j
    rw [List.range_succ_eq_map, List.map_cons, List.map_map, hrest, fromLimbs, ih, limbOf, BitVec.toNat_ofNat,
      show 64 * (n + 1) = 64 + 64 * n by ring, pow_add, Nat.mod_mul]
    simp

/-! ### Byte groups -/

/-- Groups of 8 that reach the end of a byte string make it up. -/
theorem flatten_groups (n : Nat) : ∀ bs : List Byte, bs.length ≤ 8 * n →
    ((List.range n).map (fun k => (bs.drop (8 * k)).take 8)).flatten = bs := by
  induction n with
  | zero => intro bs h; simp [List.length_eq_zero_iff.mp (Nat.le_zero.mp h)]
  | succ n ih =>
    intro bs h
    have hrest : (List.range n).map ((fun k => (bs.drop (8 * k)).take 8) ∘ Nat.succ)
        = (List.range n).map (fun k => ((bs.drop 8).drop (8 * k)).take 8) := by
      apply List.map_congr_left; intro k _
      simp only [Function.comp_apply, List.drop_drop, Nat.mul_succ, Nat.add_comm]
    rw [List.range_succ_eq_map, List.map_cons, List.map_map, hrest, List.flatten_cons,
      ih _ (by rw [List.length_drop]; omega)]
    simp

/-- The groups of a byte string make it up (R86 `absorb`). -/
theorem byteGroups_flatten (bs : List Byte) : (byteGroups bs).flatten = bs := flatten_groups _ bs (by omega)

/-- Every group has 1 to 8 bytes (R86 `absorb`, R93). -/
theorem byteGroups_length (bs : List Byte) : ∀ g ∈ byteGroups bs, 1 ≤ g.length ∧ g.length ≤ 8 := by
  intro g hg
  obtain ⟨k, hk, rfl⟩ := List.mem_map.mp hg
  have := List.mem_range.mp hk
  simp only [List.length_take, List.length_drop]
  omega

/-! ### Defined registers (R23) -/

/-- A defined register is the same in two states that differ only in unwritten limbs. -/
theorem SameButUnwritten.big_eq {s s' : State} (h : SameButUnwritten s s') (hs : s.Inv) (hs' : s'.Inv) {r : Reg}
    (hd : s.defined r = true) : s'.big r = s.big r := by
  have hl : s'.limbs = s.limbs := by rw [h.rest]
  refine eq_of_limbs_eq (limbs := s.limbs) ?_ (hs.regs_fit r) fun j hj => h.limbs r j ?_
  · have := hs'.regs_fit r; rwa [State.bigw, hl] at this
  · have hlen : j < (s.reg r).written.length := by rw [hs.marks r]; exact hj
    rw [List.getD_eq_getElem _ _ hlen]
    exact List.all_eq_true.mp hd _ (List.getElem_mem hlen)

end Sys2Proof.Machine
end

