-- ==== Sys2Proof/Laws/ModUnit.lean ====
section
/-! SUPPORT. The reference exponentiation of spec/42_modmul.md R147 gives the power of R144. -/

namespace Sys2Proof.Machine

/-- Squaring and multiplying modulo n, bit by bit, is the power modulo n. -/
theorem modPowBits_eq (b n : Nat) (bits : Nat) : ∀ k, k < 2 ^ bits → modPowBits b n k bits = b ^ k % n := by
  induction bits with
  | zero => intro k hk; obtain rfl : k = 0 := by simpa using hk
            simp [modPowBits]
  | succ bits ih =>
    intro k hk
    have hhalf : k / 2 < 2 ^ bits := by rw [pow_succ] at hk; omega
    have hsq : b ^ (k / 2) % n * (b ^ (k / 2) % n) % n = b ^ (2 * (k / 2)) % n := by
      rw [← Nat.mul_mod, ← pow_add]; congr 2; omega
    simp only [modPowBits, ih _ hhalf, modPowStep, decide_eq_true_eq, hsq]
    split
    · next hodd =>
      have hk2 : k = 2 * (k / 2) + 1 := by omega
      conv_rhs => rw [hk2, pow_succ, Nat.mul_mod]
    · next heven =>
      have hk2 : 2 * (k / 2) = k := by omega
      rw [hk2]

/-- `modPow b k n` is (b ^ k) mod n of R144, for every modulus. -/
theorem modPow_eq (b k n : Nat) : modPow b k n = b ^ k % n :=
  modPowBits_eq b n _ k Nat.lt_log2_self

/-- A residue is below a non-zero modulus (R142). -/
theorem modPow_lt (b k : Nat) {n : Nat} (hn : n ≠ 0) : modPow b k n < n := by
  rw [modPow_eq]; exact Nat.mod_lt _ (Nat.pos_of_ne_zero hn)

/-! ### The public-key operations (R146) -/

@[simp] theorem encryptCommand_eq (rd x e n : Reg) : encryptCommand rd x e n = .bigModexp rd x e n := rfl
@[simp] theorem verifyCommand_eq (rd x e n : Reg) : verifyCommand rd x e n = .bigModexp rd x e n := rfl
@[simp] theorem decryptCommand_eq (rd x d n : Reg) : decryptCommand rd x d n = .bigModexp rd x d n := rfl
@[simp] theorem signCommand_eq (rd x d n : Reg) : signCommand rd x d n = .bigModexp rd x d n := rfl

end Sys2Proof.Machine
end

