-- ==== Sys2Proof/Laws/PerInstr.lean ====
section
/-! SUPPORT. For every command, one lemma per constructor: the encoder's word selects the command's own row of the opcode map
(spec/30_encoding.md R77, R83). -/

namespace Sys2Proof.Laws

/-- The mnemonic of a command (R77). -/
def mnemonicOf : Instr → Mnemonic
  | .shaInit => .shaInit
  | .shaUpdate _ => .shaUpdate
  | .shaDigest => .shaDigest
  | .bigMov _ _ => .bigMov
  | .bigLdi _ _ => .bigLdi
  | .bigAdd _ _ _ => .bigAdd
  | .bigSub _ _ _ => .bigSub
  | .bigMul _ _ _ => .bigMul
  | .bigMod _ _ _ => .bigMod
  | .bigShr _ _ _ => .bigShr
  | .bigCmp _ _ => .bigCmp
  | .bigModmul _ _ _ _ => .bigModmul
  | .bigModexp _ _ _ _ => .bigModexp
  | .bigGcd _ _ _ => .bigGcd
  | .bigModinv _ _ _ => .bigModinv

/-- A number below 2^k has no bit under a mask whose low k bits are 0. -/
theorem ofNat_and_mask {n k : Nat} (m : CmdWord) (hn : n < 2 ^ k) (hm : ∀ i, i < k → m.getLsbD i = false) :
    BitVec.ofNat 32 n &&& m = 0 := by
  apply BitVec.eq_of_getLsbD_eq
  intro i hi
  rw [BitVec.getLsbD_and, BitVec.getLsbD_ofNat]
  by_cases hk : i < k
  · simp [hm i hk]
  · simp [Nat.testBit_lt_two_pow (hn.trans_le (Nat.pow_le_pow_right (by decide) (Nat.le_of_not_lt hk)))]

/-- An immediate beside the other fields leaves the masked bits alone. -/
theorem or_ofNat_and_mask {n k : Nat} (a m : CmdWord) (hn : n < 2 ^ k) (hm : ∀ i, i < k → m.getLsbD i = false) :
    (a ||| BitVec.ofNat 32 n) &&& m = a &&& m := by
  rw [BitVec.and_comm, BitVec.and_or_distrib_left, BitVec.and_comm m (BitVec.ofNat 32 n), ofNat_and_mask m hn hm,
    BitVec.and_comm m a]
  simp

namespace EncodeSelectsRow

/-- The word of a well-formed command selects the row of its own mnemonic. -/
def Statement (i : Instr) : Prop :=
  i.wf = true → ∃ row, row ∈ opcodeMap ∧ row.mnemonic = mnemonicOf i ∧ row.selects (encode i) = true

theorem shaInit : Statement .shaInit := fun _ => ⟨⟨.shaInit, 0x10, 0x10000000, 0xFFFFFFFF⟩, by decide, rfl, by decide⟩

theorem shaUpdate (n : Nat) : Statement (.shaUpdate n) := fun h => by
  refine ⟨⟨.shaUpdate, 0x11, 0x11000000, 0xFFFFFF00⟩, by decide, rfl, ?_⟩
  have hn : n < 2 ^ 8 := by simp [Instr.wf] at h; omega
  simp only [OpcodeRow.selects, encode, or_ofNat_and_mask _ 0xFFFFFF00 hn (by decide)]; rfl

theorem shaDigest : Statement .shaDigest :=
  fun _ => ⟨⟨.shaDigest, 0x12, 0x12000000, 0xFFFFFFFF⟩, by decide, rfl, by decide⟩

theorem bigMov (rd rs1 : Reg) : Statement (.bigMov rd rs1) := fun _ =>
  ⟨⟨.bigMov, 0x20, 0x20000000, 0xFF88FFFF⟩, by decide, rfl, by revert rd rs1; decide +kernel⟩

theorem bigLdi (rd : Reg) (imm20 : Nat) : Statement (.bigLdi rd imm20) := fun h => by
  refine ⟨⟨.bigLdi, 0x21, 0x21000000, 0xFF800000⟩, by decide, rfl, ?_⟩
  have hn : imm20 < 2 ^ 20 := by simp [Instr.wf] at h; omega
  simp only [OpcodeRow.selects, encode, or_ofNat_and_mask _ 0xFF800000 hn (by decide)]
  clear h hn; revert rd; decide

theorem bigAdd (rd rs1 rs2 : Reg) : Statement (.bigAdd rd rs1 rs2) := fun _ =>
  ⟨⟨.bigAdd, 0x22, 0x22000000, 0xFF888FFF⟩, by decide, rfl, by revert rd rs1 rs2; decide +kernel⟩

theorem bigSub (rd rs1 rs2 : Reg) : Statement (.bigSub rd rs1 rs2) := fun _ =>
  ⟨⟨.bigSub, 0x23, 0x23000000, 0xFF888FFF⟩, by decide, rfl, by revert rd rs1 rs2; decide +kernel⟩

theorem bigMul (rd rs1 rs2 : Reg) : Statement (.bigMul rd rs1 rs2) := fun _ =>
  ⟨⟨.bigMul, 0x24, 0x24000000, 0xFF888FFF⟩, by decide, rfl, by revert rd rs1 rs2; decide +kernel⟩

theorem bigMod (rd rs1 rs2 : Reg) : Statement (.bigMod rd rs1 rs2) := fun _ =>
  ⟨⟨.bigMod, 0x25, 0x25000000, 0xFF888FFF⟩, by decide, rfl, by revert rd rs1 rs2; decide +kernel⟩

theorem bigShr (rd rs1 : Reg) (imm16 : Nat) : Statement (.bigShr rd rs1 imm16) := fun h => by
  refine ⟨⟨.bigShr, 0x26, 0x26000000, 0xFF880000⟩, by decide, rfl, ?_⟩
  have hn : imm16 < 2 ^ 16 := by simp [Instr.wf] at h; omega
  simp only [OpcodeRow.selects, encode, or_ofNat_and_mask _ 0xFF880000 hn (by decide)]
  clear h hn; revert rd rs1; decide

theorem bigCmp (rs1 rs2 : Reg) : Statement (.bigCmp rs1 rs2) := fun _ =>
  ⟨⟨.bigCmp, 0x27, 0x27000000, 0xFFF88FFF⟩, by decide, rfl, by revert rs1 rs2; decide +kernel⟩

theorem bigModmul (rd rs1 rs2 rs3 : Reg) : Statement (.bigModmul rd rs1 rs2 rs3) := fun _ =>
  ⟨⟨.bigModmul, 0x30, 0x30000000, 0xFF8888FF⟩, by decide, rfl, by revert rd rs1 rs2 rs3; decide +kernel⟩

theorem bigModexp (rd rs1 rs2 rs3 : Reg) : Statement (.bigModexp rd rs1 rs2 rs3) := fun _ =>
  ⟨⟨.bigModexp, 0x31, 0x31000000, 0xFF8888FF⟩, by decide, rfl, by revert rd rs1 rs2 rs3; decide +kernel⟩

theorem bigGcd (rd rs1 rs2 : Reg) : Statement (.bigGcd rd rs1 rs2) := fun _ =>
  ⟨⟨.bigGcd, 0x40, 0x40000000, 0xFF888FFF⟩, by decide, rfl, by revert rd rs1 rs2; decide +kernel⟩

theorem bigModinv (rd rs1 rs2 : Reg) : Statement (.bigModinv rd rs1 rs2) := fun _ =>
  ⟨⟨.bigModinv, 0x41, 0x41000000, 0xFF888FFF⟩, by decide, rfl, by revert rd rs1 rs2; decide +kernel⟩

end EncodeSelectsRow

end Sys2Proof.Laws
end

