-- ==== Sys2Proof/Laws/Sha.lean ====
section
/-! SUPPORT. What the shared operations of the SHA unit do: one byte, the pieces of a block, the schedule's length. -/

namespace Sys2Proof.Machine

/-- All one absorbed byte can do: it lies in the block, or fills it and the block is compressed (spec/40_sha512.md R93). -/
theorem ShaContext.absorbByte_cases (c : ShaContext) (b : Byte) :
    (c.bf.val + 1 < 128 ∧ (c.absorbByte b).bf.val = c.bf.val + 1 ∧ (c.absorbByte b).h = c.h) ∨
    (c.bf.val = 127 ∧ (c.absorbByte b).bf = 0 ∧ (c.absorbByte b).h = compress (c.blk.set c.bf b).toList c.h) := by
  unfold ShaContext.absorbByte
  by_cases hb : c.bf.val + 1 < 128
  · simp [hb]
  · right; simp only [hb, dif_neg, not_false_eq_true, and_self, and_true]; have := c.bf.isLt; omega

@[simp] theorem ShaContext.absorbByte_blk (c : ShaContext) (b : Byte) : (c.absorbByte b).blk = c.blk.set c.bf b := by
  unfold ShaContext.absorbByte; split <;> rfl

/-- Bytes are counted by SHA.UPDATE, not one by one (R93). -/
@[simp] theorem ShaContext.absorbByte_bc (c : ShaContext) (b : Byte) : (c.absorbByte b).bc = c.bc := by
  unfold ShaContext.absorbByte; split <;> rfl

/-- BF after a byte (R32). -/
theorem ShaContext.absorbByte_bf (c : ShaContext) (b : Byte) : (c.absorbByte b).bf.val = (c.bf.val + 1) % 128 := by
  rcases c.absorbByte_cases b with ⟨h, hbf, -⟩ | ⟨h, hbf, -⟩
  · rw [hbf, Nat.mod_eq_of_lt h]
  · rw [hbf, h]; rfl

/-- BF after a byte string (R112). -/
theorem ShaContext.foldl_absorbByte_bf (g : List Byte) : ∀ c : ShaContext,
    (g.foldl ShaContext.absorbByte c).bf.val = (c.bf.val + g.length) % 128 := by
  induction g with
  | nil => intro c; simp [Nat.mod_eq_of_lt c.bf.isLt]
  | cons b g ih =>
    intro c
    rw [List.foldl_cons, ih, c.absorbByte_bf, Nat.mod_add_mod, List.length_cons]; congr 1; omega

@[simp] theorem ShaContext.absorb_bc (c : ShaContext) (g : List Byte) :
    (c.absorb g).bc = c.bc + BitVec.ofNat 128 (8 * g.length) := rfl

theorem ShaContext.absorb_bf (c : ShaContext) (g : List Byte) : (c.absorb g).bf.val = (c.bf.val + g.length) % 128 :=
  ShaContext.foldl_absorbByte_bf g c

/-- Absorbing one byte does not read BC. -/
theorem ShaContext.foldl_absorbByte_setBc (g : List Byte) : ∀ (c : ShaContext) (bc : BitVec 128),
    g.foldl ShaContext.absorbByte { c with bc := bc } = { g.foldl ShaContext.absorbByte c with bc := bc } := by
  induction g with
  | nil => intro c bc; rfl
  | cons b g ih =>
    intro c bc
    have h1 : ({ c with bc := bc } : ShaContext).absorbByte b = { c.absorbByte b with bc := bc } := by
      unfold ShaContext.absorbByte; split <;> rfl
    rw [List.foldl_cons, List.foldl_cons, h1, ih]

/-- Two groups are absorbed as their concatenation (R104). -/
theorem ShaContext.absorb_append (c : ShaContext) (g g' : List Byte) :
    (c.absorb g).absorb g' = c.absorb (g ++ g') := by
  unfold ShaContext.absorb
  rw [ShaContext.foldl_absorbByte_setBc, List.foldl_append]
  simp only [ShaContext.mk.injEq, true_and, List.length_append]
  rw [BitVec.add_assoc, ← BitVec.ofNat_add, Nat.mul_add]

@[simp] theorem dinBytes_length (din : Word) (n : Nat) : (dinBytes din n).length = n := by simp [dinBytes]

@[simp] theorem beBytes_length (n v : Nat) : (beBytes n v).length = n := by
  induction n with
  | zero => rfl
  | succ n ih => simp [beBytes, ih]

/-- The block SHA.DIGEST works on has 128 bytes (R94). -/
theorem ShaContext.terminatedBlock_length (c : ShaContext) : c.terminatedBlock.length = 128 := by
  have := c.bf.isLt
  simp [ShaContext.terminatedBlock]; omega

@[simp] theorem extendSchedule_length (n : Nat) : ∀ ws, (extendSchedule n ws).length = n + ws.length := by
  induction n with
  | zero => intro ws; simp [extendSchedule]
  | succ n ih => intro ws; rw [extendSchedule, ih, List.length_cons]; omega

/-- The compression has 80 round constants (R101). -/
theorem roundConstants_length : roundConstants.length = 80 := by decide

end Sys2Proof.Machine
end

