-- ==== Sys2Proof/Tests/Slice0.lean ====
section
/-! SUPPORT. Tests: ill-formed commands refused, command words written out from the encoding, single steps held against the
vectors of spec/95_test_vectors.md (named in each docstring), and for every statement that has hypotheses a witness that
meets them, at boundary values. -/

namespace Sys2Proof.Tests

/- One theorem at a time: the file has many, and each thread takes its own stack. -/
set_option Elab.async false

open Sys2Proof Sys2Proof.Machine

/-! ### Helpers -/

/-- Registers loaded whole, everything else as given. -/
def load (bigs : List (Reg × Nat)) (s : State) : State := bigs.foldl (fun acc rv => acc.writeBig rv.1 rv.2) s

/-- A machine of `limbs` limbs with 10 + i in Bi (the start of H15). -/
def tens (limbs : Nat) : State := load ((List.finRange 8).map (fun r => (r, 10 + r.val))) (State.resetOf limbs)

/-- The state after an outcome that is a next state. -/
def nextOf : Host.Outcome State Fault Refusal → Option State
  | .next t => some t
  | .fault _ => none
  | .refused _ => none

theorem exists_next {o : Host.Outcome State Fault Refusal} (h : (nextOf o).isSome = true) : ∃ t, o = .next t := by
  cases o with
  | next t => exact ⟨t, rfl⟩
  | fault f => cases h
  | refused r => cases h

/-- STATUS.ERR and rd after one step that runs the command word `w` from registers loaded as listed. -/
def errAndBig (w : Nat) (bigs : List (Reg × Nat)) (rd : Reg) : Option (ErrCode × Nat) :=
  (nextOf (step ((load bigs State.reset).withFetchWord 32 w))).map (fun t => (t.err, t.big rd))

/-- EQ, LT and GT after one step that runs the command word `w`. -/
def compareFlags (w : Nat) (bigs : List (Reg × Nat)) : Option (Bool × Bool × Bool) :=
  (nextOf (step ((load bigs State.reset).withFetchWord 32 w))).map (fun t => (t.eqFlag, t.ltFlag, t.gtFlag))

/-- The state after one step that runs the command word `w`. -/
def afterWord (w : Nat) (s : State) : Option State := nextOf (step (s.withFetchWord 32 w))

/-- The SHA context after a message of less than 128 bytes. -/
def contextOf (m : List Byte) : ShaContext :=
  { ShaContext.initial with
    blk := Vector.ofFn (fun j : Fin 128 => m.getD j.val 0), bf := Fin.ofNat 128 m.length, bc := BitVec.ofNat 128 (8 * m.length) }

/-- A machine whose SHA context holds a message of less than 128 bytes. -/
def holding (m : List Byte) : State := { State.reset with sha := contextOf m }

/-- DOUT after SHA.DIGEST on that machine. -/
def digestOf (m : List Byte) : Option (List Word) := (afterWord 0x12000000 (holding m)).map (fun t => t.dout.toList)

/-- `n` bytes 0x61. -/
def letters (n : Nat) : List Byte := List.replicate n 0x61

/-- A machine with the command word in flight and the engine's turn next. -/
def running (w : CmdWord) (s : State) : State := s.accept w

/-- A machine that takes one host access next. -/
def facing (a : Access) (s : State) : State := { s with agenda := [.host a] }

/-- What the host reads at an offset. -/
def readBack (off : Nat) (s : State) : Option Word := (nextOf (step (facing (.read off 8) s))).bind State.readData

/-! ### Ill-formed commands are refused (R84) -/

theorem test_wf_update_above_255 : (Instr.shaUpdate 256).wf = false := by decide
theorem test_wf_imm20_above_max : (Instr.bigLdi 0 1048576).wf = false := by decide
theorem test_wf_imm16_above_max : (Instr.bigShr 0 0 65536).wf = false := by decide
theorem test_wf_bounds : (Instr.shaUpdate 255).wf && (Instr.bigLdi 0 1048575).wf && (Instr.bigShr 0 0 65535).wf := by decide

/-! ### Command words, written from R71, R77 and the table of R83; 95_test_vectors.md section 6 and the words of sections 3 to 5 -/

theorem test_decode_sha :
    decode 0x10000000 = .ok .shaInit ∧ decode 0x11000008 = .ok (.shaUpdate 8) ∧ decode 0x11000000 = .ok (.shaUpdate 0) ∧
    decode 0x110000FF = .ok (.shaUpdate 255) ∧ decode 0x12000000 = .ok .shaDigest := by decide +kernel

theorem test_decode_alu :
    decode 0x20010000 = .ok (.bigMov 0 1) ∧ decode 0x21410001 = .ok (.bigLdi 4 65537) ∧
    decode 0x217FFFFF = .ok (.bigLdi 7 1048575) ∧ decode 0x22201000 = .ok (.bigAdd 2 0 1) ∧
    decode 0x23607000 = .ok (.bigSub 6 0 7) ∧ decode 0x24201000 = .ok (.bigMul 2 0 1) ∧
    decode 0x25201000 = .ok (.bigMod 2 0 1) ∧ decode 0x26100005 = .ok (.bigShr 1 0 5) ∧
    decode 0x2610FFFF = .ok (.bigShr 1 0 65535) ∧ decode 0x27043000 = .ok (.bigCmp 4 3) := by decide +kernel

theorem test_decode_modular :
    decode 0x30301200 = .ok (.bigModmul 3 0 1 2) ∧ decode 0x31201300 = .ok (.bigModexp 2 0 1 3) ∧
    decode 0x31001200 = .ok (.bigModexp 0 0 1 2) := by decide +kernel

theorem test_decode_gcd :
    decode 0x40642000 = .ok (.bigGcd 6 4 2) ∧ decode 0x41543000 = .ok (.bigModinv 5 4 3) := by decide +kernel

/-- A register number above 7 and a bit in an unused field (E5, E6, E9 to E12, E14, E17, E18). -/
theorem test_decode_reserved_bits :
    [0x11000100, 0x10000001, 0x20800000, 0x20010100, 0x27100000, 0x21800000, 0x26180000, 0x31A01300, 0x31201301].all
      (fun w => (match decode w with | .error d => d == .reservedBitSet | .ok _ => false)) := by decide +kernel

/-- E7, E8. -/
theorem test_decode_unassigned :
    [0x00000000, 0x13000000, 0x28000000, 0x32000000, 0x42000000, 0xFF000000].all
      (fun w => (match decode w with | .error d => d == .unassignedOpcode | .ok _ => false)) := by decide +kernel

/-- R85: the pseudo-instructions. -/
theorem test_pseudo_words : encode (.bigClr 5) = 0x21500000 ∧ encode (.bigLi1 5) = 0x21500001 := by decide +kernel

theorem test_decodeTableWord :
    decodeTableWord 32 0x41543000 = some (.bigModinv 5 4 3) ∧ decodeTableWord 32 0x10000001 = none := by decide +kernel

/-! ### SHA unit (vectors V1 to V23) -/

/-- The IV words are the square roots of the first eight primes (R90): r^2 <= p 2^128 < (r + 1)^2. -/
theorem test_iv_are_roots :
    (List.zip iv.toList [2, 3, 5, 7, 11, 13, 17, 19]).all (fun (w, p) =>
      let r := Nat.sqrt p * 2 ^ 64 + w.toNat
      decide (r ^ 2 ≤ p * 2 ^ 128 ∧ p * 2 ^ 128 < (r + 1) ^ 2)) := by decide +kernel

/-- The 80 round constants are the cube roots of the first 80 primes (R101). -/
theorem test_k_are_roots :
    roundConstants.length = 80 ∧
    (List.zip roundConstants ((List.range 410).filter
        (fun p => 2 ≤ p ∧ (List.range p).all (fun d => decide (d < 2) || decide (p % d ≠ 0))))).all
      (fun (w, p) =>
        let c := ((List.range 8).filter (fun k => decide (k ^ 3 ≤ p))).length - 1
        let r := c * 2 ^ 64 + w.toNat
        decide (r ^ 3 ≤ p * 2 ^ 192 ∧ p * 2 ^ 192 < (r + 1) ^ 3)) := by decide +kernel

/-- Section 2.2: the message schedule of "abc". -/
theorem test_schedule_abc :
    let w := schedule (withLength (contextOf [0x61, 0x62, 0x63]).terminatedBlock 24)
    w.getD 0 0 = 0x6162638000000000 ∧ w.getD 15 0 = 0x18 ∧ w.getD 16 0 = 0x6162638000000000 ∧
    w.getD 17 0 = 0x00030000000000c0 ∧ w.getD 79 0 = 0x92aeeed1a7bcf7d2 := by decide +kernel

/-- V2: the digest of "abc". -/
theorem test_digest_abc : digestOf [0x61, 0x62, 0x63] = some
    [0xddaf35a193617aba, 0xcc417349ae204131, 0x12e6fa4e89a97ea2, 0x0a9eeee64b55d39a,
     0x2192992a274fc1a8, 0x36ba3c23a3feebbd, 0x454d4423643ce80e, 0x2a9ac94fa54ca49f] := by decide +kernel

/-- V1, V5, V6, V7: an empty message, the longest single block, the two-compression path at both ends. -/
theorem test_digest_edges :
    (digestOf []).bind List.head? = some 0xcf83e1357eefb8bd ∧
    (digestOf (letters 111)).bind List.head? = some 0xfa9121c7b32b9e01 ∧
    (digestOf (letters 112)).bind List.head? = some 0xc01d080efd492776 ∧
    (digestOf (letters 127)).bind List.head? = some 0x828613968b501dc0 := by decide +kernel

/-- V22: the first byte fills the block, the second goes to blk[0]. -/
theorem test_update_crosses_block :
    (afterWord 0x11000002 { holding (letters 127) with din := 0x6162000000000000 }).map
      (fun t => (t.sha.bf.val, t.sha.bc.toNat, t.sha.blk[0], t.sha.h == compress (letters 128) iv))
      = some (1, 1032, 0x62, true) := by decide +kernel

/-- V16, V17, V18: n = 0, 9, 255. -/
theorem test_update_bad_count :
    [0x11000000, 0x11000009, 0x110000FF].all (fun w =>
      (afterWord w (holding [0x61, 0x62])).any (fun t => t.err == .arg && t.sha == contextOf [0x61, 0x62])) := by
  decide +kernel

/-- V20: SHA.INIT discards a partial message. -/
theorem test_init_discards :
    (afterWord 0x10000000 (holding [0x78, 0x79, 0x7a])).any (fun t => t.sha == ShaContext.initial && t.err == .ok) := by
  decide +kernel

/-! ### Big-integer ALU (vectors A1 to A25) -/

theorem test_mov_A1 : errAndBig 0x20010000 [(1, 5)] 0 = some (.ok, 5) := by decide +kernel
theorem test_ldi_A3 : errAndBig 0x217FFFFF [] 7 = some (.ok, 1048575) := by decide +kernel
theorem test_add_A5 : errAndBig 0x22201000 [(0, 2 ^ 4096 - 1), (1, 1), (2, 7)] 2 = some (.range, 7) := by decide +kernel
theorem test_add_A6 : errAndBig 0x22201000 [(0, 2 ^ 4096 - 2), (1, 1)] 2 = some (.ok, 2 ^ 4096 - 1) := by decide +kernel
theorem test_sub_A8 : errAndBig 0x23607000 [(0, 61), (7, 1)] 6 = some (.ok, 60) := by decide +kernel
theorem test_sub_A9 : errAndBig 0x23607000 [(0, 1), (7, 61), (6, 9)] 6 = some (.range, 9) := by decide +kernel
theorem test_mul_A12 : errAndBig 0x24201000 [(0, 2 ^ 2048), (1, 2 ^ 2048), (2, 3)] 2 = some (.range, 3) := by decide +kernel
theorem test_mul_A13 : errAndBig 0x24201000 [(0, 2 ^ 2047), (1, 2 ^ 2048)] 2 = some (.ok, 2 ^ 4095) := by decide +kernel
theorem test_mod_A15 : errAndBig 0x25201000 [(0, 3120), (1, 17)] 2 = some (.ok, 9) := by decide +kernel
theorem test_mod_A16 : errAndBig 0x25201000 [(0, 3120), (1, 0), (2, 4)] 2 = some (.arg, 4) := by decide +kernel
theorem test_shr_A19 : errAndBig 0x26100FFF [(0, 2 ^ 4095)] 1 = some (.ok, 1) := by decide +kernel
theorem test_shr_A20 : errAndBig 0x26101000 [(0, 2 ^ 4096 - 1)] 1 = some (.ok, 0) := by decide +kernel
theorem test_cmp_A24 : compareFlags 0x27043000 [(4, 17), (3, 3120)] = some (false, true, false) := by decide +kernel
theorem test_cmp_A25 : compareFlags 0x27044000 [(4, 2 ^ 4096 - 1)] = some (true, false, false) := by decide +kernel

/-! ### Modular multiplier (vectors M1 to M16) -/

theorem test_modmul_M2 : errAndBig 0x30301200 [(0, 5000), (1, 4000), (2, 3233)] 3 = some (.ok, 662) := by decide +kernel
theorem test_modmul_M6 :
    errAndBig 0x30001200 [(0, 2 ^ 4096 - 1), (1, 2 ^ 4096 - 1), (2, 2 ^ 4096 - 3)] 0 = some (.ok, 4) := by decide +kernel
theorem test_modexp_M9_M16 :
    errAndBig 0x31301200 [(0, 0), (1, 0), (2, 5)] 3 = some (.ok, 1) ∧
    errAndBig 0x31001200 [(0, 2), (1, 2 ^ 4096 - 1), (2, 3233)] 0 = some (.ok, 438) := by decide +kernel

/-- M7, M8: encrypting 65 with e = 17 gives 2790, which d = 2753 decrypts to 65, both modulo 3233. -/
theorem test_rsa_M7_M8 :
    (nextOf (exec (encryptCommand 3 0 1 2) (load [(0, 65), (1, 17), (2, 3233)] (tens 2)))).map (fun t => t.big 3) = some 2790 ∧
    (nextOf (exec (decryptCommand 3 0 1 2) (load [(0, 2790), (1, 2753), (2, 3233)] (tens 2)))).map (fun t => t.big 3)
      = some 65 := by decide +kernel

/-! ### GCD unit (vectors G1 to G15) -/

theorem test_gcd_G2 : errAndBig 0x40201000 [(0, 12), (1, 18)] 2 = some (.ok, 6) := by decide +kernel
theorem test_gcd_G4 : errAndBig 0x40201000 [(0, 0), (1, 7)] 2 = some (.ok, 7) := by decide +kernel
theorem test_modinv_G5_G15 :
    errAndBig 0x41543000 [(4, 17), (3, 3120)] 5 = some (.ok, 2753) ∧
    errAndBig 0x41443000 [(4, 7), (3, 2 ^ 4096 - 1)] 4 = some (.ok, (6 * (2 ^ 4096 - 1) + 1) / 7) := by decide +kernel

/-- G7, G8, G9: E_LOGIC; G10, G11, G12, G14: E_ARG; x[5] unchanged. -/
theorem test_modinv_errors :
    [(1, 3120), (6, 9), (3, 9)].all (fun (a, m) => errAndBig 0x41543000 [(4, a), (3, m), (5, 99)] 5 == some (.logic, 99)) ∧
    [(3120, 17), (0, 5), (3, 3), (3, 0)].all
      (fun (a, m) => errAndBig 0x41543000 [(4, a), (3, m), (5, 99)] 5 == some (.arg, 99)) := by decide +kernel

/-! ### Host interface (vectors H1 to H16) -/

/-- H1, H2: the reset values, and ID at two widths. -/
theorem test_reset_reads :
    readBack 0x000 State.reset = some 0x5243000700400008 ∧ readBack 0x000 (State.resetOf 32) = some 0x5243000700200008 ∧
    [0x008, 0x010, 0x018, 0x020, 0x040, 0x078].all (fun off => readBack off State.reset == some 0) := by decide +kernel

/-- H4: bus errors; the two ends of each reserved range. -/
theorem test_bus_errors :
    [Access.read 0x004 8, .read 0x010 4, .write 0x028 8 0, .read 0x038 8, .read 0x080 8, .read 0xFF8 8].all
      (fun a => match step (facing a State.reset) with | .fault .busError => true | _ => false) := by decide +kernel

/-- H5, H6: limb 0 is least significant; the last limb of the window. -/
theorem test_limb_offsets :
    let s := load [(1, 2 ^ 64 + 2), (7, 5 * 2 ^ 4032)] State.reset
    readBack 0x1200 s = some 2 ∧ readBack 0x1208 s = some 1 ∧ readBack 0x1210 s = some 0 ∧ readBack 0x1FF8 s = some 5 := by
  decide +kernel

/-- H7: a DIN write during SHA.UPDATE is lost; STATUS reads BUSY and OVR. -/
theorem test_busy_din_write :
    (nextOf (step (facing (.write 0x020 8 0xDEADBEEF00000000)
      (running 0x11000003 { State.reset with din := 0x6162630000000000 })))).map (fun t => (t.din, t.statusWord))
      = some (0x6162630000000000, 0x5) := by decide +kernel

/-- H9: write 1 to clear OVR, then DONE. -/
theorem test_status_write_one_to_clear :
    let s : State := { State.reset with doneFlag := true, ovr := true }
    (nextOf (step (facing (.write 0x010 8 0x4) s))).map State.statusWord = some 0x2 ∧
    (nextOf (step (facing (.write 0x010 8 0x2) s))).map State.statusWord = some 0x4 := by decide +kernel

/-- H11, H12: an illegal word completes with STATUS 0x102 and the interrupt. -/
theorem test_illegal_interrupts :
    (afterWord 0x13000000 { State.reset with ie := true }).map (fun t => (t.statusWord, t.irq)) = some (0x102, true) := by
  decide +kernel

/-- H15: a soft reset during BIG.MODEXP b3. -/
theorem test_soft_reset_in_flight :
    (nextOf (step (facing (.write 0x008 8 0x2)
      (running 0x31301200 { tens 64 with sha := contextOf [0x61, 0x62, 0x63] })))).any
      (fun t => t.statusWord == 0 && t.ctrlWord == 0 && t.cmd == 0 && t.din == 0 && !t.irq && t.sha == ShaContext.initial &&
        [0, 1, 2, 4, 5, 6, 7].map t.big == [10, 11, 12, 14, 15, 16, 17]) := by decide +kernel

/-- E19: bits 63:32 of a CMD write are ignored, and CMD reads back zero-extended. -/
theorem test_cmd_high_half_ignored :
    ((nextOf (step (facing (.write 0x018 8 0xFFFFFFFF10000000) State.reset))).bind (readBack 0x018)) = some 0x10000000 := by
  decide +kernel

/-! ### Witnesses: states and operands that meet the hypotheses of the statements -/

/-- An idle machine with limbs of two words and the given turns. -/
def idle (turns : List Turn) : State := { tens 2 with agenda := turns }

/-- A machine of the same width with a command in flight and the given turns. -/
def inFlight (i : Instr) (turns : List Turn) : State := { (tens 2).accept (encode i) with agenda := turns }

theorem inv_of {s : State} (h1 : Config.legalLimbs s.limbs = true) (h2 : ∀ r : Reg, s.big r < 2 ^ s.bigw)
    (h3 : ∀ r : Reg, (s.reg r).written.length = s.limbs) (h4 : s.busy = true → s.doneFlag = false ∧ s.err = .ok)
    (h5 : s.flagCount ≤ 1) (h6 : s.sha.bc.toNat % 1024 = 8 * s.sha.bf.val) (h7 : s.work = []) : s.Inv :=
  ⟨h1, h2, h3, h4, h5, h6, h7⟩

/-- A command completes next, whichever of the two ways the engine's turn comes. -/
theorem completes_of {s : State} {i : Instr} (hb : s.busy = true) (hd : decode s.cmd = .ok i)
    (ha : s.agenda.head? = none ∨ s.agenda.head? = some .engine) : s.completes i := by
  refine ⟨hb, hd, ?_⟩
  cases hl : s.agenda with
  | nil => exact .inl hl
  | cons x rest =>
    have : x = .engine := by simpa [hl] using ha
    exact .inr ⟨rest, by rw [hl, this]⟩

theorem witness_DecodeOfEncodeIsIdentity :
    (Instr.shaUpdate 255).wf = true ∧ (Instr.bigLdi 7 1048575).wf = true ∧ (Instr.bigShr 7 7 65535).wf = true ∧
    (Instr.bigModexp 7 7 7 7).wf = true := by decide

theorem witness_EncodeOfDecodeIsIdentity :
    decode 0x110000FF = .ok (.shaUpdate 255) ∧ decode 0x217FFFFF = .ok (.bigLdi 7 1048575) ∧
    decode 0x31777700 = .ok (.bigModexp 7 7 7 7) := by decide +kernel

theorem witness_AtMostOneRowMatches :
    (∃ r1 ∈ opcodeMap, ∃ r2 ∈ opcodeMap, r1.opcode = r2.opcode) ∧
    ∃ r1 ∈ opcodeMap, ∃ r2 ∈ opcodeMap,
      (0x41777000 : CmdWord) &&& r1.mask = r1.pattern ∧ (0x41777000 : CmdWord) &&& r2.mask = r2.pattern := by decide +kernel

/-- Both ends of every range of unassigned opcodes, a reserved bit of each format, and an illegal word in flight. -/
theorem witness_IllegalWordsCompleteWithIllegal :
    ([0x00, 0x0F, 0x13, 0x1F, 0x28, 0x2F, 0x32, 0x3F, 0x42, 0xFF].all (fun op =>
      let w : CmdWord := BitVec.ofNat 32 (op * 2 ^ 24 + 0xFFFFFF)
      let o := (w.extractLsb' 24 8).toNat
      decide (o ≤ 0x0F ∨ (0x13 ≤ o ∧ o ≤ 0x1F) ∨ (0x28 ≤ o ∧ o ≤ 0x2F) ∨ (0x32 ≤ o ∧ o ≤ 0x3F) ∨ 0x42 ≤ o))) = true ∧
    (([0x10000001, 0x11000100, 0x20800000, 0x21800000, 0x26080000, 0x31000001] : List CmdWord).all (fun w =>
      opcodeMap.any (fun row => decide (w.extractLsb' 24 8 = row.opcode ∧ w &&& row.mask ≠ row.pattern)))) = true ∧
    (running 0x13000000 State.reset).busy = true ∧
    decode (running 0x13000000 State.reset).cmd = .error .unassignedOpcode := by decide +kernel

theorem witness_EngineTurnRunsDecodedCommand :
    (inFlight (.bigMov 0 1) []).completes (.bigMov 0 1) ∧
    (inFlight (.bigModinv 5 4 3) [.engine, .powerOn]).completes (.bigModinv 5 4 3) :=
  ⟨completes_of (by decide +kernel) (by decide +kernel) (by decide),
   completes_of (by decide +kernel) (by decide +kernel) (by decide)⟩

theorem witness_CmdWriteIsAcceptedThenRun :
    let s := idle [.host (.write 0x018 8 0xFFFFFFFF20010000), .engine]
    s.busy = false ∧ s.agenda = .host (.write 0x018 8 0xFFFFFFFF20010000) :: [.engine] ∧
    decode ((0xFFFFFFFF20010000 : Word).extractLsb' 0 32) = .ok (.bigMov 0 1) := by decide +kernel

theorem witness_PlacedWordRunsNext : decode (BitVec.ofNat 32 0x41777000) = .ok (.bigModinv 7 7 7) := by decide +kernel

/-- A completion that succeeds and one that ends with an error. -/
theorem witness_CompletionIsPrecise :
    (inFlight (.bigMov 0 1) []).busy = true ∧ (inFlight (.shaUpdate 9) []).busy = true ∧
    (nextOf (engineTurn (inFlight (.shaUpdate 9) []))).map State.err = some .arg := by decide +kernel

/-- A command and a state for each code and each disjunct. -/
theorem witness_CodesAreRaisedByTheirCommands :
    ([.shaUpdate 0, .shaUpdate 9, .bigMod 0 1 2, .bigModmul 0 1 3 2, .bigModexp 0 1 3 2, .bigModinv 0 2 1, .bigModinv 0 1 2,
        .bigModinv 0 4 1, .bigModinv 0 1 1].all
      (fun i => (nextOf (exec i (load [(2, 0)] (tens 2)))).map State.err == some .arg)) = true ∧
    ([.bigModinv 0 6 7, .bigModinv 0 6 5].all
      (fun i => (nextOf (exec i (load [(6, 6), (7, 12), (5, 9)] (tens 2)))).map State.err == some .logic)) = true ∧
    ([.bigAdd 0 1 2, .bigSub 0 2 1, .bigMul 0 1 1].all
      (fun i => (nextOf (exec i (load [(1, 2 ^ 128 - 1), (2, 1)] (tens 2)))).map State.err == some .range)) = true := by
  decide +kernel

/-- A limb of a source register, a DOUT word under a big-integer command, and DIN under SHA.DIGEST. -/
theorem witness_WindowUnchangedOutsideResult :
    (∃ t, exec (.bigMov 0 1) (tens 2) = .next t) ∧ target 2 0x1018 = some (.limb 1 1) ∧ writesReg (.bigMov 0 1) = some 0 ∧
    target 2 0x078 = some (.dout 7) ∧ (∃ t, exec .shaDigest (tens 2) = .next t) ∧ target 2 0x020 = some .din :=
  ⟨exists_next (by decide +kernel), by decide +kernel, by decide, by decide +kernel, exists_next (by decide +kernel),
   by decide +kernel⟩

/-- Both ends of each reserved range, a misaligned and a narrow access, and the first offset past the window; no two clauses
meet. -/
theorem witness_StepStopsExactlyAtIllegalAccess :
    [Access.read 0x004 8, .read 0x010 4, .write 0x028 8 0, .read 0x038 8, .read 0x080 8, .read 0xFF8 8, .read 0x1081 8].all
      (fun a => match step (facing a (tens 2)) with | .fault .busError => true | _ => false) ∧
    (match step (facing (.read 0x1080 8) (tens 2)) with | .fault .outsideWindow => true | _ => false) = true ∧
    [Access.read 0x020 8, .write 0x040 8 0, .read 0x078 8, .read 0x1000 8, .write 0x1078 8 0].all
      (fun a => (nextOf (step (facing a (tens 2)))).isSome) := by decide +kernel

/-- A read, a discarded write and a STATUS write before the completion. -/
theorem witness_AcceptedCommandCompletes :
    let s := inFlight (.bigMov 0 1) [turnLd 0x1000, turnSt 0x020 7, turnSt 0x010 6, turnSt 0x008 1, .engine]
    s.busy = true ∧ ∀ turn ∈ s.agenda, harmlessTurn s.limbs turn = true := by decide +kernel

/-- One idle state for each register, the last DOUT word and the last limb of the last register. -/
theorem witness_IdleReadReturnsValue :
    ([0x000, 0x008, 0x010, 0x018, 0x020, 0x040, 0x078, 0x1000, 0x1078].all (fun off =>
      (target (idle [turnLd off]).limbs off).isSome && decide (off % 8 = 0) && !(idle [turnLd off]).busy &&
      decide ((idle [turnLd off]).agenda = .host (.read off 8) :: []))) = true ∧
    0x040 + 8 * (7 : Fin 8).val = 0x078 ∧ 1 < (idle []).limbs ∧
    0x1000 + (7 : Reg).val * (8 * (idle []).limbs) + 8 * 1 = 0x1078 := by decide +kernel

/-- One idle state for each clause; a limb clause at the last limb of the last register. -/
theorem witness_IdleWriteEffects :
    (idle [turnSt 0x000 1]).busy = false ∧ (idle [turnSt 0x000 1]).agenda = .host (.write 0x000 8 1) :: [] ∧
    (idle [turnSt 0x078 1]).agenda = .host (.write (doutOffset 7) 8 1) :: [] ∧
    (1 : Word).getLsbD 1 = false ∧ (idle [turnSt 0x008 1]).agenda = .host (.write 0x008 8 1) :: [] ∧
    (3 : Word).getLsbD 1 = true ∧ (idle [turnSt 0x008 3]).agenda = .host (.write 0x008 8 3) :: [] ∧
    (idle [turnSt 0x010 6]).agenda = .host (.write 0x010 8 6) :: [] ∧
    (idle [turnSt 0x018 6]).agenda = .host (.write 0x018 8 6) :: [] ∧
    (idle [turnSt 0x020 6]).agenda = .host (.write 0x020 8 6) :: [] ∧
    (1 < (idle []).limbs) ∧ (idle [turnSt 0x1078 6]).agenda = .host (.write (limbOffset (idle []).limbs 7 1) 8 6) :: [] := by
  decide +kernel

/-- One state in flight for each target of each clause. -/
theorem witness_BusyAccesses :
    ([(0x018, .cmd), (0x020, .din), (0x1078, .limb 7 1), (0x008, .ctrl), (0x010, .status), (0x000, .id), (0x078, .dout 7),
        (0x040, .dout 0), (0x1000, .limb 0 0)].all (fun (off, tg) =>
      (inFlight (.bigMov 0 1) [turnSt off 3]).busy && decide (off % 8 = 0) &&
        decide (target (inFlight (.bigMov 0 1) [turnSt off 3]).limbs off = some tg))) = true ∧
    (inFlight (.bigMov 0 1) [turnSt 0x008 3]).agenda = .host (.write 0x008 8 3) :: [] ∧
    (inFlight (.bigMov 0 1) [turnLd 0x078]).agenda = .host (.read 0x078 8) :: [] ∧
    (1 : Word).getLsbD 1 = false ∧ (3 : Word).getLsbD 1 = true := by decide +kernel

/-- The same limb, another limb of the register, a limb of another register. -/
theorem witness_LimbReadsBackAfterWrite :
    [((7 : Reg), 1), (7, 0), (6, 1)].all (fun (r', k) =>
      let s := idle [turnSt (limbOffset 2 7 1) 9, turnLd (limbOffset 2 r' k)]
      !s.busy && decide (1 < s.limbs) && decide (k < s.limbs) &&
        decide (s.agenda = .host (.write (limbOffset s.limbs 7 1) 8 9) :: .host (.read (limbOffset s.limbs r' k) 8) :: [])) := by
  decide +kernel

theorem inv_idle (turns : List Turn) : (idle turns).Inv :=
  inv_of (s := idle turns) (show Config.legalLimbs (idle []).limbs = true by decide +kernel)
    (show ∀ r : Reg, (idle []).big r < 2 ^ (idle []).bigw by decide +kernel)
    (show ∀ r : Reg, ((idle []).reg r).written.length = (idle []).limbs by decide +kernel)
    (fun h => absurd (show (idle []).busy = true from h) (by decide +kernel)) (show (idle []).flagCount ≤ 1 by decide +kernel)
    (show (idle []).sha.bc.toNat % 1024 = 8 * (idle []).sha.bf.val by decide +kernel) rfl

/-- The largest value a register holds. -/
theorem witness_StbigLoadsTheInteger :
    let s := idle (turnsStbig 2 7 (2 ^ 128 - 1))
    s.busy = false ∧ s.Inv ∧ 2 ^ 128 - 1 < 2 ^ s.bigw ∧ s.agenda = turnsStbig s.limbs 7 (2 ^ 128 - 1) :=
  ⟨by decide +kernel, inv_idle _, by decide +kernel, by decide +kernel⟩

theorem witness_IdIsConstant :
    Config.legalLimbs (State.resetOf 2).limbs = true ∧ Config.legalLimbs (State.resetOf 512).limbs = true ∧
    (idle [turnLd 0x000]).agenda = .host (.read 0x000 8) :: [] ∧
    (idle [turnSt 0x000 5]).agenda = .host (.write 0x000 8 5) :: [] ∧ ∃ t, step (idle [turnSt 0x000 5]) = .next t :=
  ⟨by decide, by decide, by decide +kernel, by decide +kernel, exists_next (by decide +kernel)⟩

theorem witness_ControlAndStatusLayout : (0 : Nat) < 64 ∧ (18 : Nat) < 64 ∧ (63 : Nat) < 64 := by decide

/-- The first and the last offset of the window at its smallest width. -/
theorem witness_WindowIsAlignedAndDecoded :
    (0 < Config.windowBytes 2 ∧ 0x1078 < Config.windowBytes 2) ∧ 0x1000 + 8 * (8 * 2) ≤ 2 ^ 13 ∧
    Config.offsetOf 2 (Config.hostAddress 2 0x1078) = some 0x1078 := by
  refine ⟨by decide, by decide, ?_⟩
  simp [Config.offsetOf, Config.hostAddress, Config.windowBytes, Config.nreg]

/-- Idle, and with BIG.MODEXP b3 in flight. -/
theorem witness_SoftResetEffects :
    (idle [turnSt 0x008 2]).softResetNext ∧ (inFlight (.bigModexp 3 0 1 2) [turnSt 0x008 3]).softResetNext ∧
    (inFlight (.bigModexp 3 0 1 2) [turnSt 0x008 3]).busy = true ∧
    decode (inFlight (.bigModexp 3 0 1 2) [turnSt 0x008 3]).cmd = .ok (.bigModexp 3 0 1 2) ∧
    writesReg (.bigModexp 3 0 1 2) = some 3 :=
  ⟨⟨2, [], rfl, by decide⟩, ⟨3, [], rfl, by decide⟩, by decide +kernel, by decide +kernel, rfl⟩

theorem witness_PowerOnEffects : (inFlight (.bigModexp 3 0 1 2) [.powerOn]).powerOnNext := ⟨[], rfl⟩

/-- A comparison and a soft reset. -/
theorem witness_FlagsChangeOnlyByCompareOrReset :
    (inFlight (.bigCmp 0 1) []).completes (.bigCmp 0 1) ∧ (∃ t, step (inFlight (.bigCmp 0 1) []) = .next t) ∧
    (idle [turnSt 0x008 2]).softResetNext ∧ (∃ t, step (idle [turnSt 0x008 2]) = .next t) :=
  ⟨completes_of (by decide +kernel) (by decide +kernel) (by decide), exists_next (by decide +kernel), ⟨2, [], rfl, by decide⟩,
   exists_next (by decide +kernel)⟩

/-- DONE set, with a turn that clears it and one that does not. -/
theorem witness_DoneClearsExactlyOn :
    let s (turns : List Turn) : State := { idle turns with doneFlag := true }
    ((s [turnSt 0x010 2]).doneFlag = true ∧ ∃ t, step (s [turnSt 0x010 2]) = .next t ∧ t.doneFlag = false) ∧
    ((s [turnSt 0x010 4]).doneFlag = true ∧ ∃ t, step (s [turnSt 0x010 4]) = .next t ∧ t.doneFlag = true) :=
  ⟨⟨rfl, _, rfl, by decide +kernel⟩, ⟨rfl, _, rfl, by decide +kernel⟩⟩

/-- An error completion with IE = 1, and IE set while DONE = 1. -/
theorem witness_IrqAssertsAtCompletion :
    (let s : State := { inFlight (.shaUpdate 0) [] with ie := true }
     s.busy = true ∧ s.engineNext ∧ ∃ t, step s = .next t) ∧
    (let s : State := { idle [turnSt 0x008 1] with doneFlag := true }
     s.writeNext 0x008 1 ∧ (1 : Word).getLsbD 1 = false ∧ ∃ t, step s = .next t) :=
  ⟨⟨by decide +kernel, .inl rfl, exists_next (by decide +kernel)⟩, ⟨[], rfl⟩, by decide, exists_next (by decide +kernel)⟩

/-- A discarded write of each kind of target, and OVR cleared by the host. -/
theorem witness_OverrunIsStickyAndHarmless :
    ([(0x018, .cmd), (0x020, .din), (0x1078, .limb 7 1)].all (fun (off, tg) =>
      let s := inFlight (.bigMov 0 1) [turnSt off 7]
      s.busy && !s.ovr && decide (s.agenda = .host (.write off 8 7) :: []) && decide (target s.limbs off = some tg) &&
        decide ((nextOf (step s)).map State.ovr = some true))) = true ∧
    (let s : State := { idle [turnSt 0x010 4] with ovr := true }
     s.ovr = true ∧ (nextOf (step s)).map State.ovr = some false) := by decide +kernel

/-- A big-integer command in flight, another context, and a faulting access. -/
theorem witness_ShaContextIsEncapsulated :
    (∀ n, ¬ (inFlight (.bigMov 0 1) []).completes (.shaUpdate n)) ∧ ¬ (inFlight (.bigMov 0 1) []).completes .shaDigest ∧
    (∃ t, step (inFlight (.bigMov 0 1) []) = .next t) ∧ contextOf [0x61] ≠ ShaContext.initial ∧
    (∀ n, ¬ (idle [turnLd 0x004]).completes (.shaUpdate n)) ∧ step (idle [turnLd 0x004]) = .fault .busError := by
  have hd : decode (inFlight (.bigMov 0 1) []).cmd = .ok (.bigMov 0 1) := by decide +kernel
  have other (i : Instr) (hi : Instr.bigMov 0 1 ≠ i) : ¬ (inFlight (.bigMov 0 1) []).completes i :=
    fun h => hi (Except.ok.inj (hd.symm.trans h.2.1))
  exact ⟨fun n => other _ (by simp), other _ (by simp), exists_next (by decide +kernel), by decide +kernel,
    fun n h => absurd h.1 (by decide +kernel), rfl⟩

/-- A DIN write, and SHA.DIGEST. -/
theorem witness_DinAndDoutWriters :
    (∃ t, step (idle [turnSt 0x020 7]) = .next t) ∧ ∃ t, step (inFlight .shaDigest []) = .next t :=
  ⟨exists_next (by decide +kernel), exists_next (by decide +kernel)⟩

/-- A limb write, and a command with an rd. -/
theorem witness_RegisterWriters :
    (∃ t, step (idle [turnSt 0x1078 7]) = .next t) ∧ ∃ t, step (inFlight (.bigLdi 7 5) []) = .next t :=
  ⟨exists_next (by decide +kernel), exists_next (by decide +kernel)⟩

theorem witness_WrittenLimbsStayWritten :
    let s := idle [turnSt 0x1078 7]
    s.Inv ∧ (∃ t, step s = .next t) ∧ ¬ s.powerOnNext ∧ (s.reg 7).written.getD 1 false = true :=
  ⟨inv_idle _, exists_next (by decide +kernel),
   (fun h => by obtain ⟨rest, h⟩ := h; simp [idle, turnSt] at h), by decide +kernel⟩

theorem witness_OperandsAreHeldWhileBusy :
    let s := inFlight (.bigMov 0 1) [turnSt 0x1008 7]
    s.busy = true ∧ s.agenda = .host (.write 0x1008 8 7) :: [] ∧ ¬ s.softResetNext ∧ ∃ t, step s = .next t :=
  ⟨by decide +kernel, rfl, fun h => by obtain ⟨v, rest, h, -⟩ := h; simp [inFlight, turnSt] at h,
   exists_next (by decide +kernel)⟩

/-- `BIG.MOV b2, b1` in flight where B1 is written and B0, which nothing has written, holds `v`. -/
def unwrittenHolds (v : Nat) : State :=
  let s := (load [(1, 7)] (State.resetOf 2)).accept (encode (.bigMov 2 1))
  { s with regs := s.regs.set 0 ⟨v, [false, false]⟩ }

theorem inv_unwrittenHolds_0 : (unwrittenHolds 0).Inv :=
  inv_of (by decide +kernel) (by decide +kernel) (by decide +kernel) (by decide +kernel) (by decide +kernel)
    (by decide +kernel) (by decide +kernel)

theorem inv_unwrittenHolds_5 : (unwrittenHolds 5).Inv :=
  inv_of (by decide +kernel) (by decide +kernel) (by decide +kernel) (by decide +kernel) (by decide +kernel)
    (by decide +kernel) (by decide +kernel)

theorem sameButUnwritten_0_5 : SameButUnwritten (unwrittenHolds 0) (unwrittenHolds 5) where
  rest := by decide +kernel
  marks := by decide +kernel
  limbs r j h := by
    have hbig : ∀ r : Reg, r ≠ 0 → (unwrittenHolds 5).big r = (unwrittenHolds 0).big r := by decide +kernel
    have hmark : ((unwrittenHolds 0).reg 0).written = [false, false] := by decide +kernel
    by_cases hr : r = 0
    · subst hr
      rw [hmark] at h
      rcases j with _ | _ | j <;> simp at h
    · rw [hbig r hr]

/-- Every kind of safe turn: a completion, a limb write and a CMD write while idle, a STATUS write and a soft-reset-free CTRL
write while busy, a limb read while idle, a STATUS read while busy, a power-on; and two states that differ in an unwritten
limb. -/
theorem witness_HazardFreeAccessesAreExact :
    ([inFlight (.bigMov 0 1) [], idle [turnSt 0x1078 7], idle [turnSt 0x018 7], idle [turnSt 0x020 7],
        inFlight (.bigMov 0 1) [turnSt 0x010 6], inFlight (.bigMov 0 1) [turnSt 0x008 1], idle [turnSt 0x008 2],
        idle [turnLd 0x1078], inFlight (.bigMov 0 1) [turnLd 0x010], idle [.powerOn]].all
      (fun s => s.safeTurn s.nextTurn && (nextOf (step s)).isSome)) = true ∧
    target (idle []).limbs 0x1078 = some (.limb 7 1) ∧
    ((unwrittenHolds 0).Inv ∧ (unwrittenHolds 5).Inv ∧ SameButUnwritten (unwrittenHolds 0) (unwrittenHolds 5) ∧
      unwrittenHolds 0 ≠ unwrittenHolds 5 ∧ (unwrittenHolds 0).safeTurn (unwrittenHolds 0).nextTurn = true ∧
      ∃ t, step (unwrittenHolds 0) = .next t) :=
  ⟨by decide +kernel, by decide +kernel, inv_unwrittenHolds_0, inv_unwrittenHolds_5, sameButUnwritten_0_5,
   by decide +kernel, by decide +kernel, exists_next (by decide +kernel)⟩

/-- A machine with work to do: an accept, then the completion. -/
theorem witness_EveryStepKeepsInv :
    (idle [turnCmd (.bigMul 0 1 2), .engine]).Inv ∧ ∃ t, step (idle [turnCmd (.bigMul 0 1 2), .engine]) = .next t :=
  ⟨inv_idle _, exists_next (by decide +kernel)⟩

theorem witness_LdiLoadsImmediate : (1048575 : Nat) ≤ 1048575 := by decide

/-- The largest sum that fits and the smallest that does not. -/
theorem witness_AddIsExactOrRange :
    (let s := load [(0, 2 ^ 128 - 2), (1, 1)] (tens 2); s.big 0 + s.big 1 < 2 ^ s.bigw) ∧
    (let s := load [(0, 2 ^ 128 - 1), (1, 1)] (tens 2); 2 ^ s.bigw ≤ s.big 0 + s.big 1) := by decide +kernel

/-- Equal operands, and a difference of -1. -/
theorem witness_SubIsExactOrRange :
    (tens 2).big 1 ≤ (tens 2).big 1 ∧ (tens 2).big 0 < (tens 2).big 1 := by decide +kernel

/-- 2^127, and 2^128. -/
theorem witness_MulIsExactOrRange :
    (let s := load [(0, 2 ^ 63), (1, 2 ^ 64)] (tens 2); s.big 0 * s.big 1 < 2 ^ s.bigw) ∧
    (let s := load [(0, 2 ^ 64), (1, 2 ^ 64)] (tens 2); 2 ^ s.bigw ≤ s.big 0 * s.big 1) := by decide +kernel

/-- A divisor of 1, and of 0. -/
theorem witness_ModIsRemainderOrArg :
    (load [(1, 1)] (tens 2)).big 1 ≠ 0 ∧ (load [(1, 0)] (tens 2)).big 1 = 0 := by decide +kernel

/-- The largest amount below BIGW, BIGW itself, the largest amount. -/
theorem witness_ShrDividesByPowerOfTwo :
    127 < (tens 2).bigw ∧ (tens 2).bigw ≤ 128 ∧ (tens 2).bigw ≤ 65535 ∧ (65535 : Nat) ≤ 65535 := by decide +kernel

/-- A modulus of 1, and of 0. -/
theorem witness_ModmulIsExactResidue :
    (load [(2, 1)] (tens 2)).big 2 ≠ 0 ∧ (load [(2, 0)] (tens 2)).big 2 = 0 := by decide +kernel

/-- 0 to the power 0 modulo 1 (a non-zero modulus, as the RSA clause asks too), and a modulus of 0. -/
theorem witness_ModexpIsExactPower :
    (let s := load [(0, 0), (1, 0), (2, 1)] (tens 2); s.big 2 ≠ 0 ∧ s.big 1 = 0) ∧
    (load [(2, 0)] (tens 2)).big 2 = 0 := by decide +kernel

/-- gcd(a, 0) and gcd(0, b). -/
theorem witness_GcdIsGreatestCommonDivisor :
    (load [(1, 0)] (tens 2)).big 1 = 0 ∧ (load [(0, 0)] (tens 2)).big 0 = 0 := by decide +kernel

/-- G13: the smallest operands, 2 and 3; and the largest modulus. -/
theorem witness_ModinvIsTheInverse :
    (let s := load [(4, 2), (3, 3)] (tens 2)
     1 < s.big 4 ∧ s.big 4 < s.big 3 ∧ Nat.gcd (s.big 4) (s.big 3) = 1) ∧
    (let s := load [(4, 2 ^ 128 - 2), (3, 2 ^ 128 - 1)] (tens 2)
     1 < s.big 4 ∧ s.big 4 < s.big 3 ∧ Nat.gcd (s.big 4) (s.big 3) = 1) := by decide +kernel

/-- a = 0, m = 0, a = m; a = 1 and a dividing m (zero steps); a greatest common divisor of 3. -/
theorem witness_ModinvErrors :
    (let s := load [(0, 0), (1, 1), (2, 2), (3, 3), (6, 6), (7, 9)] (tens 2)
     (s.big 0 = 0) ∧ (s.big 3 ≤ s.big 3) ∧
     (0 < s.big 1 ∧ s.big 1 < s.big 2 ∧ s.big 2 % s.big 1 = 0) ∧ (0 < s.big 3 ∧ s.big 3 < s.big 7 ∧ s.big 7 % s.big 3 = 0) ∧
     (0 < s.big 6 ∧ s.big 6 < s.big 7 ∧ s.big 7 % s.big 6 ≠ 0 ∧ Nat.gcd (s.big 6) (s.big 7) ≠ 1)) := by decide +kernel

/-- A block, and the first and last word of each clause. -/
theorem witness_ScheduleRecurrence :
    (letters 128).length = 128 ∧ (15 : Nat) < 16 ∧ (16 : Nat) ≤ 16 ∧ (79 : Nat) < 80 := by decide +kernel

theorem witness_RoundFunctionsBitwise : (0 : Nat) < 64 ∧ (63 : Nat) < 64 := by decide

/-- The working variables by the eight assignments of R102. -/
def runVars (blk : List Byte) (h : HashWords) : Nat → WorkingVars
  | 0 => ⟨h[0], h[1], h[2], h[3], h[4], h[5], h[6], h[7]⟩
  | t + 1 =>
    let v := runVars blk h t
    let t1 := v.h + sigma1Upper v.e + choice v.e v.f v.g + roundConstants.getD t 0 + (schedule blk).getD t 0
    let t2 := sigma0Upper v.a + majority v.a v.b v.c
    ⟨t1 + t2, v.a, v.b, v.c, v.d + t1, v.e, v.f, v.g⟩

/-- Section 2.2: the working variables of "abc" after rounds 0, 1 and 79. -/
theorem test_rounds_abc :
    let v := runVars (withLength (contextOf [0x61, 0x62, 0x63]).terminatedBlock 24) iv
    (v 1).a = 0xf6afceb8bcfcddf5 ∧ (v 1).e = 0x58cb02347ab51f91 ∧ (v 2).a = 0x1320f8c9fb872cc0 ∧
    (v 2).e = 0xc3d4ebfd48650ffa := by decide +kernel

theorem witness_CompressIsEightyRounds :
    let blk := letters 128
    let v := runVars blk iv
    blk.length = 128 ∧ v 0 = ⟨iv[0], iv[1], iv[2], iv[3], iv[4], iv[5], iv[6], iv[7]⟩ ∧
    (∀ t, t < 80 →
      let t1 := (v t).h + sigma1Upper (v t).e + choice (v t).e (v t).f (v t).g + roundConstants.getD t 0
        + (schedule blk).getD t 0
      let t2 := sigma0Upper (v t).a + majority (v t).a (v t).b (v t).c
      (v (t + 1)).h = (v t).g ∧ (v (t + 1)).g = (v t).f ∧ (v (t + 1)).f = (v t).e ∧ (v (t + 1)).e = (v t).d + t1 ∧
      (v (t + 1)).d = (v t).c ∧ (v (t + 1)).c = (v t).b ∧ (v (t + 1)).b = (v t).a ∧ (v (t + 1)).a = t1 + t2) :=
  ⟨rfl, rfl, fun _ _ => ⟨rfl, rfl, rfl, rfl, rfl, rfl, rfl, rfl⟩⟩

/-- n at the ends of each clause, a group that just stays below the end of the block, one that just fills it, one past it. -/
theorem witness_ShaUpdateAbsorbsDin :
    ((0 : Nat) = 0 ∧ (8 : Nat) < 9 ∧ (255 : Nat) ≤ 255 ∧ (1 : Nat) ≤ 1 ∧ (8 : Nat) ≤ 8) ∧
    (contextOf (letters 119)).bf.val + 8 < 128 ∧ 128 ≤ (contextOf (letters 120)).bf.val + 8 ∧
    128 ≤ (contextOf (letters 127)).bf.val + 1 := by decide +kernel

theorem witness_ShaDigestPadsACopy :
    (holding (letters 111)).sha.bf.val < 112 ∧ 112 ≤ (holding (letters 112)).sha.bf.val := by decide +kernel

/-- Two contexts that differ in a stale byte. -/
theorem witness_DigestIgnoresStaleBytes :
    let c := contextOf [0x61]
    let c' : ShaContext := { c with blk := c.blk.set 1 0xFF }
    c' ≠ c ∧ c'.h = c.h ∧ c'.bf = c.bf ∧ c'.bc = c.bc ∧ ∀ j : Fin 128, j.val < c.bf.val → c'.blk[j] = c.blk[j] := by
  decide +kernel

theorem witness_GroupPackingAgrees : (letters 8).length ≤ 8 ∧ ([] : List Byte).length ≤ 8 := by decide

/-- The message "abcaaaaaaaa" split in two ways, with groups of both bounding lengths. -/
theorem witness_ContextHoldsTheMessage :
    (∀ g ∈ [[0x61], [0x62, 0x63], letters 8], 1 ≤ g.length ∧ g.length ≤ 8) ∧
    (∀ g ∈ [[0x61, 0x62], 0x63 :: letters 7, letters 1], 1 ≤ g.length ∧ g.length ≤ 8) ∧
    [[0x61, 0x62], 0x63 :: letters 7, letters 1].flatten = [[0x61], [0x62, 0x63], letters 8].flatten := by decide

theorem witness_DigestIsSha512OfTheMessage :
    (∀ g ∈ [[0x61], [0x62, 0x63], letters 8], 1 ≤ g.length ∧ g.length ≤ 8) ∧
    8 * ([[0x61], [0x62, 0x63], letters 8] : List (List Byte)).flatten.length < 2 ^ 128 := by decide

/-- A machine whose SHA context holds 120 bytes, with the command in flight. -/
def holdingInFlight (i : Instr) : State := (holding (letters 120)).accept (encode i)

/-- The longest group, which fills the block; SHA.INIT; a command that leaves the context alone; SHA.DIGEST. -/
theorem witness_MessageGrowsOnlyByUpdate :
    HoldsMessage (letters 120) (holding (letters 120)).sha ∧
    ((holdingInFlight (.shaUpdate 8)).completes (.shaUpdate 8) ∧ ∃ t, step (holdingInFlight (.shaUpdate 8)) = .next t) ∧
    ((holdingInFlight .shaInit).completes .shaInit ∧ ∃ t, step (holdingInFlight .shaInit) = .next t) ∧
    ((holdingInFlight (.bigLdi 0 1)).completes (.bigLdi 0 1) ∧ ∃ t, step (holdingInFlight (.bigLdi 0 1)) = .next t) ∧
    ((holdingInFlight .shaDigest).completes .shaDigest ∧ ∃ t, step (holdingInFlight .shaDigest) = .next t) ∧
    8 * (letters 120).length < 2 ^ 128 :=
  ⟨⟨by decide +kernel, by decide +kernel, by decide +kernel, by decide +kernel⟩,
   ⟨completes_of (by decide +kernel) (by decide +kernel) (by decide), exists_next (by decide +kernel)⟩,
   ⟨completes_of (by decide +kernel) (by decide +kernel) (by decide), exists_next (by decide +kernel)⟩,
   ⟨completes_of (by decide +kernel) (by decide +kernel) (by decide), exists_next (by decide +kernel)⟩,
   ⟨completes_of (by decide +kernel) (by decide +kernel) (by decide), exists_next (by decide +kernel)⟩, by decide +kernel⟩

theorem witness_HostLinesComputeWhatTheyName :
    (inFlight (.bigMov 0 1) []).busy = true ∧
    ((idle []).busy = false ∧ (idle []).Inv ∧ 2 ^ 128 - 1 < 2 ^ (idle []).bigw) ∧
    8 * (letters 9).length < 2 ^ 128 :=
  ⟨by decide +kernel, ⟨by decide +kernel, inv_idle _, by decide +kernel⟩, by decide +kernel⟩

/-! ### The lines of R86 -/

/-- What a host line that answers a value gives, if the machine goes on. -/
def lineValue {α : Type} : Host.Outcome (α × State) Fault Refusal → Option α
  | .next got => some got.1
  | .fault _ => none
  | .refused _ => none

/-- H11 and its like: `wait` gives 0x202 for sha.update 0 whether the engine completes before the first poll or after two; the
check of `run` fails there and holds for big.ldi. -/
theorem test_wait_and_run :
    lineValue (hostWait 0 (inFlight (.shaUpdate 0) [])) = some 0x202 ∧
    lineValue (hostWait 2 (inFlight (.shaUpdate 0) [])) = some 0x202 ∧
    lineValue (hostRun 1 (.shaUpdate 0) (idle [])) = some false ∧ lineValue (hostRun 1 (.bigLdi 0 1) (idle [])) = some true := by
  decide +kernel

/-- H5: `ldbig` of a register that holds 2^64 + 2. -/
theorem test_ldbig : lineValue (hostLdbig 1 (load [(1, 2 ^ 64 + 2)] (tens 2))) = some (2 ^ 64 + 2) := by decide +kernel

/-- `absorb` cuts 17 bytes into groups of 8, 8 and 1, and `digest -> D` gives the bytes of V2. -/
theorem test_absorb_and_digest :
    (byteGroups (letters 17)).map List.length = [8, 8, 1] ∧
    (lineValue (hostDigest 0 (holding [0x61, 0x62, 0x63]))).map (Option.map (List.take 9))
      = some (some [0xdd, 0xaf, 0x35, 0xa1, 0x93, 0x61, 0x7a, 0xba, 0xcc]) := by decide +kernel

end Sys2Proof.Tests
end

section
/-! SUPPORT. What a step does to one part of the state: the result of a completion as a function of the command's inputs,
the frame of a host access, and the next state for each kind of turn. -/

namespace Sys2Proof.Machine

/-! ### A completion writes a result that the command's inputs determine (spec/10_state.md R37) -/

/-- What the completion of a command leaves in the state beside STATUS (spec/60_exceptions.md R191, R193). -/
inductive Effect where
  /-- an error: nothing -/
  | error (e : ErrCode)
  /-- one big-integer register -/
  | register (rd : Reg) (v : Nat)
  /-- the comparison flags of `a` and `b` -/
  | flags (a b : Nat)
  /-- the SHA context -/
  | context (c : ShaContext)
  /-- DOUT -/
  | digest (d : HashWords)

/-- The state after a completion with the given result. -/
def Effect.on : Effect → State → State
  | .error e, s => s.finish e
  | .register rd v, s => (s.writeBig rd v).finish .ok
  | .flags a b, s => (s.writeCompareFlags a b).finish .ok
  | .context c, s => { s with sha := c }.finish .ok
  | .digest d, s => { s with dout := d }.finish .ok

@[simp] theorem Effect.on_limbs (e : Effect) (s : State) : (e.on s).limbs = s.limbs := by cases e <;> rfl

/-- Two states give a command the same inputs: the registers it names, the width, and DIN and the SHA context for the two
commands that read them (R33, R34, R76). -/
structure SameInputs (i : Instr) (s s' : State) : Prop where
  limbs : s'.limbs = s.limbs
  operands : ∀ r ∈ operandRegs i, s'.big r = s.big r
  update : ∀ n, i = .shaUpdate n → s'.sha = s.sha ∧ s'.din = s.din
  digest : i = .shaDigest → s'.sha = s.sha

theorem SameInputs.refl (i : Instr) (s : State) : SameInputs i s s :=
  ⟨rfl, fun _ _ => rfl, fun _ _ => ⟨rfl, rfl⟩, fun _ => rfl⟩

theorem SameInputs.bigw {i : Instr} {s s' : State} (h : SameInputs i s s') : s'.bigw = s.bigw := by
  simp only [State.bigw, h.limbs]

/-- After the forward pass BIG.MODINV reads no more than the recorded steps, which the completion discards (R36, R155). -/
theorem finishModinv_effect (rd : Reg) (m g : Nat) (steps : List EuclidStep) (s s' : State) :
    ∃ e : Effect, finishModinv rd m g (s.recordWork steps) = .next (e.on s) ∧
      finishModinv rd m g (s'.recordWork steps) = .next (e.on s') := by
  by_cases hnone : steps = []
  · refine ⟨.error .logic, ?_, ?_⟩ <;> simp [finishModinv, hnone, raiseErr, Effect.on]
  by_cases hg : g = 1
  · by_cases h0 : inverseCandidate m steps = 0
    · refine ⟨.error .logic, ?_, ?_⟩ <;> simp [finishModinv, h0, raiseErr, Effect.on]
    · refine ⟨.register rd (inverseCandidate m steps), ?_, ?_⟩ <;>
        simp [finishModinv, hnone, hg, h0, complete, Effect.on]
  · refine ⟨.error .logic, ?_, ?_⟩ <;> simp [finishModinv, hg, raiseErr, Effect.on]

/-- A completion is a function of the command's inputs: the same inputs give the same effect, in whatever state (R37). -/
theorem exec_effect {i : Instr} {s s' : State} (h : SameInputs i s s') :
    ∃ e : Effect, exec i s = .next (e.on s) ∧ exec i s' = .next (e.on s') := by
  have hreg := h.operands
  cases i with
  | shaInit => exact ⟨.context ShaContext.initial, rfl, rfl⟩
  | shaUpdate n =>
    obtain ⟨hsha, hdin⟩ := h.update n rfl
    simp only [exec, execShaUpdate]
    split
    · exact ⟨.error .arg, rfl, rfl⟩
    · exact ⟨.context (s.sha.absorb (dinBytes s.din n)), rfl, by rw [← hsha, ← hdin]; rfl⟩
  | shaDigest => exact ⟨.digest s.sha.digest, rfl, by rw [← h.digest rfl]; rfl⟩
  | bigLdi rd imm20 => exact ⟨.register rd _, rfl, rfl⟩
  | bigMov rd rs1 =>
    simp only [operandRegs, List.forall_mem_singleton] at hreg
    simp only [exec, execBigMov, hreg]
    exact ⟨.register rd _, rfl, rfl⟩
  | bigAdd rd rs1 rs2 =>
    simp only [operandRegs, List.forall_mem_cons] at hreg
    simp only [exec, execBigAdd, hreg, h.bigw]
    split
    · exact ⟨.error .range, rfl, rfl⟩
    · exact ⟨.register rd _, rfl, rfl⟩
  | bigSub rd rs1 rs2 =>
    simp only [operandRegs, List.forall_mem_cons] at hreg
    simp only [exec, execBigSub, hreg]
    split
    · exact ⟨.error .range, rfl, rfl⟩
    · exact ⟨.register rd _, rfl, rfl⟩
  | bigMul rd rs1 rs2 =>
    simp only [operandRegs, List.forall_mem_cons] at hreg
    simp only [exec, execBigMul, hreg, h.bigw]
    split
    · exact ⟨.error .range, rfl, rfl⟩
    · exact ⟨.register rd _, rfl, rfl⟩
  | bigMod rd rs1 rs2 =>
    simp only [operandRegs, List.forall_mem_cons] at hreg
    simp only [exec, execBigMod, hreg]
    split
    · exact ⟨.error .arg, rfl, rfl⟩
    · exact ⟨.register rd _, rfl, rfl⟩
  | bigShr rd rs1 imm16 =>
    simp only [operandRegs, List.forall_mem_singleton] at hreg
    simp only [exec, execBigShr, hreg, h.bigw]
    split <;> exact ⟨.register rd _, rfl, rfl⟩
  | bigCmp rs1 rs2 =>
    simp only [operandRegs, List.forall_mem_cons] at hreg
    simp only [exec, execBigCmp, hreg]
    exact ⟨.flags _ _, rfl, rfl⟩
  | bigModmul rd rs1 rs2 rs3 =>
    simp only [operandRegs, List.forall_mem_cons] at hreg
    simp only [exec, execBigModmul, hreg]
    split
    · exact ⟨.error .arg, rfl, rfl⟩
    · exact ⟨.register rd _, rfl, rfl⟩
  | bigModexp rd rs1 rs2 rs3 =>
    simp only [operandRegs, List.forall_mem_cons] at hreg
    simp only [exec, execBigModexp, hreg]
    split
    · exact ⟨.error .arg, rfl, rfl⟩
    · exact ⟨.register rd _, rfl, rfl⟩
  | bigGcd rd rs1 rs2 =>
    simp only [operandRegs, List.forall_mem_cons] at hreg
    simp only [exec, execBigGcd, hreg]
    exact ⟨.register rd _, rfl, rfl⟩
  | bigModinv rd rs1 rs2 =>
    simp only [operandRegs, List.forall_mem_cons] at hreg
    simp only [exec, execBigModinv, hreg]
    split
    · exact ⟨.error .arg, rfl, rfl⟩
    · exact finishModinv_effect ..

/-! ### The next state, for each kind of turn -/

theorem step_engine {s : State} (h : s.engineNext) : step s = engineTurn s.popTurn := by
  obtain ⟨limbs, regs, ie, busy, done, ovr, err, eq, lt, gt, cmd, din, dout, sha, work, agenda, readData, draws⟩ := s
  rcases h with h | ⟨rest, h⟩ <;> cases h <;> rfl

theorem step_host {s : State} {a : Access} {rest : List Turn} (h : s.agenda = .host a :: rest) :
    step s = hostTurn a s.popTurn := by
  simp [step, State.popTurn, h]

theorem step_powerOn {s : State} (h : s.powerOnNext) : step s = .next s.popTurn.powerOnReset := by
  obtain ⟨rest, h⟩ := h
  simp [step, State.popTurn, h]

theorem engineTurn_command {s : State} {i : Instr} (hb : s.busy = true) (hd : decode s.cmd = .ok i) :
    engineTurn s = exec i s := by
  simp [engineTurn, hb, hd]

theorem engineTurn_illegal {s : State} {d : DecodeError} (hb : s.busy = true) (hd : decode s.cmd = .error d) :
    engineTurn s = .next (s.finish .illegal) := by
  simp [engineTurn, hb, hd, completeIllegal, raiseErr]

theorem engineTurn_idle {s : State} (hb : s.busy = false) : engineTurn s = .next s := by
  simp [engineTurn, hb]

theorem step_completes {s : State} {i : Instr} (h : s.completes i) : step s = exec i s.popTurn :=
  (step_engine h.2.2).trans (engineTurn_command h.1 h.2.1)

/-- The three kinds of turn: the engine's, the host's, power-on (R20). -/
theorem State.nextTurn_cases (s : State) :
    s.engineNext ∨ (∃ a rest, s.agenda = .host a :: rest) ∨ s.powerOnNext := by
  rcases step_cases s with ⟨h, -⟩ | ⟨rest, h, -⟩ | ⟨a, rest, h, -⟩ | ⟨rest, h, -⟩
  · exact .inl (.inl h)
  · exact .inl (.inr ⟨rest, h⟩)
  · exact .inr (.inl ⟨a, rest, h⟩)
  · exact .inr (.inr ⟨rest, h⟩)

/-! ### Writes of CTRL: a soft reset, or IE alone (R28, R51) -/

theorem State.writeCtrl_reset {s : State} {v : Word} (h : v.getLsbD 1 = true) :
    s.writeCtrl v = { s with ie := v.getLsbD 0 }.softReset := if_pos h

theorem State.writeCtrl_noReset {s : State} {v : Word} (h : ¬ v.getLsbD 1 = true) :
    s.writeCtrl v = { s with ie := v.getLsbD 0 } := if_neg h

@[simp] theorem hostWrite_ctrl (v : Word) (s : State) : hostWrite .ctrl v s = s.writeCtrl v := by
  simp [hostWrite, Target.writeGuarded]

/-- The host write that is a soft reset, by its target (R47, R216). -/
theorem softResetNext_of_ctrl {s : State} {off : Nat} {v : Word} {tg : Target} {rest : List Turn}
    (ha : s.agenda = .host (.write off 8 v) :: rest) (ht : target s.limbs off = some tg) (htg : tg = .ctrl)
    (hv : v.getLsbD 1 = true) : s.softResetNext := by
  obtain rfl : off = 0x008 := (target_control ht).2.1 htg
  exact ⟨v, rest, ha, hv⟩

theorem step_softReset {s : State} (h : s.softResetNext) :
    ∃ ie, step s = .next { s.popTurn with ie := ie }.softReset := by
  obtain ⟨v, rest, ha, hv⟩ := h
  have hp : s.popTurn = { s with agenda := rest } := by simp [State.popTurn, ha]
  refine ⟨v.getLsbD 0, ?_⟩
  rw [step_hostWrite ha (tg := .ctrl) rfl rfl, ← hp, hostWrite_ctrl, State.writeCtrl_reset hv]

/-! ### What no step changes: the width (R13, R27) -/

@[simp] theorem hostRead_limbs (tg : Target) (s : State) : (hostRead tg s).limbs = s.limbs := by
  unfold hostRead; split <;> rfl

@[simp] theorem State.writeCtrl_limbs (s : State) (v : Word) : (s.writeCtrl v).limbs = s.limbs := by
  by_cases hv : v.getLsbD 1 = true
  · rw [State.writeCtrl_reset hv, State.softReset_limbs]
  · rw [State.writeCtrl_noReset hv]

@[simp] theorem hostWrite_limbs (tg : Target) (v : Word) (s : State) : (hostWrite tg v s).limbs = s.limbs := by
  rcases hostWrite_cases tg v s with
    ⟨-, -, h⟩ | ⟨-, ⟨-, h⟩ | ⟨-, h⟩ | ⟨-, h⟩ | ⟨-, h⟩ | ⟨r, j, -, h⟩ | ⟨-, h⟩⟩ <;> simp [h]

theorem exec_limbs {i : Instr} {s t : State} (h : exec i s = .next t) : t.limbs = s.limbs := by
  obtain ⟨e, he, -⟩ := exec_effect (SameInputs.refl i s)
  obtain rfl := Host.Outcome.next.inj (he.symm.trans h)
  exact e.on_limbs s

theorem step_limbs {s t : State} (h : step s = .next t) : t.limbs = s.limbs := by
  rcases step_next_cases h with
    ⟨-, -, rfl⟩ | ⟨-, -, -, rfl⟩ | ⟨i, -, he⟩ | ⟨-, rfl⟩ | ⟨off, tg, rest, -, -, -, rfl⟩ | ⟨off, v, tg, rest, -, -, -, rfl⟩
  · rfl
  · rfl
  · simpa using exec_limbs he
  · rfl
  · exact hostRead_limbs tg s.popTurn
  · exact hostWrite_limbs tg v s.popTurn

/-! ### What only commands and resets write: the flags, the SHA context, DOUT (R25, R33, R35) -/

/-- The flags, the SHA context and DOUT are as before. -/
structure SameResults (s t : State) : Prop where
  flags : SameFlags s t
  sha : t.sha = s.sha
  dout : t.dout = s.dout

@[simp] theorem sameFlags_popTurn {s t : State} : SameFlags s.popTurn t ↔ SameFlags s t :=
  ⟨fun ⟨he, hl, hg⟩ => ⟨he, hl, hg⟩, fun ⟨he, hl, hg⟩ => ⟨he, hl, hg⟩⟩

@[simp] theorem sameResults_popTurn {s t : State} : SameResults s.popTurn t ↔ SameResults s t :=
  ⟨fun ⟨hf, hs, hd⟩ => ⟨sameFlags_popTurn.mp hf, hs, hd⟩, fun ⟨hf, hs, hd⟩ => ⟨sameFlags_popTurn.mpr hf, hs, hd⟩⟩

theorem sameResults_hostRead (tg : Target) (s : State) : SameResults s (hostRead tg s) := by
  rcases hostRead_cases tg s with ⟨-, -, h⟩ | ⟨-, h⟩ <;> rw [h] <;> exact ⟨⟨rfl, rfl, rfl⟩, rfl, rfl⟩

/-- A host write that is no soft reset leaves them alone (R51). -/
theorem sameResults_hostWrite {tg : Target} {v : Word} (hv : tg = .ctrl → ¬ v.getLsbD 1 = true) (s : State) :
    SameResults s (hostWrite tg v s) := by
  rcases hostWrite_cases tg v s with
    ⟨-, -, h⟩ | ⟨-, ⟨hc, h⟩ | ⟨-, h⟩ | ⟨-, h⟩ | ⟨-, h⟩ | ⟨r, j, -, h⟩ | ⟨-, h⟩⟩
  case inr.inl => rw [h, State.writeCtrl_noReset (hv hc)]; exact ⟨⟨rfl, rfl, rfl⟩, rfl, rfl⟩
  all_goals rw [h]; exact ⟨⟨rfl, rfl, rfl⟩, rfl, rfl⟩

/-- All a step can do to them: nothing, unless it completes a command or is a reset (R25, R33, R35). -/
theorem step_results_cases {s t : State} (h : step s = .next t) :
    SameResults s t ∨ (∃ i, s.completes i ∧ exec i s.popTurn = .next t) ∨ s.softResetNext ∨ s.powerOnNext := by
  rcases step_next_cases h with
    ⟨-, -, rfl⟩ | ⟨-, -, -, rfl⟩ | hexec | ⟨hp, -⟩ | ⟨off, tg, rest, -, -, -, rfl⟩ | ⟨off, v, tg, rest, ha, -, ht, rfl⟩
  · exact .inl ⟨⟨rfl, rfl, rfl⟩, rfl, rfl⟩
  · exact .inl ⟨⟨rfl, rfl, rfl⟩, rfl, rfl⟩
  · exact .inr (.inl hexec)
  · exact .inr (.inr (.inr hp))
  · exact .inl (sameResults_popTurn.mp (sameResults_hostRead tg s.popTurn))
  · by_cases hv : tg = .ctrl ∧ v.getLsbD 1 = true
    · exact .inr (.inr (.inl (softResetNext_of_ctrl ha ht hv.1 hv.2)))
    · exact .inl (sameResults_popTurn.mp (sameResults_hostWrite (not_and.mp hv) s.popTurn))

/-- Of the commands, BIG.CMP alone writes the flags (R25). -/
theorem exec_sameFlags {i : Instr} {s t : State} (h : exec i s = .next t) :
    SameFlags s t ∨ ∃ rs1 rs2, i = .bigCmp rs1 rs2 := by
  rcases exec_cases i s with
    ⟨e, -, -, he⟩ | ⟨rd, v, -, he⟩ | ⟨rs1, rs2, hi, -⟩ | ⟨-, he⟩ | ⟨n, -, he⟩ | ⟨-, he⟩
  case inr.inr.inl => exact .inr ⟨rs1, rs2, hi⟩
  all_goals
    obtain rfl := Host.Outcome.next.inj (he.symm.trans h)
    exact .inl ⟨rfl, rfl, rfl⟩

/-- Of the commands, SHA.INIT and SHA.UPDATE alone write the SHA context (R33). -/
theorem exec_sameSha {i : Instr} {s t : State} (h : exec i s = .next t) :
    t.sha = s.sha ∨ i = .shaInit ∨ ∃ n, i = .shaUpdate n := by
  rcases exec_cases i s with
    ⟨e, -, -, he⟩ | ⟨rd, v, -, he⟩ | ⟨rs1, rs2, -, he⟩ | ⟨hi, -⟩ | ⟨n, hi, -⟩ | ⟨-, he⟩
  case inr.inr.inr.inl => exact .inr (.inl hi)
  case inr.inr.inr.inr.inl => exact .inr (.inr ⟨n, hi⟩)
  all_goals
    obtain rfl := Host.Outcome.next.inj (he.symm.trans h)
    exact .inl rfl

end Sys2Proof.Machine
end

section
/-! SUPPORT. Noninterference of the SHA context (spec/10_state.md R33): the step of two states that differ in the context
alone. -/

namespace Sys2Proof.Machine

/-- Two outcomes agree but for the SHA context: the same fault or refusal, or next states that differ, if at all, in the
context. -/
def AgreesButSha : Host.Outcome State Fault Refusal → Host.Outcome State Fault Refusal → Prop
  | .next t, o => ∃ c, o = .next { t with sha := c }
  | .fault f, o => o = .fault f
  | .refused r, o => o = .refused r

/-- A completion's result is written beside the context, or in its place. -/
theorem Effect.on_withSha (e : Effect) (s : State) (c : ShaContext) :
    ∃ c', e.on { s with sha := c } = { e.on s with sha := c' } := by
  cases e with
  | context d => exact ⟨d, rfl⟩
  | error e => exact ⟨c, rfl⟩
  | register rd v => exact ⟨c, rfl⟩
  | flags a b => exact ⟨c, rfl⟩
  | digest d => exact ⟨c, rfl⟩

/-- The context is an input of SHA.UPDATE and SHA.DIGEST alone (R33). -/
theorem sameInputs_withSha {i : Instr} (hupd : ∀ n, i ≠ .shaUpdate n) (hdig : i ≠ .shaDigest) (s : State) (c : ShaContext) :
    SameInputs i s { s with sha := c } :=
  ⟨rfl, fun _ _ => rfl, fun n hi => absurd hi (hupd n), fun hi => absurd hi hdig⟩

theorem exec_agreesButSha {i : Instr} (hupd : ∀ n, i ≠ .shaUpdate n) (hdig : i ≠ .shaDigest) (s : State) (c : ShaContext) :
    AgreesButSha (exec i s) (exec i { s with sha := c }) := by
  obtain ⟨e, hs, hs'⟩ := exec_effect (sameInputs_withSha hupd hdig s c)
  obtain ⟨c', hc'⟩ := e.on_withSha s c
  rw [hs, hs', hc']
  exact ⟨c', rfl⟩

/-- The engine's turn reads the context only to complete SHA.UPDATE or SHA.DIGEST. -/
theorem engineTurn_agreesButSha {s : State} (hupd : ∀ n, ¬ (s.busy = true ∧ decode s.cmd = .ok (.shaUpdate n)))
    (hdig : ¬ (s.busy = true ∧ decode s.cmd = .ok .shaDigest)) (c : ShaContext) :
    AgreesButSha (engineTurn s) (engineTurn { s with sha := c }) := by
  rcases engineTurn_cases s with ⟨hb, i, hd, h⟩ | ⟨hb, d, hd, h⟩ | ⟨hb, h⟩
  · rw [h, engineTurn_command (s := { s with sha := c }) hb hd]
    exact exec_agreesButSha (fun n hi => hupd n ⟨hb, hi ▸ hd⟩) (fun hi => hdig ⟨hb, hi ▸ hd⟩) s c
  · rw [h, engineTurn_illegal (s := { s with sha := c }) hb hd]
    exact ⟨c, rfl⟩
  · rw [h, engineTurn_idle (s := { s with sha := c }) hb]
    exact ⟨c, rfl⟩

/-- No register of the window shows the context (R47). -/
theorem State.valueAt_withSha (s : State) (c : ShaContext) (tg : Target) : { s with sha := c }.valueAt tg = s.valueAt tg := by
  cases tg <;> rfl

theorem hostRead_withSha (tg : Target) (s : State) (c : ShaContext) :
    hostRead tg { s with sha := c } = { hostRead tg s with sha := c } := by
  unfold hostRead
  rw [s.valueAt_withSha c tg]
  split <;> rfl

theorem State.drawAbandoned_withSha (s : State) (c : ShaContext) :
    { s with sha := c }.drawAbandoned = { s.drawAbandoned with sha := c } := by
  cases h : s.abandonedReg with
  | none => rw [State.drawAbandoned_none h, State.drawAbandoned_none (s := { s with sha := c }) h]
  | some rd => rw [State.drawAbandoned_some h, State.drawAbandoned_some (s := { s with sha := c }) h]; rfl

/-- A soft reset forgets the context (R216). -/
theorem State.softReset_withSha (s : State) (c : ShaContext) : { s with sha := c }.softReset = s.softReset := by
  rw [State.softReset, s.drawAbandoned_withSha c]; rfl

theorem State.writeCtrl_withSha (s : State) (v : Word) (c : ShaContext) :
    ∃ c', { s with sha := c }.writeCtrl v = { s.writeCtrl v with sha := c' } := by
  by_cases hv : v.getLsbD 1 = true
  · refine ⟨ShaContext.initial, ?_⟩
    rw [State.writeCtrl_reset hv, State.writeCtrl_reset hv]
    exact { s with ie := v.getLsbD 0 }.softReset_withSha c
  · refine ⟨c, ?_⟩
    rw [State.writeCtrl_noReset hv, State.writeCtrl_noReset hv]

theorem hostWrite_withSha (tg : Target) (v : Word) (s : State) (c : ShaContext) :
    ∃ c', hostWrite tg v { s with sha := c } = { hostWrite tg v s with sha := c' } := by
  by_cases hb : (s.busy && tg.writeGuarded) = true
  · exact ⟨c, by simp only [hostWrite, hb, if_true]⟩
  · simp only [hostWrite, hb]
    cases tg with
    | ctrl => exact s.writeCtrl_withSha v c
    | id => exact ⟨c, rfl⟩
    | status => exact ⟨c, rfl⟩
    | cmd => exact ⟨c, rfl⟩
    | din => exact ⟨c, rfl⟩
    | dout i => exact ⟨c, rfl⟩
    | limb r j => exact ⟨c, rfl⟩

theorem hostTurn_agreesButSha (a : Access) (s : State) (c : ShaContext) :
    AgreesButSha (hostTurn a s) (hostTurn a { s with sha := c }) := by
  cases a with
  | read off width =>
    cases h : checkAccess s.limbs off width with
    | ok tg => simp only [hostTurn, h]; exact ⟨c, congrArg _ (hostRead_withSha tg s c)⟩
    | error f => simp only [hostTurn, h]; rfl
  | write off width v =>
    cases h : checkAccess s.limbs off width with
    | ok tg =>
      obtain ⟨c', hc'⟩ := hostWrite_withSha tg v s c
      simp only [hostTurn, h]
      exact ⟨c', congrArg _ hc'⟩
    | error f => simp only [hostTurn, h]; rfl

/-- Two states that differ in the context alone make steps that agree but for the context, unless SHA.UPDATE or SHA.DIGEST
completes (R33). -/
theorem step_agreesButSha {s : State} (hupd : ∀ n, ¬ s.completes (.shaUpdate n)) (hdig : ¬ s.completes .shaDigest)
    (c : ShaContext) : AgreesButSha (step s) (step { s with sha := c }) := by
  rcases s.nextTurn_cases with hn | ⟨a, rest, ha⟩ | hp
  · rw [step_engine hn, step_engine (s := { s with sha := c }) hn]
    exact engineTurn_agreesButSha (s := s.popTurn) (fun n h => hupd n ⟨h.1, h.2, hn⟩) (fun h => hdig ⟨h.1, h.2, hn⟩) c
  · rw [step_host ha, step_host (s := { s with sha := c }) ha]
    exact hostTurn_agreesButSha a s.popTurn c
  · rw [step_powerOn hp, step_powerOn (s := { s with sha := c }) hp]
    exact ⟨ShaContext.initial, rfl⟩

/-- Only SHA.INIT, SHA.UPDATE and resets write the context (R33). -/
theorem step_sha_writers {s t : State} (h : step s = .next t) :
    t.sha = s.sha ∨ s.completes .shaInit ∨ (∃ n, s.completes (.shaUpdate n)) ∨ s.softResetNext ∨ s.powerOnNext := by
  rcases step_results_cases h with hsame | ⟨i, hi, he⟩ | hreset
  · exact .inl hsame.sha
  · rcases exec_sameSha he with hsha | rfl | ⟨n, rfl⟩
    · exact .inl hsha
    · exact .inr (.inl hi)
    · exact .inr (.inr (.inl ⟨n, hi⟩))
  · exact .inr (.inr (.inr hreset))

/-- Settles O28: the writers by the cases of a step, the readers by the step of two states that differ in the context alone. -/
theorem shaContextIsEncapsulated : Obligations.ShaContextIsEncapsulated := by
  refine ⟨fun s t => step_sha_writers, fun s c hupd hdig => ?_⟩
  have hagree := step_agreesButSha hupd hdig c
  constructor
  · intro t ht
    rw [ht] at hagree
    exact hagree
  · intro f hf
    rw [hf] at hagree
    exact hagree

end Sys2Proof.Machine
end

section
/-! SUPPORT. ID (spec/10_state.md R27) and the comparison flags (R25): their values and what changes them. -/

namespace Sys2Proof.Machine

/-- The fields of ID, for a width that fits its own (R27). -/
theorem State.idWord_toNat {s : State} (h : s.limbs < 2 ^ 16) :
    s.idWord.toNat = 0x5243 * 2 ^ 48 + 7 * 2 ^ 32 + s.limbs * 2 ^ 16 + 8 := by
  simp only [State.idWord, BitVec.toNat_append, Config.idMagic, Config.idVersion, Config.nreg, BitVec.toNat_ofNat,
    Nat.mod_eq_of_lt h]
  rw [← Nat.shiftLeft_add_eq_or_of_lt (by omega), ← Nat.shiftLeft_add_eq_or_of_lt h,
    ← Nat.shiftLeft_add_eq_or_of_lt (by decide)]
  simp only [Nat.shiftLeft_eq, BitVec.reduceToNat]
  omega

/-- ID shows the width alone (R27). -/
theorem State.idWord_congr {s t : State} (h : t.limbs = s.limbs) : t.idWord = s.idWord := by
  simp only [State.idWord, h]

/-- Settles O19: its fields from the word, its accesses from the window's map, its constancy from that of the width. -/
theorem idIsConstant : Obligations.IdIsConstant := by
  refine ⟨fun s hs => ?_, fun s rest ha => ?_, fun s v rest ha => ?_, fun s t h => State.idWord_congr (step_limbs h)⟩
  · simp only [Config.legalLimbs, Bool.and_eq_true, decide_eq_true_eq] at hs
    exact State.idWord_toNat (by omega)
  · rw [step_hostRead ha (tg := .id) rfl rfl]
    simp [hostRead, Target.readGuarded, State.valueAt, State.idWord]
  · rw [step_hostWrite ha (tg := .id) rfl rfl]
    simp [hostWrite, Target.writeGuarded]

/-- Three flags as one number give each flag back as its bit. -/
theorem testBit_flags (e l g : Bool) :
    (e.toNat + 2 * l.toNat + 4 * g.toNat).testBit 0 = e ∧ (e.toNat + 2 * l.toNat + 4 * g.toNat).testBit 1 = l ∧
    (e.toNat + 2 * l.toNat + 4 * g.toNat).testBit 2 = g := by
  revert e l g; decide

theorem ErrCode.code_lt (e : ErrCode) : e.code < 5 := by cases e <;> decide

/-- The places of the flags in STATUS: the fields below bit 16 do not reach them (R25, R29). -/
theorem State.statusWord_flags (s : State) :
    s.statusWord.getLsbD 16 = s.eqFlag ∧ s.statusWord.getLsbD 17 = s.ltFlag ∧ s.statusWord.getLsbD 18 = s.gtFlag := by
  have hlow : s.busy.toNat + 2 * s.doneFlag.toNat + 4 * s.ovr.toNat + 2 ^ 8 * s.err.code < 2 ^ 16 := by
    have := s.busy.toNat_le; have := s.doneFlag.toNat_le; have := s.ovr.toNat_le; have := s.err.code_lt
    omega
  have hsplit : s.statusWord = BitVec.ofNat 64 (2 ^ 16 * (s.eqFlag.toNat + 2 * s.ltFlag.toNat + 4 * s.gtFlag.toNat) +
      (s.busy.toNat + 2 * s.doneFlag.toNat + 4 * s.ovr.toNat + 2 ^ 8 * s.err.code)) := by
    unfold State.statusWord; congr 1; ring
  have hbit (k : Nat) (hk : k < 3) : s.statusWord.getLsbD (16 + k)
      = (s.eqFlag.toNat + 2 * s.ltFlag.toNat + 4 * s.gtFlag.toNat).testBit k := by
    rw [hsplit, BitVec.getLsbD_ofNat, Nat.testBit_two_pow_mul_add _ hlow, if_neg (by omega), Nat.add_sub_cancel_left,
      decide_eq_true (by omega), Bool.true_and]
  obtain ⟨heq, hlt, hgt⟩ := testBit_flags s.eqFlag s.ltFlag s.gtFlag
  exact ⟨(hbit 0 (by decide)).trans heq, (hbit 1 (by decide)).trans hlt, (hbit 2 (by decide)).trans hgt⟩

/-- A comparison sets exactly one flag (R134). -/
theorem State.flagCount_writeCompareFlags (s : State) (a b : Nat) : (s.writeCompareFlags a b).flagCount = 1 := by
  rcases Nat.lt_trichotomy a b with h | h | h
  · simp [State.flagCount, h, h.ne, h.le]
  · simp [State.flagCount, h]
  · simp [State.flagCount, h, h.ne', h.le]

/-- After the completion of a BIG.CMP exactly one flag is set (R25). -/
theorem flagCount_of_completes_bigCmp {s t : State} {rs1 rs2 : Reg} (hc : s.completes (.bigCmp rs1 rs2))
    (h : step s = .next t) : t.flagCount = 1 := by
  rw [step_completes hc] at h
  obtain rfl := Host.Outcome.next.inj h
  exact s.popTurn.flagCount_writeCompareFlags _ _

/-- After a reset no flag is set (R25, R215, R216). -/
theorem flagCount_of_reset {s t : State} (hr : s.softResetNext ∨ s.powerOnNext) (h : step s = .next t) :
    t.flagCount = 0 := by
  rcases hr with hr | hr
  · obtain ⟨ie, hs⟩ := step_softReset hr
    obtain rfl := Host.Outcome.next.inj (hs.symm.trans h)
    rfl
  · obtain rfl := Host.Outcome.next.inj ((step_powerOn hr).symm.trans h)
    rfl

/-- Only BIG.CMP and resets write the flags (R25). -/
theorem step_flags_writers {s t : State} (h : step s = .next t) :
    SameFlags s t ∨ (∃ rs1 rs2, s.completes (.bigCmp rs1 rs2)) ∨ s.softResetNext ∨ s.powerOnNext := by
  rcases step_results_cases h with hsame | ⟨i, hi, he⟩ | hreset
  · exact .inl hsame.flags
  · rcases exec_sameFlags he with hflags | ⟨rs1, rs2, rfl⟩
    · exact .inl (sameFlags_popTurn.mp hflags)
    · exact .inr (.inl ⟨rs1, rs2, hi⟩)
  · exact .inr (.inr hreset)

/-- Settles O24: the places of the flags, their writers by the cases of a step, and what each writer leaves. -/
theorem flagsChangeOnlyByCompareOrReset : Obligations.FlagsChangeOnlyByCompareOrReset :=
  ⟨State.statusWord_flags, fun _ _ h =>
    ⟨step_flags_writers h, fun ⟨_, _, hc⟩ => flagCount_of_completes_bigCmp hc h, fun hr => flagCount_of_reset hr h⟩⟩

end Sys2Proof.Machine
end

section
/-! SUPPORT. The operands of the command in flight (spec/10_state.md R37): host accesses hold them, and its completion is a
function of them. -/

namespace Sys2Proof.Machine

/-- The command in flight and all that any command reads are as before, and so are the flags and DOUT. -/
structure SameOperands (s t : State) : Prop extends SameResults s t where
  busy : t.busy = s.busy
  cmd : t.cmd = s.cmd
  regs : t.regs = s.regs
  din : t.din = s.din
  limbs : t.limbs = s.limbs

theorem SameOperands.of_popTurn {s t : State} (h : SameOperands s.popTurn t) : SameOperands s t :=
  ⟨sameResults_popTurn.mp h.toSameResults, h.busy, h.cmd, h.regs, h.din, h.limbs⟩

/-- The code, the registers, the flags, the SHA context and DOUT of two completions are the same. -/
structure SameCompletion (u u' : State) : Prop extends SameResults u u' where
  err : u'.err = u.err
  regs : SameRegs u u'

theorem SameOperands.inputs {s t : State} (h : SameOperands s t) (i : Instr) : SameInputs i s t where
  limbs := h.limbs
  operands r _ := congrArg BigReg.value (State.reg_congr h.regs r)
  update _ _ := ⟨h.sha, h.din⟩
  digest _ := h.sha

/-- One effect on the same operands is one result. -/
theorem Effect.on_sameCompletion (e : Effect) {s t : State} (h : SameOperands s t) : SameCompletion (e.on s) (e.on t) := by
  obtain ⟨⟨⟨heq, hlt, hgt⟩, hsha, hdout⟩, -, -, hregs, -, hlimbs⟩ := h
  have hsame : SameRegs s t := State.reg_congr hregs
  cases e with
  | error e => exact ⟨⟨⟨heq, hlt, hgt⟩, hsha, hdout⟩, rfl, hsame⟩
  | register rd v =>
    refine ⟨⟨⟨heq, hlt, hgt⟩, hsha, hdout⟩, rfl, State.reg_congr ?_⟩
    simp only [Effect.on, State.finish_regs, State.writeBig_regs, hregs, hlimbs]
  | flags a b => exact ⟨⟨⟨rfl, rfl, rfl⟩, hsha, hdout⟩, rfl, hsame⟩
  | context c => exact ⟨⟨⟨heq, hlt, hgt⟩, rfl, hdout⟩, rfl, hsame⟩
  | digest d => exact ⟨⟨⟨heq, hlt, hgt⟩, hsha, rfl⟩, rfl, hsame⟩

/-- The result of the command in flight is a function of its operands (R37). -/
theorem engineTurn_sameCompletion {s t : State} (hb : s.busy = true) (h : SameOperands s t) :
    ∃ u u', engineTurn s = .next u ∧ engineTurn t = .next u' ∧ SameCompletion u u' := by
  have hbt : t.busy = true := h.busy.trans hb
  cases hd : decode s.cmd with
  | ok i =>
    obtain ⟨e, hs, ht⟩ := exec_effect (h.inputs i)
    rw [engineTurn_command hb hd, engineTurn_command hbt (h.cmd ▸ hd)]
    exact ⟨_, _, hs, ht, e.on_sameCompletion h⟩
  | error d =>
    rw [engineTurn_illegal hb hd, engineTurn_illegal hbt (h.cmd ▸ hd)]
    exact ⟨_, _, rfl, rfl, (Effect.error .illegal).on_sameCompletion h⟩

theorem sameOperands_hostRead (tg : Target) (s : State) : SameOperands s (hostRead tg s) := by
  refine ⟨sameResults_hostRead tg s, ?_, ?_, ?_, ?_, hostRead_limbs tg s⟩ <;>
    rcases hostRead_cases tg s with ⟨-, -, h⟩ | ⟨-, h⟩ <;> rw [h]

/-- While BUSY = 1 a host write that is no soft reset changes no operand: those of CMD, DIN and limbs are discarded (R55). -/
theorem sameOperands_hostWrite {tg : Target} {v : Word} {s : State} (hb : s.busy = true)
    (hv : tg = .ctrl → ¬ v.getLsbD 1 = true) : SameOperands s (hostWrite tg v s) := by
  have hres := sameResults_hostWrite hv s
  rcases hostWrite_cases tg v s with
    ⟨-, -, h⟩ | ⟨hg, ⟨hc, h⟩ | ⟨-, h⟩ | ⟨rfl, -⟩ | ⟨rfl, -⟩ | ⟨r, j, rfl, -⟩ | ⟨-, h⟩⟩
  case inr.inr.inr.inl | inr.inr.inr.inr.inl | inr.inr.inr.inr.inr.inl => simp [hb, Target.writeGuarded] at hg
  case inr.inl =>
    refine ⟨hres, ?_, ?_, ?_, ?_, hostWrite_limbs tg v s⟩ <;> rw [h, State.writeCtrl_noReset (hv hc)]
  all_goals
    refine ⟨hres, ?_, ?_, ?_, ?_, hostWrite_limbs tg v s⟩ <;> rw [h] <;> rfl

/-- A host access that is no soft reset holds the operands of the command in flight (R37). -/
theorem step_host_sameOperands {s t : State} {a : Access} {rest : List Turn} (hb : s.busy = true)
    (ha : s.agenda = .host a :: rest) (hn : ¬ s.softResetNext) (h : step s = .next t) : SameOperands s t := by
  rw [step_host ha] at h
  apply SameOperands.of_popTurn
  rcases hostTurn_next h with ⟨off, tg, rfl, -, ht, rfl⟩ | ⟨off, v, tg, rfl, -, ht, rfl⟩
  · exact sameOperands_hostRead tg s.popTurn
  · exact sameOperands_hostWrite hb fun hc hv => hn (softResetNext_of_ctrl ha ht hc hv)

/-- Settles O32: the access holds the operands, and the completion is a function of them. -/
theorem operandsAreHeldWhileBusy : Obligations.OperandsAreHeldWhileBusy := by
  intro s t a rest hb ha hn h
  have hsame := step_host_sameOperands hb ha hn h
  obtain ⟨u, u', hu, hu', hres⟩ := engineTurn_sameCompletion hb hsame
  exact ⟨⟨hsame.busy.trans hb, hsame.cmd, hsame.regs, hsame.din, hsame.sha, hsame.dout, hsame.limbs, hsame.flags⟩,
    u, u', hu, hu', hres.err, hres.regs, hres.flags, hres.sha, hres.dout⟩

end Sys2Proof.Machine
end

section
/-! SUPPORT. Host accesses at each target of the window (spec/20_memory.md R50, R51, R55): what a write does whether a command
is in flight or not, while idle, and while busy; and the two kinds of read. -/

namespace Sys2Proof.Machine

/-! ### Offsets are multiples of 8 (R47) -/

theorem doutOffset_mod_eight (i : Fin 8) : doutOffset i % 8 = 0 := by unfold doutOffset; omega

theorem limbOffset_mod_eight (limbs : Nat) (r : Reg) (j : Nat) : limbOffset limbs r j % 8 = 0 := by
  have hreg : r.val * (8 * limbs) = 8 * (r.val * limbs) := by ring
  unfold limbOffset; omega

/-! ### Writes that do the same whether BUSY is 0 or 1 (R51, R55(b), R55(c)) -/

@[simp] theorem hostWrite_id (v : Word) (s : State) : hostWrite .id v s = s := by
  simp [hostWrite, Target.writeGuarded]

@[simp] theorem hostWrite_dout (i : Fin 8) (v : Word) (s : State) : hostWrite (.dout i) v s = s := by
  simp [hostWrite, Target.writeGuarded]

@[simp] theorem hostWrite_status (v : Word) (s : State) : hostWrite .status v s = s.writeStatus v := by
  simp [hostWrite, Target.writeGuarded]

/-! ### Writes that BUSY guards (R51, R55(a)) -/

theorem hostWrite_cmd_idle {s : State} (v : Word) (hb : s.busy = false) :
    hostWrite .cmd v s = s.accept (v.extractLsb' 0 32) := by
  rw [← BitVec.setWidth_eq_extractLsb' (by decide)]
  simp [hostWrite, hb]

theorem hostWrite_din_idle {s : State} (v : Word) (hb : s.busy = false) : hostWrite .din v s = { s with din := v } := by
  simp [hostWrite, hb]

theorem hostWrite_limb_idle {s : State} (r : Reg) (j : Nat) (v : Word) (hb : s.busy = false) :
    hostWrite (.limb r j) v s = s.writeLimb r j v := by
  simp [hostWrite, hb]

theorem hostWrite_discarded {tg : Target} {s : State} (v : Word) (hb : s.busy = true) (hg : tg.writeGuarded = true) :
    hostWrite tg v s = { s with ovr := true } := by
  simp [hostWrite, hb, hg]

/-- R51 for a limb: bits [64j+63 : 64j] of Bi are those of the word written, every other bit is as before. -/
theorem State.testBit_big_writeLimb (s : State) (r : Reg) (j : Nat) (v : Word) (k : Nat) :
    ((s.writeLimb r j v).big r).testBit k
      = if 64 * j ≤ k ∧ k < 64 * j + 64 then v.getLsbD (k - 64 * j) else (s.big r).testBit k := by
  rw [State.big, State.reg_writeLimb_self, testBit_setLimb]
  by_cases hlow : k < 64 * j
  · rw [if_pos hlow, if_neg (by omega)]
  · by_cases hhigh : k < 64 * (j + 1)
    · rw [if_neg hlow, if_pos hhigh, if_pos (by omega)]
    · rw [if_neg hlow, if_neg hhigh, if_neg (by omega)]

/-! ### Reads (R50, R55(d), R55(e)) -/

theorem hostRead_drawn {tg : Target} {s : State} (hb : s.busy = true) (hg : tg.readGuarded = true) :
    hostRead tg s = { s with readData := some (Config.freeRead s.draws), draws := s.draws + 1 } := by
  simp [hostRead, hb, hg]

theorem hostRead_unguarded {tg : Target} (s : State) (hg : tg.readGuarded = false) :
    hostRead tg s = { s with readData := some (s.valueAt tg) } := by
  simp [hostRead, hg]

/-- The turns still to come are no register of the window (R47). -/
theorem State.valueAt_withAgenda (s : State) (rest : List Turn) (tg : Target) :
    { s with agenda := rest }.valueAt tg = s.valueAt tg := by
  cases tg <;> rfl

/-! ### Steps whose turn is a write of CTRL (R28, R51, R55(b)) -/

theorem step_writeCtrl_noReset {s : State} {off : Nat} {v : Word} {rest : List Turn}
    (ha : s.agenda = .host (.write off 8 v) :: rest) (h8 : off % 8 = 0) (ht : target s.limbs off = some .ctrl)
    (hv : v.getLsbD 1 = false) : step s = .next { s with ie := v.getLsbD 0, agenda := rest } := by
  rw [step_hostWrite ha h8 ht, hostWrite_ctrl, State.writeCtrl_noReset (Bool.eq_false_iff.mp hv)]

theorem step_writeCtrl_reset {s : State} {off : Nat} {v : Word} {rest : List Turn}
    (ha : s.agenda = .host (.write off 8 v) :: rest) (h8 : off % 8 = 0) (ht : target s.limbs off = some .ctrl)
    (hv : v.getLsbD 1 = true) : step s = .next { s with ie := v.getLsbD 0, agenda := rest }.softReset := by
  rw [step_hostWrite ha h8 ht, hostWrite_ctrl, State.writeCtrl_reset hv]

/-! ### The obligations -/

/-- Settles O15: each offset reaches its target, and the write does there what R51 says; a limb's bits from `testBit_setLimb`. -/
theorem idleWriteEffects : Obligations.IdleWriteEffects := by
  intro s v rest hb
  have hb' : { s with agenda := rest }.busy = false := hb
  refine ⟨fun ha => ?id, fun i ha => ?dout, fun hv ha => step_writeCtrl_noReset ha rfl rfl hv,
    fun hv ha => step_writeCtrl_reset ha rfl rfl hv, fun ha => ?status, fun ha => ?cmd, fun ha => ?din,
    fun r j hj ha => ?limb⟩
  case id => rw [step_hostWrite ha (tg := .id) rfl rfl, hostWrite_id]
  case dout => rw [step_hostWrite ha (doutOffset_mod_eight i) (target_doutOffset s.limbs i), hostWrite_dout]
  case status => rw [step_hostWrite ha (tg := .status) rfl rfl, hostWrite_status]; rfl
  case cmd => rw [step_hostWrite ha (tg := .cmd) rfl rfl, hostWrite_cmd_idle v hb']; rfl
  case din => rw [step_hostWrite ha (tg := .din) rfl rfl, hostWrite_din_idle v hb']
  case limb =>
    refine ⟨{ s with agenda := rest }.writeLimb r j v, ?_, rfl, fun r' hr => ?_, ?_, fun k => ?_⟩
    · rw [step_hostWrite ha (limbOffset_mod_eight s.limbs r j) (target_limbOffset r hj), hostWrite_limb_idle r j v hb']
    · exact State.reg_writeLimb_other _ j v hr
    · exact congrArg BigReg.written (State.reg_writeLimb_self _ r j v)
    · exact State.testBit_big_writeLimb _ r j v k

/-- Settles O16: by the target of the access, whether BUSY guards it. -/
theorem busyAccesses : Obligations.BusyAccesses := by
  intro s off tg v rest hb h8 ht
  have hb' : { s with agenda := rest }.busy = true := hb
  constructor
  · intro ha
    refine ⟨fun htg => ?guarded, fun htg hv => step_writeCtrl_noReset ha h8 (htg ▸ ht) hv,
      fun htg hv => step_writeCtrl_reset ha h8 (htg ▸ ht) hv, fun htg => ?status, fun htg => ?ignored⟩
    case guarded =>
      have hg : tg.writeGuarded = true := by rcases htg with rfl | rfl | ⟨r, j, rfl⟩ <;> rfl
      rw [step_hostWrite ha h8 ht, hostWrite_discarded v hb' hg]
    case status =>
      subst htg
      rw [step_hostWrite ha h8 ht, hostWrite_status]; rfl
    case ignored =>
      rw [step_hostWrite ha h8 ht]
      rcases htg with rfl | ⟨i, rfl⟩
      · rw [hostWrite_id]
      · rw [hostWrite_dout]
  · intro ha
    refine ⟨fun htg => ?value, fun htg => ?drawn⟩
    case value =>
      have hg : tg.readGuarded = false := by rcases htg with rfl | rfl | rfl | rfl | rfl <;> rfl
      rw [step_hostRead ha h8 ht, hostRead_unguarded _ hg, State.valueAt_withAgenda]
    case drawn =>
      have hg : tg.readGuarded = true := by rcases htg with ⟨i, rfl⟩ | ⟨r, j, rfl⟩ <;> rfl
      rw [step_hostRead ha h8 ht, hostRead_drawn hb' hg]

end Sys2Proof.Machine
end

section
/-! SUPPORT. The opcode of a word (spec/30_encoding.md R71, R77): every row fixes all eight bits of it, so a word has one row
to match at most, and the words that match none are the illegal ones of R80. -/

namespace Sys2Proof

/-- The mask of every row covers bits 31:24, where its match holds its opcode (R77). -/
theorem opcode_bits_of_row :
    ∀ row ∈ opcodeMap, row.mask.extractLsb' 24 8 = BitVec.allOnes 8 ∧ row.pattern.extractLsb' 24 8 = row.opcode := by
  decide

theorem opcode_eq_of_matches {w : CmdWord} {row : OpcodeRow} (hrow : row ∈ opcodeMap)
    (hw : w &&& row.mask = row.pattern) : w.extractLsb' 24 8 = row.opcode := by
  obtain ⟨hmask, hpattern⟩ := opcode_bits_of_row row hrow
  rw [← hpattern, ← hw, BitVec.extractLsb'_and, hmask, BitVec.and_allOnes]

theorem row_eq_of_opcode_eq :
    ∀ r1 ∈ opcodeMap, ∀ r2 ∈ opcodeMap, r1.opcode = r2.opcode → r1 = r2 := by
  decide

theorem findRow_eq_none_iff {w : CmdWord} : findRow w = none ↔ ∀ row ∈ opcodeMap, w &&& row.mask ≠ row.pattern := by
  simp [findRow, OpcodeRow.selects]

theorem decode_error_iff_findRow {w : CmdWord} : (∃ d, decode w = .error d) ↔ findRow w = none := by
  cases hrow : findRow w with
  | none =>
    simp only [decode, hrow]
    split <;> simp
  | some row => simp [decode, hrow]

/-- R80: the illegal words are those that match no row. -/
theorem decode_error_iff {w : CmdWord} :
    (∃ d, decode w = .error d) ↔ ∀ row ∈ opcodeMap, w &&& row.mask ≠ row.pattern :=
  decode_error_iff_findRow.trans findRow_eq_none_iff

/-- A word whose opcode is in no row is illegal (R80). -/
theorem decode_error_of_opcode_unlisted {w : CmdWord} (h : ∀ row ∈ opcodeMap, w.extractLsb' 24 8 ≠ row.opcode) :
    ∃ d, decode w = .error d :=
  decode_error_iff.mpr fun row hrow hw => h row hrow (opcode_eq_of_matches hrow hw)

/-- A word of a listed opcode that does not match that opcode's row is illegal (R80): no other row has its opcode. -/
theorem decode_error_of_row_mismatch {w : CmdWord} {row : OpcodeRow} (hrow : row ∈ opcodeMap)
    (hop : w.extractLsb' 24 8 = row.opcode) (hw : w &&& row.mask ≠ row.pattern) : ∃ d, decode w = .error d := by
  refine decode_error_iff.mpr fun row' hrow' hw' => hw ?_
  have hopcode : row'.opcode = row.opcode := (opcode_eq_of_matches hrow' hw').symm.trans hop
  obtain rfl := row_eq_of_opcode_eq row' hrow' row hrow hopcode
  exact hw'

/-- The opcodes R80 lists as illegal. -/
def UnassignedOpcode (op : Nat) : Prop :=
  op ≤ 0x0F ∨ (0x13 ≤ op ∧ op ≤ 0x1F) ∨ (0x28 ≤ op ∧ op ≤ 0x2F) ∨ (0x32 ≤ op ∧ op ≤ 0x3F) ∨ 0x42 ≤ op

theorem not_unassignedOpcode_of_row : ∀ row ∈ opcodeMap, ¬ UnassignedOpcode row.opcode.toNat := by
  unfold UnassignedOpcode
  decide

theorem decode_error_of_unassignedOpcode {w : CmdWord} (h : UnassignedOpcode (w.extractLsb' 24 8).toNat) :
    ∃ d, decode w = .error d :=
  decode_error_of_opcode_unlisted fun row hrow hop => not_unassignedOpcode_of_row row hrow (hop ▸ h)

end Sys2Proof

namespace Sys2Proof.Machine

/-- Settles O4: a row that matched would put the word's opcode among the assigned ones, and would be the row of its opcode; the
all-zero word has opcode 0. The completion is `errorOnly_finish`. -/
theorem illegalWordsCompleteWithIllegal : Obligations.IllegalWordsCompleteWithIllegal :=
  ⟨fun _ hop => decode_error_of_unassignedOpcode hop,
   fun _ _ hrow hop hw => decode_error_of_row_mismatch hrow hop hw,
   decode_error_of_unassignedOpcode (.inl (by decide)),
   fun s _ hb hd => ⟨s.finish .illegal, engineTurn_illegal hb hd, errorOnly_finish s .illegal⟩⟩

/-- Settles O5, by evaluating the encoder and the decoder on the words written out. -/
theorem workedWordsDecode : Obligations.WorkedWordsDecode := by
  unfold Obligations.WorkedWordsDecode
  decide

end Sys2Proof.Machine
end

section
/-! SUPPORT. The compression chain over the blocks of a byte string, and the SHA context as the state of that chain: what a
context holds after the bytes absorbed into it (spec/40_sha512.md R93, R112). -/

namespace Sys2Proof.Machine

/-! ### The chain -/

@[simp] theorem chain_zero (bs : List Byte) (h : HashWords) : chain 0 bs h = h := rfl

/-- One block more in front. -/
theorem chain_succ_append {blk : List Byte} (hblk : blk.length = 128) (n : Nat) (bs : List Byte) (h : HashWords) :
    chain (n + 1) (blk ++ bs) h = chain n bs (compress blk h) := by
  rw [chain, List.drop_left' hblk, List.take_left' hblk]

theorem chain_one {blk : List Byte} (hblk : blk.length = 128) (h : HashWords) : chain 1 blk h = compress blk h := by
  rw [chain, chain_zero, List.take_of_length_le hblk.le]

/-- The blocks after the first `n` go on from where those end. -/
theorem chain_add (n k : Nat) : ∀ (bs : List Byte) (h : HashWords),
    chain (n + k) bs h = chain k (bs.drop (128 * n)) (chain n bs h) := by
  induction n with
  | zero => intro bs h; simp
  | succ n ih =>
    intro bs h
    rw [Nat.succ_add, chain, ih, chain, List.drop_drop, Nat.mul_succ, Nat.add_comm 128]

/-- The chain reads no byte past its blocks. -/
theorem chain_append_right (n : Nat) : ∀ {bs : List Byte} (bs' : List Byte) (h : HashWords), 128 * n ≤ bs.length →
    chain n (bs ++ bs') h = chain n bs h := by
  induction n with
  | zero => intros; rfl
  | succ n ih =>
    intro bs bs' h hlen
    rw [chain, List.drop_append_of_le_length (by omega), List.take_append_of_le_length (by omega),
      ih _ _ (by rw [List.length_drop]; omega), chain]

/-! ### The context of a chain -/

/-- The context after absorbing the bytes `m` from an empty block and the hash words `h0`: `HoldsMessage` without BC, from any
hash words. -/
structure HoldsFrom (h0 : HashWords) (m : List Byte) (c : ShaContext) : Prop where
  h : c.h = chain (m.length / 128) m h0
  bf : c.bf.val = m.length % 128
  blk : c.blk.toList.take c.bf.val = m.drop (128 * (m.length / 128))

theorem holdsMessage_iff {m : List Byte} {c : ShaContext} :
    HoldsMessage m c ↔ HoldsFrom iv m c ∧ c.bc.toNat = 8 * m.length % 2 ^ 128 :=
  ⟨fun ⟨h, bf, blk, bc⟩ => ⟨⟨h, bf, blk⟩, bc⟩, fun ⟨⟨h, bf, blk⟩, bc⟩ => ⟨h, bf, blk, bc⟩⟩

theorem ShaContext.length_take_bf (c : ShaContext) : (c.blk.toList.take c.bf.val).length = c.bf.val := by
  simp [c.bf.isLt.le]

/-- Every context holds the bytes below BF, from its own hash words. -/
theorem ShaContext.holdsFrom_self (c : ShaContext) : HoldsFrom c.h (c.blk.toList.take c.bf.val) c := by
  have hdiv : c.bf.val / 128 = 0 := Nat.div_eq_of_lt c.bf.isLt
  constructor
  · rw [c.length_take_bf, hdiv, chain_zero]
  · rw [c.length_take_bf, Nat.mod_eq_of_lt c.bf.isLt]
  · rw [c.length_take_bf, hdiv, Nat.mul_zero, List.drop_zero]

/-- A byte placed at BF comes after the bytes below BF (R93). -/
theorem ShaContext.take_set_bf (c : ShaContext) (b : Byte) :
    (c.blk.set c.bf b).toList.take (c.bf.val + 1) = c.blk.toList.take c.bf.val ++ [b] := by
  have hlt : c.bf.val < c.blk.toList.length := by simp
  rw [Vector.toList_set, List.take_add_one, List.take_set_of_le le_rfl, List.getElem?_set_self hlt, Option.toList_some]

/-- One byte absorbed is one byte more held (R93). -/
theorem HoldsFrom.absorbByte {h0 : HashWords} {m : List Byte} {c : ShaContext} (hc : HoldsFrom h0 m c) (b : Byte) :
    HoldsFrom h0 (m ++ [b]) (c.absorbByte b) := by
  obtain ⟨hh, hbf, hblk⟩ := hc
  have hheld : (c.blk.set c.bf b).toList.take (c.bf.val + 1) = m.drop (128 * (m.length / 128)) ++ [b] := by
    rw [c.take_set_bf b, hblk]
  have hchain : chain (m.length / 128) (m ++ [b]) h0 = c.h := by rw [chain_append_right _ _ _ (by omega), hh]
  have hdrop : (m ++ [b]).drop (128 * (m.length / 128)) = m.drop (128 * (m.length / 128)) ++ [b] :=
    List.drop_append_of_le_length (by omega)
  rcases c.absorbByte_cases b with ⟨hlt, hbf', hh'⟩ | ⟨hfull, hbf', hh'⟩
  · have hdiv : (m ++ [b]).length / 128 = m.length / 128 := by simp; omega
    constructor
    · rw [hh', hdiv, hchain]
    · rw [hbf', hbf]; simp; omega
    · rw [hbf', c.absorbByte_blk, hheld, hdiv, hdrop]
  · have hdiv : (m ++ [b]).length / 128 = m.length / 128 + 1 := by simp; omega
    have hblock : (c.blk.set c.bf b).toList = (m ++ [b]).drop (128 * (m.length / 128)) := by
      rw [hdrop, ← hheld, List.take_of_length_le (by simp [hfull])]
    constructor
    · rw [hh', hdiv, chain_add, hchain, ← hblock, chain_one (by simp)]
    · rw [hbf']; simp; omega
    · rw [hbf', hdiv, List.drop_eq_nil_of_le (by simp; omega)]; rfl

/-- The bytes of a string absorbed are held after those before (R93, R112). -/
theorem HoldsFrom.foldl_absorbByte {h0 : HashWords} (g : List Byte) : ∀ {m : List Byte} {c : ShaContext},
    HoldsFrom h0 m c → HoldsFrom h0 (m ++ g) (g.foldl ShaContext.absorbByte c) := by
  induction g with
  | nil => intro m c hc; simpa using hc
  | cons b g ih =>
    intro m c hc
    rw [List.foldl_cons, List.append_cons]
    exact ih (hc.absorbByte b)

theorem HoldsFrom.absorb {h0 : HashWords} {m : List Byte} {c : ShaContext} (hc : HoldsFrom h0 m c) (g : List Byte) :
    HoldsFrom h0 (m ++ g) (c.absorb g) := by
  obtain ⟨h, bf, blk⟩ := hc.foldl_absorbByte g
  exact ⟨h, bf, blk⟩

theorem ShaContext.absorb_bc_toNat (c : ShaContext) (g : List Byte) :
    (c.absorb g).bc.toNat = (c.bc.toNat + 8 * g.length) % 2 ^ 128 := by
  rw [c.absorb_bc, BitVec.toNat_add, BitVec.toNat_ofNat, Nat.add_mod_mod]

/-- A byte group absorbed is appended to the message held (R112). -/
theorem HoldsMessage.absorb {m : List Byte} {c : ShaContext} (hc : HoldsMessage m c) (g : List Byte) :
    HoldsMessage (m ++ g) (c.absorb g) := by
  obtain ⟨hfrom, hbc⟩ := holdsMessage_iff.mp hc
  refine holdsMessage_iff.mpr ⟨hfrom.absorb g, ?_⟩
  rw [c.absorb_bc_toNat, hbc, Nat.mod_add_mod, List.length_append, Nat.mul_add]

/-- The construction state holds the empty message (R90, R91). -/
theorem holdsMessage_initial : HoldsMessage [] ShaContext.initial := ⟨rfl, rfl, rfl, rfl⟩

/-! ### The padded message and SHA.DIGEST (R94, R95, R106) -/

/-- The block of SHA.DIGEST when the length fits beside the terminator (R94). -/
theorem ShaContext.withLength_terminatedBlock {c : ShaContext} (hlt : c.bf.val < 112) :
    withLength c.terminatedBlock c.bc
      = c.blk.toList.take c.bf.val ++ 0x80 :: List.replicate (111 - c.bf.val) 0 ++ beBytes 16 c.bc.toNat := by
  have hzeros : 112 - c.bf.val = 111 - c.bf.val + 1 := by omega
  rw [withLength, ShaContext.terminatedBlock, List.take_append, List.take_take, c.length_take_bf, Nat.min_eq_right hlt.le,
    hzeros, List.take_succ_cons, List.take_replicate, Nat.min_eq_left (by omega)]

theorem withLength_zeros (bc : BitVec 128) :
    withLength (List.replicate 128 0) bc = List.replicate 112 0 ++ beBytes 16 bc.toNat := by
  rw [withLength, List.take_replicate]; rfl

/-- SHA.DIGEST with BF < 112 is one compression (R94, R113). -/
theorem ShaContext.digest_of_lt {c : ShaContext} (hlt : c.bf.val < 112) :
    c.digest = compress
      (c.blk.toList.take c.bf.val ++ 0x80 :: List.replicate (111 - c.bf.val) 0 ++ beBytes 16 c.bc.toNat) c.h := by
  rw [ShaContext.digest, if_neg (by omega), ShaContext.withLength_terminatedBlock hlt]

/-- SHA.DIGEST with BF at or above 112 is two compressions (R94, R113). -/
theorem ShaContext.digest_of_ge {c : ShaContext} (hge : 112 ≤ c.bf.val) :
    c.digest = compress (List.replicate 112 0 ++ beBytes 16 c.bc.toNat) (compress
      (c.blk.toList.take c.bf.val ++ 0x80 :: List.replicate (127 - c.bf.val) 0) c.h) := by
  rw [ShaContext.digest, if_pos hge, withLength_zeros, ShaContext.terminatedBlock]

/-- The digest is the chain over what follows the whole blocks of the message in its padding. -/
theorem sha512_eq_chain {m rest : List Byte} {k : Nat}
    (hrest : (sha512Pad m).drop (128 * (m.length / 128)) = rest) (hlen : rest.length = 128 * k) (hk : 0 < k) :
    sha512 m = chain k rest (chain (m.length / 128) m iv) := by
  have hpad : (sha512Pad m).length / 128 = m.length / 128 + k := by
    have hd : (sha512Pad m).length - 128 * (m.length / 128) = 128 * k := by rw [← List.length_drop, hrest, hlen]
    omega
  have hchain : chain (m.length / 128) (sha512Pad m) iv = chain (m.length / 128) m iv := by
    rw [sha512Pad, List.append_assoc, chain_append_right _ _ _ (by omega)]
  rw [sha512, hpad, chain_add, hrest, hchain]

/-- The padding leaves the whole blocks of the message in front. -/
theorem sha512Pad_drop (m : List Byte) :
    (sha512Pad m).drop (128 * (m.length / 128)) = m.drop (128 * (m.length / 128)) ++
      0x80 :: List.replicate ((239 - m.length % 128) % 128) 0 ++ beBytes 16 (8 * m.length) := by
  rw [sha512Pad, List.append_assoc, List.drop_append_of_le_length (by omega), ← List.append_assoc]

/-- SHA.DIGEST of a context that holds a message of fewer than 2^128 bits is SHA-512 of it (R106). -/
theorem HoldsMessage.digest {m : List Byte} {c : ShaContext} (hc : HoldsMessage m c) (hm : 8 * m.length < 2 ^ 128) :
    c.digest = sha512 m := by
  obtain ⟨hh, hbf, hblk, hbc⟩ := hc
  rw [Nat.mod_eq_of_lt hm] at hbc
  have hrest := sha512Pad_drop m
  rw [← hblk, ← hbf, ← hbc] at hrest
  have hbytes := c.length_take_bf
  by_cases hlt : c.bf.val < 112
  · have hzeros : (239 - c.bf.val) % 128 = 111 - c.bf.val := by omega
    rw [hzeros] at hrest
    have hblock : (c.blk.toList.take c.bf.val ++ 0x80 :: List.replicate (111 - c.bf.val) 0
        ++ beBytes 16 c.bc.toNat).length = 128 * 1 := by simp [hbytes]; omega
    rw [ShaContext.digest_of_lt hlt, sha512_eq_chain hrest hblock one_pos, chain_one hblock, hh]
  · have hge : 112 ≤ c.bf.val := Nat.le_of_not_lt hlt
    have hbf128 := c.bf.isLt
    have hzeros : (239 - c.bf.val) % 128 = (127 - c.bf.val) + 112 := by omega
    rw [hzeros, List.replicate_add, ← List.cons_append, ← List.append_assoc,
      List.append_assoc _ (List.replicate 112 0)] at hrest
    have hfirst : (c.blk.toList.take c.bf.val ++ 0x80 :: List.replicate (127 - c.bf.val) 0).length = 128 := by
      simp [hbytes]; omega
    have hsecond : (List.replicate 112 0 ++ beBytes 16 c.bc.toNat).length = 128 := by simp
    have hblocks := congrArg₂ (· + ·) hfirst hsecond
    rw [ShaContext.digest_of_ge hge, sha512_eq_chain hrest (k := 2) (by rw [List.length_append]; exact hblocks) two_pos,
      chain_succ_append hfirst, chain_one hsecond, hh]

/-! ### What completing a SHA command leaves -/

theorem exec_shaInit (s : State) : exec .shaInit s = .next ({ s with sha := ShaContext.initial }.finish .ok) := rfl

theorem exec_shaDigest (s : State) : exec .shaDigest s = .next ({ s with dout := s.sha.digest }.finish .ok) := rfl

/-- SHA.UPDATE of 1 to 8 bytes absorbs them (R93). -/
theorem exec_shaUpdate {n : Nat} (h1 : 1 ≤ n) (h8 : n ≤ 8) (s : State) :
    exec (.shaUpdate n) s = .next ({ s with sha := s.sha.absorb (dinBytes s.din n) }.finish .ok) := by
  have hn : ¬ (n = 0 ∨ 8 < n) := by omega
  exact if_neg hn

/-- SHA.UPDATE of no byte or of more than 8 is E_ARG (R93). -/
theorem exec_shaUpdate_arg {n : Nat} (hn : n = 0 ∨ 8 < n) (s : State) : exec (.shaUpdate n) s = .next (s.finish .arg) :=
  if_pos hn

/-! ### Every step -/

/-- A completed SHA.UPDATE of 1 to 8 bytes appends them to the message held (R112). -/
theorem step_shaUpdate_holds {s t : State} {m : List Byte} {n : Nat} (hm : HoldsMessage m s.sha) (h1 : 1 ≤ n) (h8 : n ≤ 8)
    (hc : s.completes (.shaUpdate n)) (h : step s = .next t) :
    HoldsMessage (m ++ dinBytes s.din n) t.sha ∧ t.err = .ok := by
  rw [step_completes hc, exec_shaUpdate h1 h8] at h
  obtain rfl := Host.Outcome.next.inj h
  exact ⟨hm.absorb _, rfl⟩

/-- SHA.INIT and the resets put the context at its construction state (R38, R91, R216). -/
theorem step_sha_initial {s t : State} (hr : s.completes .shaInit ∨ s.softResetNext ∨ s.powerOnNext)
    (h : step s = .next t) : t.sha = ShaContext.initial := by
  rcases hr with hc | hs | hp
  · obtain rfl := Host.Outcome.next.inj ((exec_shaInit _).symm.trans ((step_completes hc).symm.trans h))
    rfl
  · obtain ⟨ie, he⟩ := step_softReset hs
    obtain rfl := Host.Outcome.next.inj (he.symm.trans h)
    rfl
  · obtain rfl := Host.Outcome.next.inj ((step_powerOn hp).symm.trans h)
    rfl

/-- A step that is neither SHA.INIT, nor a SHA.UPDATE of 1 to 8 bytes, nor a reset leaves the context alone (R33, R93). -/
theorem step_sameSha {s t : State} (hu : ∀ n, 1 ≤ n → n ≤ 8 → ¬ s.completes (.shaUpdate n)) (hi : ¬ s.completes .shaInit)
    (hs : ¬ s.softResetNext) (hp : ¬ s.powerOnNext) (h : step s = .next t) : t.sha = s.sha := by
  rcases step_sha_writers h with hsame | hinit | ⟨n, hc⟩ | hsoft | hpower
  · exact hsame
  · exact absurd hinit hi
  · have hn : n = 0 ∨ 8 < n := by
      by_contra hcount
      exact hu n (by omega) (by omega) hc
    rw [step_completes hc, exec_shaUpdate_arg hn] at h
    obtain rfl := Host.Outcome.next.inj h
    rfl
  · exact absurd hsoft hs
  · exact absurd hpower hp

theorem step_shaDigest_dout {s t : State} (hc : s.completes .shaDigest) (h : step s = .next t) : t.dout = s.sha.digest := by
  obtain rfl := Host.Outcome.next.inj ((exec_shaDigest _).symm.trans ((step_completes hc).symm.trans h))
  rfl

/-- Settles O59, by what the step is: SHA.UPDATE absorbs (`HoldsMessage.absorb`), SHA.INIT and the resets start over, every
other step leaves the context alone, and SHA.DIGEST gives the padded chain (`HoldsMessage.digest`). -/
theorem messageGrowsOnlyByUpdate : Obligations.MessageGrowsOnlyByUpdate := by
  intro s t m hm h
  refine ⟨fun n h1 h8 hc => step_shaUpdate_holds hm h1 h8 hc h, fun hr => ?_, fun hu hi hs hp => ?_, fun hc hlen => ?_⟩
  · rw [step_sha_initial hr h]; exact holdsMessage_initial
  · rw [step_sameSha hu hi hs hp h]; exact hm
  · rw [step_shaDigest_dout hc h]; exact hm.digest hlen

end Sys2Proof.Machine
end

section
/-! SUPPORT. The SHA commands one by one (spec/40_sha512.md R91 to R95): their words, what an absorbed byte group does to the
block and the hash words. -/

namespace Sys2Proof

theorem matches_of_findRow {w : CmdWord} {row : OpcodeRow} (h : findRow w = some row) :
    row ∈ opcodeMap ∧ w &&& row.mask = row.pattern :=
  ⟨List.mem_of_find?_eq_some h, eq_of_beq (List.find?_some (p := fun row : OpcodeRow => row.selects w) h)⟩

/-- A word that a row selects is a command of that row: no other row has its opcode (R77). -/
theorem decode_of_selects {w : CmdWord} {row : OpcodeRow} (hrow : row ∈ opcodeMap) (hw : row.selects w = true) :
    decode w = .ok (row.mnemonic.operands w) := by
  have hmatch : w &&& row.mask = row.pattern := eq_of_beq hw
  cases hfind : findRow w with
  | none => exact absurd hmatch (findRow_eq_none_iff.mp hfind row hrow)
  | some row' =>
    obtain ⟨hrow', hmatch'⟩ := matches_of_findRow hfind
    obtain rfl := row_eq_of_opcode_eq row' hrow' row hrow
      ((opcode_eq_of_matches hrow' hmatch').symm.trans (opcode_eq_of_matches hrow hmatch))
    simp [decode, hfind]

/-- The count of SHA.UPDATE reads back from its word (R75). -/
theorem fieldN_shaUpdate {n : Nat} (hn : n ≤ 255) : fieldN (0x11000000 ||| BitVec.ofNat 32 n) = n := by
  have hfield : (0x11000000 ||| BitVec.ofNat 32 n).extractLsb' 0 8 = BitVec.ofNat 8 n := by
    have hopcode : (0x11000000 : CmdWord).extractLsb' 0 8 = 0#8 := by decide
    rw [BitVec.extractLsb'_or, hopcode, BitVec.zero_or, ← BitVec.setWidth_eq_extractLsb' (by decide),
      BitVec.setWidth_ofNat_of_le (by decide)]
  rw [fieldN, hfield, BitVec.toNat_ofNat, Nat.mod_eq_of_lt (by omega)]

theorem decode_shaUpdate {n : Nat} (hn : n ≤ 255) :
    decode (0x11000000 ||| BitVec.ofNat 32 n) = .ok (.shaUpdate n) := by
  obtain ⟨row, hrow, hmnemonic, hsel⟩ := Laws.EncodeSelectsRow.shaUpdate n (decide_eq_true hn)
  rw [encode] at hsel
  rw [decode_of_selects hrow hsel, hmnemonic, Laws.mnemonicOf, Mnemonic.operands, fieldN_shaUpdate hn]

end Sys2Proof

namespace Sys2Proof.Machine

/-! ### SHA.INIT and SHA.DIGEST -/

/-- Writing the context or DOUT and completing is a completion with OK (R191, R193). -/
theorem completedWith_shaResults (s : State) (c : ShaContext) (d : HashWords) :
    CompletedWith .ok s ({ s with sha := c, dout := d }.finish .ok) := by
  constructor <;> rfl

/-- Settles O52, by `exec_shaInit`. -/
theorem shaInitStartsOver : Obligations.ShaInitStartsOver := by
  refine ⟨by decide, fun s => ⟨_, exec_shaInit s, rfl, fun j => ?_, rfl, rfl, fun _ => rfl, ⟨rfl, rfl, rfl⟩, rfl,
    completedWith_shaResults ..⟩⟩
  exact Vector.getElem_replicate j.isLt

/-- Settles O54: the context is not written, and the padded copy is that of `digest_of_lt` and `digest_of_ge`. -/
theorem shaDigestPadsACopy : Obligations.ShaDigestPadsACopy := by
  refine ⟨by decide, fun s => ⟨_, _, exec_shaDigest s, exec_shaDigest _, rfl, fun _ => rfl, ⟨rfl, rfl, rfl⟩,
    completedWith_shaResults .., rfl, ShaContext.digest_of_lt, ShaContext.digest_of_ge⟩⟩

/-! ### SHA.UPDATE: the block and the hash words after a byte group (R93) -/

/-- The byte of a group that reaches blk[j] is the one at j's distance from BF around the block; the others leave blk[j]. -/
theorem ShaContext.foldl_absorbByte_blk (g : List Byte) : ∀ (c : ShaContext) (j : Fin 128), g.length ≤ 128 →
    (g.foldl ShaContext.absorbByte c).blk[j] = g.getD ((j.val + 128 - c.bf.val) % 128) c.blk[j] := by
  induction g with
  | nil => intro c j _; rfl
  | cons b g ih =>
    intro c j hg
    rw [List.length_cons] at hg
    have hf := c.bf.isLt
    have hnext := c.absorbByte_bf b
    have hset : (c.absorbByte b).blk[j] = if c.bf.val = j.val then b else c.blk[j] := by
      rw [Fin.getElem_fin, c.absorbByte_blk b, Vector.getElem_set]; rfl
    rw [List.foldl_cons, ih _ _ (by omega), hset]
    by_cases hj : c.bf.val = j.val
    · have hpast : g.length ≤ (j.val + 128 - (c.absorbByte b).bf.val) % 128 := by omega
      have hhere : (j.val + 128 - c.bf.val) % 128 = 0 := by omega
      rw [List.getD_eq_default _ _ hpast, if_pos hj, hhere, List.getD_cons_zero]
    · have hstep : (j.val + 128 - c.bf.val) % 128 = (j.val + 128 - (c.absorbByte b).bf.val) % 128 + 1 := by omega
      rw [if_neg hj, hstep, List.getD_cons_succ]

/-- The bytes of a group from DIN, by their place. -/
theorem dinBytes_getD (din : Word) (n k : Nat) (d : Byte) :
    (dinBytes din n).getD k d = if k < n then din.extractLsb' (56 - 8 * k) 8 else d := by
  split
  · next hk => rw [List.getD_eq_getElem _ _ (by simpa using hk)]; simp [dinBytes]
  · next hk => exact List.getD_eq_default _ _ (by simpa using hk)

/-- A group that ends below the block's end leaves the hash words. -/
theorem ShaContext.absorb_h_of_lt {c : ShaContext} {g : List Byte} (hlt : c.bf.val + g.length < 128) :
    (c.absorb g).h = c.h := by
  have hdiv : (c.blk.toList.take c.bf.val ++ g).length / 128 = 0 := by rw [List.length_append, c.length_take_bf]; omega
  rw [(c.holdsFrom_self.absorb g).h, hdiv, chain_zero]

/-- A group that fills the block compresses it, with as many of the group's bytes as it has room for. -/
theorem ShaContext.absorb_h_of_ge {c : ShaContext} {g : List Byte} (hge : 128 ≤ c.bf.val + g.length) (hg : g.length ≤ 128) :
    (c.absorb g).h = compress (c.blk.toList.take c.bf.val ++ g.take (128 - c.bf.val)) c.h := by
  have hf := c.bf.isLt
  have hdiv : (c.blk.toList.take c.bf.val ++ g).length / 128 = 1 := by rw [List.length_append, c.length_take_bf]; omega
  rw [(c.holdsFrom_self.absorb g).h, hdiv, chain, chain_zero, List.take_append, c.length_take_bf,
    List.take_of_length_le (by rw [c.length_take_bf]; exact hf.le)]

theorem dinBytes_take (din : Word) {n k : Nat} (hk : k ≤ n) : (dinBytes din n).take k = dinBytes din k := by
  rw [dinBytes, ← List.map_take, List.take_range, Nat.min_eq_left hk]; rfl

/-- blk after a byte group of DIN (R93), by the distance of each byte from BF around the block. -/
theorem ShaContext.absorb_dinBytes_blk (c : ShaContext) (din : Word) {n : Nat} (hn : n ≤ 8) (j : Fin 128) :
    (c.absorb (dinBytes din n)).blk[j] = if (j.val + 128 - c.bf.val) % 128 < n
      then din.extractLsb' (56 - 8 * ((j.val + 128 - c.bf.val) % 128)) 8 else c.blk[j] := by
  rw [← dinBytes_getD]
  exact ShaContext.foldl_absorbByte_blk _ c j (by rw [dinBytes_length]; omega)

/-- A group that ends below the block's end lies from BF on. -/
theorem ShaContext.absorb_dinBytes_blk_of_lt {c : ShaContext} (din : Word) {n : Nat} (hn : n ≤ 8)
    (hlt : c.bf.val + n < 128) (j : Fin 128) :
    (c.absorb (dinBytes din n)).blk[j] = if c.bf.val ≤ j.val ∧ j.val < c.bf.val + n
      then din.extractLsb' (56 - 8 * (j.val - c.bf.val)) 8 else c.blk[j] := by
  rw [c.absorb_dinBytes_blk din hn]
  by_cases hj : c.bf.val ≤ j.val ∧ j.val < c.bf.val + n
  · have hk : (j.val + 128 - c.bf.val) % 128 = j.val - c.bf.val := by omega
    rw [if_pos hj, hk, if_pos (by omega)]
  · rw [if_neg hj, if_neg (by omega)]

/-- A group that reaches the block's end goes on from blk[0]. -/
theorem ShaContext.absorb_dinBytes_blk_of_ge {c : ShaContext} (din : Word) {n : Nat} (hn : n ≤ 8)
    (hge : 128 ≤ c.bf.val + n) (j : Fin 128) :
    (c.absorb (dinBytes din n)).blk[j] =
      if j.val < c.bf.val + n - 128 then din.extractLsb' (56 - 8 * (128 - c.bf.val + j.val)) 8
      else if c.bf.val ≤ j.val then din.extractLsb' (56 - 8 * (j.val - c.bf.val)) 8 else c.blk[j] := by
  have hf := c.bf.isLt
  rw [c.absorb_dinBytes_blk din hn]
  by_cases hnext : j.val < c.bf.val + n - 128
  · have hk : (j.val + 128 - c.bf.val) % 128 = 128 - c.bf.val + j.val := by omega
    rw [if_pos hnext, hk, if_pos (by omega)]
  · rw [if_neg hnext]
    by_cases hj : c.bf.val ≤ j.val
    · have hk : (j.val + 128 - c.bf.val) % 128 = j.val - c.bf.val := by omega
      rw [if_pos hj, hk, if_pos (by omega)]
    · rw [if_neg hj, if_neg (by omega)]

/-- Settles O53: E_ARG by `exec_shaUpdate_arg`; else BF, BC, the hash words and the block of the context that absorbed the
group, by whether the group reaches the block's end. -/
theorem shaUpdateAbsorbsDin : Obligations.ShaUpdateAbsorbsDin := by
  intro n s hn
  refine ⟨decode_shaUpdate hn, ?_⟩
  by_cases hcount : n = 0 ∨ 8 < n
  · exact ⟨_, exec_shaUpdate_arg hcount s, fun _ => errorOnly_finish s .arg, fun h1 h8 => by omega⟩
  obtain ⟨h1, h8⟩ : 1 ≤ n ∧ n ≤ 8 := by omega
  refine ⟨_, exec_shaUpdate h1 h8 s, fun harg => absurd harg hcount, fun _ _ => ?_⟩
  have hf := s.sha.bf.isLt
  have hlen := dinBytes_length s.din n
  have hbf := s.sha.absorb_bf (dinBytes s.din n)
  have hbc := s.sha.absorb_bc_toNat (dinBytes s.din n)
  rw [hlen] at hbf hbc
  refine ⟨fun _ => rfl, ⟨rfl, rfl, rfl⟩, rfl, completedWith_shaResults .., hbc, fun hlt => ?below, fun hge => ?fills⟩
  case below =>
    exact ⟨ShaContext.absorb_h_of_lt (by rw [hlen]; exact hlt), hbf.trans (Nat.mod_eq_of_lt hlt),
      ShaContext.absorb_dinBytes_blk_of_lt s.din h8 hlt⟩
  case fills =>
    refine ⟨hbf.trans (by omega), ?_, ShaContext.absorb_dinBytes_blk_of_ge s.din h8 hge⟩
    refine (ShaContext.absorb_h_of_ge (by rw [hlen]; exact hge) (by omega)).trans ?_
    rw [dinBytes_take _ (by omega)]; rfl

end Sys2Proof.Machine
end

section
/-! SUPPORT. The byte groups of a host program (spec/30_encoding.md R86, spec/40_sha512.md R104): packed into DIN, read back by
SHA.UPDATE, and absorbed as the message they make up. -/

namespace Sys2Proof.Machine

/-! ### Byte groups through DIN (R57, R86, R92) -/

theorem fromBE_append_singleton (g : List Byte) (b : Byte) : fromBE (g ++ [b]) = fromBE g * 256 + b.toNat := by
  simp [fromBE]

theorem fromBE_lt (g : List Byte) : fromBE g < 256 ^ g.length := by
  induction g using List.reverseRecOn with
  | nil => decide
  | append_singleton g b ih =>
    have hb := b.isLt
    rw [fromBE_append_singleton, List.length_append, List.length_singleton, pow_succ]
    omega

/-- Byte `k` of a big-endian integer (R16). -/
theorem fromBE_div_mod (g : List Byte) : ∀ {k : Nat} (hk : k < g.length),
    fromBE g / 256 ^ (g.length - 1 - k) % 256 = (g[k]).toNat := by
  induction g using List.reverseRecOn with
  | nil => intro k hk; exact absurd hk (Nat.not_lt_zero k)
  | append_singleton g b ih =>
    intro k hk
    have hb := b.isLt
    rw [fromBE_append_singleton, List.length_append, List.length_singleton, Nat.add_sub_cancel]
    rw [List.length_append, List.length_singleton] at hk
    by_cases hlast : k < g.length
    · have hplace : g.length - k = g.length - 1 - k + 1 := by omega
      rw [List.getElem_append_left hlast, ← ih hlast, hplace, pow_succ', ← Nat.div_div_eq_div_mul]
      congr 2; omega
    · obtain rfl : k = g.length := by omega
      rw [Nat.sub_self, pow_zero, Nat.div_one, List.getElem_concat_length rfl]; omega

/-- SHA.UPDATE reads from DIN the byte group that the host packed into it. -/
theorem dinBytes_packGroup {g : List Byte} (hg : g.length ≤ 8) : dinBytes (packGroup g) g.length = g := by
  refine List.ext_getElem (dinBytes_length _ _) fun k _ hk => BitVec.eq_of_toNat_eq ?_
  have hpack : (packGroup g).toNat = fromBE g * 2 ^ (8 * (8 - g.length)) := by
    refine Nat.mod_eq_of_lt ?_
    calc fromBE g * 2 ^ (8 * (8 - g.length))
        < 256 ^ g.length * 2 ^ (8 * (8 - g.length)) := Nat.mul_lt_mul_of_pos_right (fromBE_lt g) (by positivity)
      _ = 2 ^ 64 := by rw [show 256 = 2 ^ 8 from rfl, ← pow_mul, ← pow_add]; congr 1; omega
  have hplace : 2 ^ (56 - 8 * k) = 256 ^ (g.length - 1 - k) * 2 ^ (8 * (8 - g.length)) := by
    rw [show 256 = 2 ^ 8 from rfl, ← pow_mul, ← pow_add]; congr 1; omega
  rw [← fromBE_div_mod g hk]
  simp only [dinBytes, List.getElem_map, List.getElem_range, BitVec.extractLsb'_toNat, Nat.shiftRight_eq_div_pow, hpack, hplace]
  rw [Nat.mul_div_mul_right _ _ (by positivity)]

/-! ### A message in groups (R104, R106) -/

/-- What a host program's SHA.UPDATE commands do with the bytes `bs` in all: they are absorbed, nothing else but DIN and STATUS
changes, and ERR stays OK. -/
structure Absorbed (bs : List Byte) (s t : State) : Prop where
  sha : t.sha = s.sha.absorb bs
  regs : SameRegs s t
  flags : SameFlags s t
  dout : t.dout = s.dout
  err : s.err = .ok → t.err = .ok

theorem ShaContext.absorb_nil (c : ShaContext) : c.absorb [] = c := by
  simp [ShaContext.absorb]

theorem Absorbed.refl (s : State) : Absorbed [] s s :=
  ⟨s.sha.absorb_nil.symm, fun _ => rfl, ⟨rfl, rfl, rfl⟩, rfl, id⟩

theorem Absorbed.trans {g bs : List Byte} {s t u : State} (hst : Absorbed g s t) (htu : Absorbed bs t u) :
    Absorbed (g ++ bs) s u where
  sha := by rw [htu.sha, hst.sha, ShaContext.absorb_append]
  regs r := (htu.regs r).trans (hst.regs r)
  flags := ⟨htu.flags.eq_same.trans hst.flags.eq_same, htu.flags.lt_same.trans hst.flags.lt_same,
    htu.flags.gt_same.trans hst.flags.gt_same⟩
  dout := htu.dout.trans hst.dout
  err h := htu.err (hst.err h)

theorem updateWith_absorbed {g : List Byte} (h1 : 1 ≤ g.length) (h8 : g.length ≤ 8) (s : State) :
    ∃ t, updateWith g s = .next t ∧ Absorbed g s t :=
  ⟨_, exec_shaUpdate h1 h8 _, congrArg s.sha.absorb (dinBytes_packGroup h8), fun _ => rfl, ⟨rfl, rfl, rfl⟩, rfl,
    fun _ => rfl⟩

/-- The groups of a message are absorbed as the message (R104). -/
theorem runUpdates_absorbed (gs : List (List Byte)) : ∀ s : State, (∀ g ∈ gs, 1 ≤ g.length ∧ g.length ≤ 8) →
    ∃ t, runUpdates gs s = .next t ∧ Absorbed gs.flatten s t := by
  induction gs with
  | nil => exact fun s _ => ⟨s, rfl, Absorbed.refl s⟩
  | cons g gs ih =>
    intro s hgs
    obtain ⟨⟨h1, h8⟩, hrest⟩ := List.forall_mem_cons.mp hgs
    obtain ⟨t, ht, hst⟩ := updateWith_absorbed h1 h8 s
    obtain ⟨u, hu, htu⟩ := ih t hrest
    exact ⟨u, by rw [runUpdates, ht]; exact hu, hst.trans htu⟩

/-- Settles O57: any split absorbs the concatenation of its groups (`runUpdates_absorbed`), from the empty message. -/
theorem contextHoldsTheMessage : Obligations.ContextHoldsTheMessage := by
  intro s gs gs' hgs hgs' hsame
  obtain ⟨u, hu, habs⟩ := runUpdates_absorbed gs ({ s with sha := ShaContext.initial }.finish .ok) hgs
  obtain ⟨u', hu', habs'⟩ := runUpdates_absorbed gs' ({ s with sha := ShaContext.initial }.finish .ok) hgs'
  obtain ⟨heq, hlt, hgt⟩ := habs.flags
  refine ⟨_, u, u', exec_shaInit s, hu, hu', ?_, ?_, habs.regs, ⟨heq, hlt, hgt⟩, habs.dout, ?_⟩
  · rw [habs'.sha, habs.sha, hsame]
  · rw [habs.sha]; exact holdsMessage_initial.absorb gs.flatten
  · rw [habs.err rfl, habs'.err rfl]

/-- Settles O58: the context holds the message, and its digest is SHA-512 of what it holds (`HoldsMessage.digest`). -/
theorem digestIsSha512OfTheMessage : Obligations.DigestIsSha512OfTheMessage := by
  intro s gs hgs hlen
  obtain ⟨u, hu, habs⟩ := runUpdates_absorbed gs ({ s with sha := ShaContext.initial }.finish .ok) hgs
  refine ⟨_, u, _, exec_shaInit s, hu, exec_shaDigest u, ?_, rfl⟩
  have hholds : HoldsMessage gs.flatten u.sha := by rw [habs.sha]; exact holdsMessage_initial.absorb gs.flatten
  exact hholds.digest hlen

end Sys2Proof.Machine
end

section
/-! SUPPORT. The compression function against the spec's own text (spec/40_sha512.md R97 to R103): the six functions bit by
bit, the message schedule by its recurrence, and the rounds as a sequence of working variables. -/

namespace Sys2Proof.Machine

/-! ### The six functions (R98, R99, R100) -/

theorem getLsbD_rotateRight_word (x : Word) {n i : Nat} (hn : n < 64) (hi : i < 64) :
    (x.rotateRight n).getLsbD i = x.getLsbD ((i + n) % 64) := by
  rw [BitVec.getLsbD_rotateRight, Nat.mod_eq_of_lt hn]
  by_cases hlow : i < 64 - n
  · have hmod : (i + n) % 64 = n + i := by omega
    simp [hlow, hmod]
  · have hmod : (i + n) % 64 = i - (64 - n) := by omega
    simp [hlow, hi, hmod]

/-- Ch of three bits (R100). -/
theorem xor_and_not_and_eq_ite (a b c : Bool) : ((a && b) ^^ (!a && c)) = if a then b else c := by cases a <;> simp

/-- Maj of three bits (R100). -/
theorem xor_ands_eq_decide_two_le : ∀ a b c : Bool,
    ((a && b) ^^ (a && c) ^^ (b && c)) = decide (2 ≤ a.toNat + b.toNat + c.toNat) := by decide

/-- Settles O50, bit by bit: a rotation by `getLsbD_rotateRight_word`, Ch and Maj by their truth tables. -/
theorem roundFunctionsBitwise : Obligations.RoundFunctionsBitwise := by
  intro x y z i hi
  have hrot {n : Nat} (hn : n < 64) := getLsbD_rotateRight_word x hn hi
  refine ⟨⟨?_, ?_, ?_, ?_⟩, ?_, ?_⟩
  · simp only [sigma0Lower, BitVec.getLsbD_xor, hrot (n := 1) (by decide), hrot (n := 8) (by decide),
      BitVec.getLsbD_ushiftRight, Nat.add_comm 7]
  · simp only [sigma1Lower, BitVec.getLsbD_xor, hrot (n := 19) (by decide), hrot (n := 61) (by decide),
      BitVec.getLsbD_ushiftRight, Nat.add_comm 6]
  · simp only [sigma0Upper, BitVec.getLsbD_xor, hrot (n := 28) (by decide), hrot (n := 34) (by decide),
      hrot (n := 39) (by decide)]
  · simp only [sigma1Upper, BitVec.getLsbD_xor, hrot (n := 14) (by decide), hrot (n := 18) (by decide),
      hrot (n := 41) (by decide)]
  · rw [choice, BitVec.getLsbD_xor, BitVec.getLsbD_and, BitVec.getLsbD_and, BitVec.getLsbD_not, decide_eq_true hi,
      Bool.true_and, xor_and_not_and_eq_ite]
  · rw [majority, BitVec.getLsbD_xor, BitVec.getLsbD_xor, BitVec.getLsbD_and, BitVec.getLsbD_and, BitVec.getLsbD_and,
      xor_ands_eq_decide_two_le]

/-! ### The message schedule (R97) -/

theorem blockWords_of_eight_le {bs : List Byte} (h : 8 ≤ bs.length) :
    blockWords bs = BitVec.ofNat 64 (fromBE (bs.take 8)) :: blockWords (bs.drop 8) := by
  match bs, h with
  | _ :: _ :: _ :: _ :: _ :: _ :: _ :: _ :: _, _ => rfl

/-- The words of a block are its groups of eight bytes, big-endian. -/
theorem blockWords_eq (n : Nat) : ∀ bs : List Byte, bs.length = 8 * n →
    blockWords bs = (List.range n).map (fun t => BitVec.ofNat 64 (fromBE ((bs.drop (8 * t)).take 8))) := by
  induction n with
  | zero => intro bs h; obtain rfl := List.length_eq_zero_iff.mp h; rfl
  | succ n ih =>
    intro bs h
    rw [blockWords_of_eight_le (by omega), ih _ (by rw [List.length_drop]; omega), List.range_succ_eq_map, List.map_cons,
      List.map_map]
    refine congrArg _ (List.map_congr_left fun t _ => ?_)
    rw [List.drop_drop, Function.comp_apply, Nat.mul_succ, Nat.add_comm]

/-- Extending the schedule leaves the words so far. -/
theorem extendSchedule_drop (n : Nat) : ∀ ws : List Word, (extendSchedule n ws).drop n = ws := by
  induction n with
  | zero => intro ws; rfl
  | succ n ih => intro ws; rw [extendSchedule, ← List.drop_drop, ih, List.drop_one, List.tail_cons]

/-- Each word that extends the schedule is the next one of those before it. -/
theorem extendSchedule_getD (n : Nat) : ∀ (ws : List Word) {i : Nat}, i < n →
    (extendSchedule n ws).getD i 0 = nextScheduleWord ((extendSchedule n ws).drop (i + 1)) := by
  induction n with
  | zero => intro ws i hi; exact absurd hi (Nat.not_lt_zero i)
  | succ n ih =>
    intro ws i hi
    rw [extendSchedule]
    rcases Nat.lt_succ_iff_lt_or_eq.mp hi with hlt | rfl
    · exact ih _ hlt
    · have hlast := extendSchedule_drop i (nextScheduleWord ws :: ws)
      rw [← List.drop_drop, hlast, List.drop_one, List.tail_cons]
      have hfirst := congrArg (·.getD 0 0) hlast
      simpa [List.getD_eq_getElem?_getD] using hfirst

theorem schedule_length {blk : List Byte} (h : blk.length = 128) : (schedule blk).length = 80 := by
  rw [schedule, List.length_reverse, extendSchedule_length, List.length_reverse, blockWords_eq 16 blk h, List.length_map,
    List.length_range]

/-- The schedule counted from its other end is the list that was extended. -/
theorem schedule_getD {blk : List Byte} (h : blk.length = 128) {t : Nat} (ht : t < 80) :
    (schedule blk).getD t 0 = (extendSchedule 64 (blockWords blk).reverse).getD (79 - t) 0 := by
  have hlen : (extendSchedule 64 (blockWords blk).reverse).length = 80 := by
    rw [← schedule_length h, schedule, List.length_reverse]
  rw [schedule, List.getD_reverse _ (by omega), hlen]

/-- The first sixteen words of the schedule are the block's. -/
theorem schedule_getD_block {blk : List Byte} (h : blk.length = 128) {t : Nat} (ht : t < 16) :
    (schedule blk).getD t 0 = BitVec.ofNat 64 (fromBE ((blk.drop (8 * t)).take 8)) := by
  have hwords := blockWords_eq 16 blk h
  have hlen : (blockWords blk).length = 16 := by rw [hwords, List.length_map, List.length_range]
  have hplace : 79 - t = 64 + (15 - t) := by omega
  have hback : 16 - 1 - (15 - t) = t := by omega
  rw [schedule_getD h (by omega), hplace, List.getD_eq_getElem?_getD, ← List.getElem?_drop, extendSchedule_drop,
    ← List.getD_eq_getElem?_getD, List.getD_reverse _ (by omega), hlen, hback, hwords,
    List.getD_eq_getElem _ _ (by simpa using ht), List.getElem_map, List.getElem_range]

/-- The recurrence of the later words. -/
theorem schedule_getD_recurrence {blk : List Byte} (h : blk.length = 128) {t : Nat} (h16 : 16 ≤ t) (h80 : t < 80) :
    (schedule blk).getD t 0 =
      sigma1Lower ((schedule blk).getD (t - 2) 0) + (schedule blk).getD (t - 7) 0
        + sigma0Lower ((schedule blk).getD (t - 15) 0) + (schedule blk).getD (t - 16) 0 := by
  have hback {k : Nat} (hk : k + 1 ≤ 16) : (schedule blk).getD (t - (k + 1)) 0
      = ((extendSchedule 64 (blockWords blk).reverse).drop (79 - t + 1)).getD k 0 := by
    have hplace : 79 - (t - (k + 1)) = 79 - t + 1 + k := by omega
    rw [schedule_getD h (by omega), hplace, List.getD_eq_getElem?_getD, ← List.getElem?_drop, ← List.getD_eq_getElem?_getD]
  rw [schedule_getD h h80, extendSchedule_getD 64 _ (by omega), nextScheduleWord, ← hback (k := 1) (by decide),
    ← hback (k := 6) (by decide), ← hback (k := 14) (by decide), ← hback (k := 15) (by decide)]

/-- Settles O49: the words of the block in front, the recurrence after them. -/
theorem scheduleRecurrence : Obligations.ScheduleRecurrence :=
  fun _ h => ⟨schedule_length h, fun _ => schedule_getD_block h, fun _ => schedule_getD_recurrence h⟩

/-! ### The rounds (R102, R103) -/

/-- The rounds over a list end where any sequence of working variables ends that takes one round for each of its pairs. -/
theorem shaRounds_eq_of_steps (kws : List (Word × Word)) : ∀ v : Nat → WorkingVars,
    (∀ t (ht : t < kws.length), v (t + 1) = shaRound (v t) kws[t].1 kws[t].2) → shaRounds (v 0) kws = v kws.length := by
  induction kws with
  | nil => intro v _; rfl
  | cons kw kws ih =>
    intro v hv
    have hfirst : v 1 = shaRound (v 0) kw.1 kw.2 := hv 0 (Nat.zero_lt_succ _)
    rw [shaRounds, List.foldl_cons, ← hfirst]
    exact ih (fun t => v (t + 1)) fun t ht => hv (t + 1) (Nat.succ_lt_succ ht)

/-- Settles O51: the eight assignments are one `shaRound`, and eighty of them are the rounds of `compress`. -/
theorem compressIsEightyRounds : Obligations.CompressIsEightyRounds := by
  intro blk h v hblk hstart hround
  have hK : roundConstants.length = 80 := roundConstants_length
  have hW := schedule_length hblk
  have hlen : (roundConstants.zip (schedule blk)).length = 80 := by rw [List.length_zip, hK, hW, Nat.min_self]
  have hsteps : shaRounds (v 0) (roundConstants.zip (schedule blk)) = v 80 := by
    rw [← hlen]
    refine shaRounds_eq_of_steps _ v fun t ht => ?_
    rw [hlen] at ht
    obtain ⟨hh, hg, hf, he, hd, hc, hb, ha⟩ := hround t ht
    rw [List.getD_eq_getElem _ _ (hK.symm ▸ ht), List.getD_eq_getElem _ _ (hW.symm ▸ ht)] at ha he
    rw [List.getElem_zip, shaRound, ← ha, ← hb, ← hc, ← hd, ← he, ← hf, ← hg, ← hh]
  rw [compress, WorkingVars.ofHash, ← hstart, hsteps, feedForward]

end Sys2Proof.Machine
end

section
/-! SUPPORT. The encoding round trip (spec/30_encoding.md R71 to R77, R83): every field of a command's word reads back the
operand the encoder put there, so the word of a well-formed command decodes to that command. -/

namespace Sys2Proof

/-! ### What the parts of an encoded word put into a field -/

/-- The low bits of the register fields rs3, rs2, rs1 and rd (R71). -/
def regFieldPositions : List Nat := [8, 12, 16, 20]

theorem extractLsb'_regBits_self :
    ∀ lo ∈ regFieldPositions, ∀ r : Reg, (regBits r lo).extractLsb' lo 3 = BitVec.ofFin r := by
  decide

theorem extractLsb'_regBits_other :
    ∀ lo ∈ regFieldPositions, ∀ lo' ∈ regFieldPositions, lo' ≠ lo →
      ∀ r : Reg, (regBits r lo').extractLsb' lo 3 = 0#3 := by
  decide

/-- A register field does not reach into an immediate below it. -/
theorem extractLsb'_zero_regBits {lo len : Nat} (hlen : len ≤ lo) (r : Reg) : (regBits r lo).extractLsb' 0 len = 0#len := by
  apply BitVec.eq_of_getLsbD_eq
  intro i hi
  simp [regBits, hi.trans_le hlen]

/-- An immediate does not reach into the fields above it. -/
theorem extractLsb'_ofNat_above {n k lo : Nat} (hn : n < 2 ^ k) (hk : k ≤ lo) (len : Nat) :
    (BitVec.ofNat 32 n).extractLsb' lo len = 0#len := by
  apply BitVec.eq_of_getLsbD_eq
  intro i _
  have hbit : n.testBit (lo + i) = false :=
    Nat.testBit_lt_two_pow (hn.trans_le (Nat.pow_le_pow_right (by decide) (hk.trans (Nat.le_add_right lo i))))
  simp [BitVec.getLsbD_ofNat, hbit]

theorem extractLsb'_zero_ofNat (n : Nat) {len : Nat} (hlen : len ≤ 32) :
    (BitVec.ofNat 32 n).extractLsb' 0 len = BitVec.ofNat len n := by
  rw [← BitVec.setWidth_eq_extractLsb' hlen, BitVec.setWidth_ofNat_of_le hlen]

/-! ### The round trip -/

/-- The fields of a well-formed command's word hold its operands (R71 to R75). -/
theorem operands_encode {i : Instr} (hwf : i.wf = true) : (Laws.mnemonicOf i).operands (encode i) = i := by
  cases i with
  | shaInit | shaDigest => rfl
  | shaUpdate n => exact congrArg Instr.shaUpdate (fieldN_shaUpdate (of_decide_eq_true hwf))
  | bigLdi rd imm20 =>
    have himm : imm20 < 2 ^ 20 := Nat.lt_succ_of_le (of_decide_eq_true hwf)
    simpa (disch := decide) [Laws.mnemonicOf, Mnemonic.operands, encode, fieldRd, fieldImm20, regField, BitVec.extractLsb'_or,
      extractLsb'_regBits_self, extractLsb'_zero_regBits, extractLsb'_ofNat_above himm, extractLsb'_zero_ofNat] using himm
  | bigShr rd rs1 imm16 =>
    have himm : imm16 < 2 ^ 16 := Nat.lt_succ_of_le (of_decide_eq_true hwf)
    simpa (disch := decide) [Laws.mnemonicOf, Mnemonic.operands, encode, fieldRd, fieldRs1, fieldImm16, regField,
      BitVec.extractLsb'_or, extractLsb'_regBits_self, extractLsb'_regBits_other, extractLsb'_zero_regBits,
      extractLsb'_ofNat_above himm, extractLsb'_zero_ofNat] using himm
  | bigMov | bigAdd | bigSub | bigMul | bigMod | bigCmp | bigModmul | bigModexp | bigGcd | bigModinv =>
    simp (disch := decide) [Laws.mnemonicOf, Mnemonic.operands, encode, fieldRd, fieldRs1, fieldRs2, fieldRs3, regField,
      BitVec.extractLsb'_or, extractLsb'_regBits_self, extractLsb'_regBits_other]

/-- The word of a well-formed command selects the row of its own mnemonic (R77). -/
theorem encode_selects_row : ∀ i : Instr, Laws.EncodeSelectsRow.Statement i
  | .shaInit => Laws.EncodeSelectsRow.shaInit
  | .shaUpdate n => Laws.EncodeSelectsRow.shaUpdate n
  | .shaDigest => Laws.EncodeSelectsRow.shaDigest
  | .bigMov rd rs1 => Laws.EncodeSelectsRow.bigMov rd rs1
  | .bigLdi rd imm20 => Laws.EncodeSelectsRow.bigLdi rd imm20
  | .bigAdd rd rs1 rs2 => Laws.EncodeSelectsRow.bigAdd rd rs1 rs2
  | .bigSub rd rs1 rs2 => Laws.EncodeSelectsRow.bigSub rd rs1 rs2
  | .bigMul rd rs1 rs2 => Laws.EncodeSelectsRow.bigMul rd rs1 rs2
  | .bigMod rd rs1 rs2 => Laws.EncodeSelectsRow.bigMod rd rs1 rs2
  | .bigShr rd rs1 imm16 => Laws.EncodeSelectsRow.bigShr rd rs1 imm16
  | .bigCmp rs1 rs2 => Laws.EncodeSelectsRow.bigCmp rs1 rs2
  | .bigModmul rd rs1 rs2 rs3 => Laws.EncodeSelectsRow.bigModmul rd rs1 rs2 rs3
  | .bigModexp rd rs1 rs2 rs3 => Laws.EncodeSelectsRow.bigModexp rd rs1 rs2 rs3
  | .bigGcd rd rs1 rs2 => Laws.EncodeSelectsRow.bigGcd rd rs1 rs2
  | .bigModinv rd rs1 rs2 => Laws.EncodeSelectsRow.bigModinv rd rs1 rs2

/-- The word of a well-formed command decodes to that command (R77, R83). -/
theorem decode_encode {i : Instr} (hwf : i.wf = true) : decode (encode i) = .ok i := by
  obtain ⟨row, hrow, hmnemonic, hsel⟩ := encode_selects_row i hwf
  rw [decode_of_selects hrow hsel, hmnemonic, operands_encode hwf]

end Sys2Proof
end

section
/-! SUPPORT. The big-integer ALU commands one by one (spec/41_bigint_alu.md R120 to R134): one equation per command, and the
two ways in which a command with a guard ends. -/

namespace Sys2Proof.Machine

/-! ### What the completion of each command does -/

theorem exec_bigMov (rd rs1 : Reg) (s : State) :
    exec (.bigMov rd rs1) s = .next ((s.writeBig rd (s.big rs1)).finish .ok) := rfl

theorem exec_bigLdi (rd : Reg) (imm20 : Nat) (s : State) :
    exec (.bigLdi rd imm20) s = .next ((s.writeBig rd imm20).finish .ok) := rfl

theorem exec_bigAdd (rd rs1 rs2 : Reg) (s : State) :
    exec (.bigAdd rd rs1 rs2) s = if 2 ^ s.bigw ≤ s.big rs1 + s.big rs2 then .next (s.finish .range)
      else .next ((s.writeBig rd (s.big rs1 + s.big rs2)).finish .ok) := rfl

theorem exec_bigSub (rd rs1 rs2 : Reg) (s : State) :
    exec (.bigSub rd rs1 rs2) s = if s.big rs1 < s.big rs2 then .next (s.finish .range)
      else .next ((s.writeBig rd (s.big rs1 - s.big rs2)).finish .ok) := rfl

theorem exec_bigMul (rd rs1 rs2 : Reg) (s : State) :
    exec (.bigMul rd rs1 rs2) s = if 2 ^ s.bigw ≤ s.big rs1 * s.big rs2 then .next (s.finish .range)
      else .next ((s.writeBig rd (s.big rs1 * s.big rs2)).finish .ok) := rfl

theorem exec_bigMod (rd rs1 rs2 : Reg) (s : State) :
    exec (.bigMod rd rs1 rs2) s = if s.big rs2 = 0 then .next (s.finish .arg)
      else .next ((s.writeBig rd (s.big rs1 % s.big rs2)).finish .ok) := rfl

/-- R132: the amount is not taken modulo BIGW. -/
theorem exec_bigShr (rd rs1 : Reg) (imm16 : Nat) (s : State) :
    exec (.bigShr rd rs1 imm16) s
      = .next ((s.writeBig rd (if s.bigw ≤ imm16 then 0 else s.big rs1 / 2 ^ imm16)).finish .ok) := by
  by_cases hge : s.bigw ≤ imm16
  · rw [if_pos hge]; exact if_pos hge
  · rw [if_neg hge]; exact if_neg hge

theorem exec_bigCmp (rs1 rs2 : Reg) (s : State) :
    exec (.bigCmp rs1 rs2) s = .next ((s.writeCompareFlags (s.big rs1) (s.big rs2)).finish .ok) := rfl

/-- Writing the comparison flags and completing is a completion with OK (R191, R193). -/
theorem completedWith_writeCompareFlags (s : State) (a b : Nat) :
    CompletedWith .ok s ((s.writeCompareFlags a b).finish .ok) := by
  constructor <;> rfl

/-- A command that raises `e` under a guard and else writes rd ends in one of the two ways, each with its frame (R191). -/
theorem resultIn_or_errorOnly {o : Host.Outcome State Fault Refusal} {c : Prop} [Decidable c] {e : ErrCode} {rd : Reg}
    {v : Nat} {s : State} (ho : o = if c then .next (s.finish e) else .next ((s.writeBig rd v).finish .ok)) :
    ∃ t, o = .next t ∧ (¬ c → ResultIn rd v s t) ∧ (c → ErrorOnly e s t) := by
  by_cases hc : c
  · exact ⟨_, ho.trans (if_pos hc), fun hn => absurd hc hn, fun _ => errorOnly_finish s e⟩
  · exact ⟨_, ho.trans (if_neg hc), fun _ => resultIn_writeBig s rd v, fun h => absurd h hc⟩

/-! ### The obligations -/

/-- Settles O36: the operand is read before rd is written, so rd = rs1 is no special case (R136). -/
theorem movCopies : Obligations.MovCopies := fun rd rs1 s =>
  ⟨decode_encode (i := .bigMov rd rs1) rfl, _, exec_bigMov rd rs1 s, resultIn_writeBig s rd _⟩

/-- Settles O37, by `decode_encode` at the bound of imm20. -/
theorem ldiLoadsImmediate : Obligations.LdiLoadsImmediate := fun rd imm20 s himm =>
  ⟨decode_encode (i := .bigLdi rd imm20) (decide_eq_true himm), _, exec_bigLdi rd imm20 s, resultIn_writeBig s rd _⟩

/-- Settles O38: a sum that is not out of range is written whole. -/
theorem addIsExactOrRange : Obligations.AddIsExactOrRange := by
  intro rd rs1 rs2 s
  obtain ⟨t, ht, hsum, hrange⟩ := resultIn_or_errorOnly (exec_bigAdd rd rs1 rs2 s)
  exact ⟨decode_encode (i := .bigAdd rd rs1 rs2) rfl, t, ht, fun hlt => hsum (Nat.not_le.mpr hlt), hrange⟩

/-- Settles O39: without a borrow the subtraction of naturals is the exact difference. -/
theorem subIsExactOrRange : Obligations.SubIsExactOrRange := by
  intro rd rs1 rs2 s
  obtain ⟨t, ht, hdiff, hrange⟩ := resultIn_or_errorOnly (exec_bigSub rd rs1 rs2 s)
  exact ⟨decode_encode (i := .bigSub rd rs1 rs2) rfl, t, ht,
    fun hle => ⟨_, Nat.sub_add_cancel hle, hdiff (Nat.not_lt.mpr hle)⟩, hrange⟩

/-- Settles O40: a product that is not out of range is written whole. -/
theorem mulIsExactOrRange : Obligations.MulIsExactOrRange := by
  intro rd rs1 rs2 s
  obtain ⟨t, ht, hproduct, hrange⟩ := resultIn_or_errorOnly (exec_bigMul rd rs1 rs2 s)
  exact ⟨decode_encode (i := .bigMul rd rs1 rs2) rfl, t, ht, fun hlt => hproduct (Nat.not_le.mpr hlt), hrange⟩

/-- Settles O41, with the Euclidean quotient as q. -/
theorem modIsRemainderOrArg : Obligations.ModIsRemainderOrArg := by
  intro rd rs1 rs2 s
  obtain ⟨t, ht, hrem, harg⟩ := resultIn_or_errorOnly (exec_bigMod rd rs1 rs2 s)
  exact ⟨decode_encode (i := .bigMod rd rs1 rs2) rfl, t, ht,
    fun hne => ⟨s.big rs1 / s.big rs2, s.big rs1 % s.big rs2, (Nat.div_add_mod' ..).symm,
      Nat.mod_lt _ (Nat.pos_of_ne_zero hne), hrem hne⟩, harg⟩

/-- Settles O42: one write of rd, whose value is chosen by the amount. -/
theorem shrDividesByPowerOfTwo : Obligations.ShrDividesByPowerOfTwo := by
  intro rd rs1 imm16 s himm
  have hresult := resultIn_writeBig s rd (if s.bigw ≤ imm16 then 0 else s.big rs1 / 2 ^ imm16)
  refine ⟨decode_encode (i := .bigShr rd rs1 imm16) (decide_eq_true himm), _, exec_bigShr rd rs1 imm16 s,
    fun hlt => ?_, fun hge => ?_⟩
  · simpa only [if_neg (Nat.not_le.mpr hlt)] using hresult
  · simpa only [if_pos hge] using hresult

/-- Settles O43: the flags are the three comparisons, of which `flagCount_writeCompareFlags` counts one. -/
theorem cmpSetsExactlyOneFlag : Obligations.CmpSetsExactlyOneFlag := fun rs1 rs2 s =>
  ⟨decode_encode (i := .bigCmp rs1 rs2) rfl, _, exec_bigCmp rs1 rs2 s, fun _ => rfl, rfl, rfl,
    completedWith_writeCompareFlags s _ _, decide_eq_true_iff, decide_eq_true_iff, decide_eq_true_iff,
    s.flagCount_writeCompareFlags _ _⟩

end Sys2Proof.Machine
end

section
/-! SUPPORT. The commands of the modular multiplier (spec/42_modmul.md R140 to R146): one equation per command, and what
BIG.MODEXP computes with a non-zero modulus. -/

namespace Sys2Proof.Machine

/-! ### What the completion of each command does -/

theorem exec_bigModmul (rd rs1 rs2 rs3 : Reg) (s : State) :
    exec (.bigModmul rd rs1 rs2 rs3) s = if s.big rs3 = 0 then .next (s.finish .arg)
      else .next ((s.writeBig rd (s.big rs1 * s.big rs2 % s.big rs3)).finish .ok) := rfl

/-- R147: the binary exponentiation is the power. -/
theorem exec_bigModexp (rd rs1 rs2 rs3 : Reg) (s : State) :
    exec (.bigModexp rd rs1 rs2 rs3) s = if s.big rs3 = 0 then .next (s.finish .arg)
      else .next ((s.writeBig rd (s.big rs1 ^ s.big rs2 % s.big rs3)).finish .ok) := by
  rw [← modPow_eq]; rfl

/-- The form of BIG.MODEXP that the public-key operations use (R146). -/
theorem exec_bigModexp_resultIn {rd x k n : Reg} {s : State} (hn : s.big n ≠ 0) :
    ∃ t, exec (.bigModexp rd x k n) s = .next t ∧ ResultIn rd (s.big x ^ s.big k % s.big n) s t := by
  obtain ⟨t, ht, hpower, -⟩ := resultIn_or_errorOnly (exec_bigModexp rd x k n s)
  exact ⟨t, ht, hpower hn⟩

/-! ### The obligations -/

/-- Settles O44: the remainder of the product is the residue below the modulus. -/
theorem modmulIsExactResidue : Obligations.ModmulIsExactResidue := by
  intro rd rs1 rs2 rs3 s
  obtain ⟨t, ht, hresidue, harg⟩ := resultIn_or_errorOnly (exec_bigModmul rd rs1 rs2 rs3 s)
  exact ⟨decode_encode (i := .bigModmul rd rs1 rs2 rs3) rfl, t, ht,
    fun hne => ⟨_, Nat.mod_lt _ (Nat.pos_of_ne_zero hne), Nat.mod_modEq .., hresidue hne⟩, harg⟩

/-- Settles O45: exponent 0 is the case `pow_zero` of the power, and each public-key operation is one BIG.MODEXP. -/
theorem modexpIsExactPower : Obligations.ModexpIsExactPower := by
  refine ⟨fun rd rs1 rs2 rs3 s => ?_, fun rd x e d n s hn => ?_⟩
  · obtain ⟨t, ht, hpower, harg⟩ := resultIn_or_errorOnly (exec_bigModexp rd rs1 rs2 rs3 s)
    have hone (hne : s.big rs3 ≠ 0) (hzero : s.big rs2 = 0) : ResultIn rd (1 % s.big rs3) s t := by
      simpa only [hzero, pow_zero] using hpower hne
    exact ⟨decode_encode (i := .bigModexp rd rs1 rs2 rs3) rfl, t, ht, hpower, hone, harg⟩
  · obtain ⟨t, ht, hencrypt⟩ := exec_bigModexp_resultIn (rd := rd) (x := x) (k := e) hn
    obtain ⟨u, hu, hdecrypt⟩ := exec_bigModexp_resultIn (rd := rd) (x := x) (k := d) hn
    rw [encryptCommand_eq, verifyCommand_eq, decryptCommand_eq, signCommand_eq]
    exact ⟨t, u, ht, ht, hencrypt, hu, hu, hdecrypt⟩

end Sys2Proof.Machine
end

section
/-! SUPPORT. The commands of the GCD unit (spec/43_gcd.md R150 to R161): how each command ends, with the greatest common
divisor in place of Euclid's loop, and the order in which BIG.MODINV finds its errors. -/

namespace Sys2Proof.Machine

/-! ### What the completion of each command does -/

theorem exec_bigGcd (rd rs1 rs2 : Reg) (s : State) :
    exec (.bigGcd rd rs1 rs2) s = .next ((s.writeBig rd (Nat.gcd (s.big rs1) (s.big rs2))).finish .ok) := by
  rw [← bigGcd_eq]; rfl

/-- BIG.MODINV after the forward pass of 0 < a < m: no recorded step or a common divisor above 1 is E_LOGIC; else rd takes the
coefficient, which is not 0 (R156, R157, R160). -/
theorem finishModinv_forwardPass {a m : Nat} (h0 : 0 < a) (h1 : a < m) (rd : Reg) (s : State) :
    finishModinv rd m (forwardPass a m a).2 (s.recordWork (forwardPass a m a).1)
      = if m % a = 0 ∨ Nat.gcd a m ≠ 1 then .next (s.finish .logic)
        else .next ((s.writeBig rd (inverseCandidate m (forwardPass a m a).1)).finish .ok) := by
  have hnil : (forwardPass a m a).1 = [] ↔ m % a = 0 := forwardPass_nil h0
  have hgcd : (forwardPass a m a).2 = Nat.gcd a m := (forwardPass_gcd a m a h0 le_rfl).trans (Nat.gcd_comm m a)
  by_cases hrem : m % a = 0
  · simp [finishModinv, raiseErr_eq, hnil, hrem]
  by_cases hone : Nat.gcd a m = 1
  · have hpos := (inverseCandidate_spec h0 h1 hrem hone).1
    simp [finishModinv, complete_eq, hnil, hgcd, hrem, hone, hpos.ne']
  · simp [finishModinv, raiseErr_eq, hgcd, hone]

/-- R158: the arguments are checked before the forward pass. -/
theorem exec_bigModinv_of_argError {rd rs1 rs2 : Reg} {s : State}
    (harg : s.big rs1 = 0 ∨ s.big rs2 = 0 ∨ s.big rs2 ≤ s.big rs1) :
    exec (.bigModinv rd rs1 rs2) s = .next (s.finish .arg) := if_pos harg

theorem exec_bigModinv_of_lt {rd rs1 rs2 : Reg} {s : State} (h0 : 0 < s.big rs1) (h1 : s.big rs1 < s.big rs2) :
    exec (.bigModinv rd rs1 rs2) s
      = if s.big rs2 % s.big rs1 = 0 ∨ Nat.gcd (s.big rs1) (s.big rs2) ≠ 1 then .next (s.finish .logic)
        else .next ((s.writeBig rd
          (inverseCandidate (s.big rs2) (forwardPass (s.big rs1) (s.big rs2) (s.big rs1)).1)).finish .ok) :=
  (if_neg (by omega)).trans (finishModinv_forwardPass h0 h1 rd s)

/-! ### Common divisors and inverses -/

theorem gcd_le_max (a b : Nat) : Nat.gcd a b ≤ max a b := by
  rcases Nat.eq_zero_or_pos a with ha | ha
  · simp [ha]
  · exact (Nat.gcd_le_left b ha).trans (le_max_left a b)

/-- A divisor above 1 is not coprime to what it divides, so coprime operands record a step (R156). -/
theorem mod_ne_zero_of_gcd_eq_one {a m : Nat} (h1 : 1 < a) (hg : Nat.gcd a m = 1) : m % a ≠ 0 := fun hrem =>
  h1.ne' ((Nat.gcd_eq_left (Nat.dvd_of_mod_eq_zero hrem)).symm.trans hg)

/-- Two inverses of `a` below the modulus are one (R161). -/
theorem inverse_unique {a m d d' : Nat} (hg : Nat.gcd a m = 1) (hd : d < m) (hd' : d' < m)
    (hinv : a * d % m = 1) (hinv' : a * d' % m = 1) : d' = d :=
  (Nat.ModEq.cancel_left_of_coprime ((Nat.gcd_comm m a).trans hg) (hinv'.trans hinv.symm)).eq_of_lt_of_lt hd' hd

/-! ### The obligations -/

/-- Settles O46: `Nat.gcd` has the universal property, and `gcd_le_max` bounds it even when an operand is 0. -/
theorem gcdIsGreatestCommonDivisor : Obligations.GcdIsGreatestCommonDivisor := fun rd rs1 rs2 s =>
  ⟨decode_encode (i := .bigGcd rd rs1 rs2) rfl, _, _, exec_bigGcd rd rs1 rs2 s, resultIn_writeBig s rd _,
    Nat.gcd_dvd_left .., Nat.gcd_dvd_right .., fun _ => Nat.dvd_gcd,
    fun hzero => by rw [hzero, Nat.gcd_zero_right], fun hzero => by rw [hzero, Nat.gcd_zero_left], gcd_le_max _ _⟩

/-- Settles O47: coprime operands record a step, so rd takes the coefficient of `inverseCandidate_spec`. -/
theorem modinvIsTheInverse : Obligations.ModinvIsTheInverse := by
  intro rd rs1 rs2 s h1 hlt hg
  have h0 : 0 < s.big rs1 := Nat.zero_lt_of_lt h1
  have hrem := mod_ne_zero_of_gcd_eq_one h1 hg
  obtain ⟨hpos, hdlt, hinv⟩ := inverseCandidate_spec h0 hlt hrem hg
  have hexec := (exec_bigModinv_of_lt (rd := rd) h0 hlt).trans (if_neg (by simp [hrem, hg]))
  exact ⟨_, _, hexec, resultIn_writeBig s rd _, hpos, hdlt, hinv, fun d' hd' hinv' => inverse_unique hg hdlt hd' hinv hinv'⟩

/-- Settles O48: an argument error ends the command first; for 0 < a < m the two causes of E_LOGIC are one guard. -/
theorem modinvErrors : Obligations.ModinvErrors := by
  intro rd rs1 rs2 s
  refine ⟨decode_encode (i := .bigModinv rd rs1 rs2) rfl, ?_⟩
  by_cases harg : s.big rs1 = 0 ∨ s.big rs2 = 0 ∨ s.big rs2 ≤ s.big rs1
  · exact ⟨_, exec_bigModinv_of_argError harg, fun _ => errorOnly_finish s .arg,
      fun _ _ => absurd harg (by omega), fun _ _ => absurd harg (by omega)⟩
  · have hexec := exec_bigModinv_of_lt (rd := rd) (rs1 := rs1) (rs2 := rs2) (s := s) (by omega) (by omega)
    obtain ⟨t, ht, -, hlogic⟩ := resultIn_or_errorOnly hexec
    exact ⟨t, ht, fun h => absurd h harg, fun _ _ hrem => hlogic (.inl hrem), fun _ _ _ hg => hlogic (.inr hg)⟩

end Sys2Proof.Machine
end

section
/-! SUPPORT. The completion of a command as one code and one result (spec/60_exceptions.md R191, R193), and the accept of the
next one (R192). -/

namespace Sys2Proof.Machine

/-- The code a completion with the given result ends with: OK unless it is an error (R190). -/
def Effect.code : Effect → ErrCode
  | .error e => e
  | .register _ _ => .ok
  | .flags _ _ => .ok
  | .context _ => .ok
  | .digest _ => .ok

/-- Every effect is a completion with its code (R193). -/
theorem Effect.completedWith_code (e : Effect) (s : State) : CompletedWith e.code s (e.on s) := by
  cases e with
  | error e => exact completedWith_finish s e
  | register rd v => exact (resultIn_writeBig s rd v).completed
  | flags a b => constructor <;> rfl
  | context c => constructor <;> rfl
  | digest d => constructor <;> rfl

/-- The results that end with a code other than OK are the errors, which write nothing (R191). -/
theorem Effect.errorOnly_code {e : Effect} (h : e.code ≠ .ok) (s : State) : ErrorOnly e.code s (e.on s) := by
  cases e with
  | error e => exact errorOnly_finish s e
  | register rd v => exact absurd rfl h
  | flags a b => exact absurd rfl h
  | context c => exact absurd rfl h
  | digest d => exact absurd rfl h

/-- With a command in flight the engine's turn is a completion, be the word legal or not (R80, R193). -/
theorem engineTurn_effect {s : State} (hb : s.busy = true) : ∃ e : Effect, engineTurn s = .next (e.on s) := by
  cases hd : decode s.cmd with
  | ok i =>
    obtain ⟨e, he, -⟩ := exec_effect (SameInputs.refl i s)
    exact ⟨e, (engineTurn_command hb hd).trans he⟩
  | error d => exact ⟨.error .illegal, engineTurn_illegal hb hd⟩

/-- Settles O9: the code and the frame are those of the completion's effect. -/
theorem completionIsPrecise : Obligations.CompletionIsPrecise := fun s hb => by
  obtain ⟨e, he⟩ := engineTurn_effect hb
  exact ⟨e.on s, e.code, he, e.completedWith_code s, fun hne => Effect.errorOnly_code hne s⟩

/-- The step that takes the engine's turn with a command in flight, as a completion with some code. -/
theorem step_completion {s t : State} (hb : s.busy = true) (hn : s.engineNext) (h : step s = .next t) :
    ∃ e : ErrCode, CompletedWith e s.popTurn t := by
  obtain ⟨e, he⟩ := engineTurn_effect (s := s.popTurn) hb
  obtain rfl := Host.Outcome.next.inj (((step_engine hn).trans he).symm.trans h)
  exact ⟨e.code, e.completedWith_code s.popTurn⟩

/-- R192 for the step whose turn is the write of CMD. -/
theorem step_accept {s : State} {v : Word} {rest : List Turn} (hb : s.busy = false)
    (ha : s.agenda = .host (.write 0x018 8 v) :: rest) :
    step s = .next ({ s with agenda := rest }.accept (v.extractLsb' 0 32)) := by
  rw [step_hostWrite ha (tg := .cmd) rfl rfl, hostWrite_cmd_idle v (s := { s with agenda := rest }) hb]

/-- Settles O7: the write is `step_accept`, and the state it leaves completes the decoded command at an engine's turn. -/
theorem cmdWriteIsAcceptedThenRun : Obligations.CmdWriteIsAcceptedThenRun := by
  intro s v rest hb ha
  refine ⟨_, step_accept hb ha, rfl, fun i rest' hd hrest => ?_⟩
  subst hrest
  exact step_completes ⟨rfl, hd, .inr ⟨rest', rfl⟩⟩

/-- Settles O26: a completion sets DONE and leaves IE, a CTRL write sets IE and leaves DONE, and IRQ is their conjunction. -/
theorem irqAssertsAtCompletion : Obligations.IrqAssertsAtCompletion := by
  refine ⟨fun s t hb hn h => ?_, fun s t v hw hv h => ?_, fun _ => ⟨rfl, rfl⟩⟩
  · obtain ⟨e, hc⟩ := step_completion hb hn h
    rw [State.irq, hc.done_set, Bool.and_true, hc.ie, State.popTurn_ie]
  · obtain ⟨rest, ha⟩ := hw
    obtain rfl := Host.Outcome.next.inj ((step_writeCtrl_noReset ha rfl rfl hv).symm.trans h)
    rfl

end Sys2Proof.Machine
end

section
/-! SUPPORT. STATUS.DONE and STATUS.OVR (spec/10_state.md R29): all a step can do to them, and what leads to which change. -/

namespace Sys2Proof.Machine

/-- The next step is a host write that BUSY = 1 discards (spec/20_memory.md R55(a)). -/
def State.discardNext (s : State) : Prop :=
  s.busy = true ∧ ∃ off v tg rest, s.agenda = .host (.write off 8 v) :: rest ∧ off % 8 = 0 ∧
    target s.limbs off = some tg ∧ (tg = .cmd ∨ tg = .din ∨ ∃ r j, tg = .limb r j)

/-- R55(a): the targets whose write BUSY guards. -/
theorem Target.writeGuarded_iff {tg : Target} :
    tg.writeGuarded = true ↔ tg = .cmd ∨ tg = .din ∨ ∃ r j, tg = .limb r j := by
  cases tg <;> simp [Target.writeGuarded]

/-- What a step does to DONE and OVR, with the turn that does it (R29, R191, R192, R198, R209). -/
inductive StatusStep (s t : State) : Prop where
  | kept (done : t.doneFlag = s.doneFlag) (ovr : t.ovr = s.ovr)
  | completed (done : t.doneFlag = true) (ovr : t.ovr = s.ovr)
  | accepted (turn : s.acceptNext) (done : t.doneFlag = false) (ovr : t.ovr = s.ovr)
  | discarded (turn : s.discardNext) (done : t.doneFlag = s.doneFlag) (ovr : t.ovr = true)
  | statusWrite (v : Word) (turn : s.writeNext 0x010 v) (done : t.doneFlag = (s.doneFlag && !v.getLsbD 1))
      (ovr : t.ovr = (s.ovr && !v.getLsbD 2))
  | reset (turn : s.softResetNext ∨ s.powerOnNext) (done : t.doneFlag = false) (ovr : t.ovr = false)

/-- The host's writes among them, by the target of the write (R51, R55). -/
theorem statusStep_hostWrite {s : State} {off : Nat} {v : Word} {tg : Target} {rest : List Turn}
    (ha : s.agenda = .host (.write off 8 v) :: rest) (h8 : off % 8 = 0) (ht : target s.limbs off = some tg) :
    StatusStep s (hostWrite tg v s.popTurn) := by
  have hcontrol := target_control ht
  rcases hostWrite_cases tg v s.popTurn with
    ⟨hb, hg, h⟩ | ⟨hg, ⟨htg, h⟩ | ⟨htg, h⟩ | ⟨htg, h⟩ | ⟨-, h⟩ | ⟨r, j, -, h⟩ | ⟨-, h⟩⟩ <;> rw [h]
  case inl => exact .discarded ⟨hb, off, v, tg, rest, ha, h8, ht, Target.writeGuarded_iff.mp hg⟩ rfl rfl
  case inr.inl =>
    by_cases hv : v.getLsbD 1 = true
    · rw [State.writeCtrl_reset hv]
      exact .reset (.inl (softResetNext_of_ctrl ha ht htg hv)) rfl rfl
    · rw [State.writeCtrl_noReset hv]
      exact .kept rfl rfl
  case inr.inr.inl =>
    obtain rfl := hcontrol.2.2.1 htg
    exact .statusWrite v ⟨rest, ha⟩ rfl rfl
  case inr.inr.inr.inl =>
    obtain rfl := hcontrol.2.2.2.1 htg
    subst htg
    exact .accepted ⟨hg.resolve_right (by decide), v, rest, ha⟩ rfl rfl
  all_goals exact .kept rfl rfl

/-- Every step with a next state is one of them; the completions are those of `step_completion`. -/
theorem step_statusStep {s t : State} (h : step s = .next t) : StatusStep s t := by
  rcases step_next_cases h with
    ⟨-, -, rfl⟩ | ⟨hn, hb, -, -⟩ | ⟨i, hi, -⟩ | ⟨hp, rfl⟩ | ⟨off, tg, rest, -, -, -, rfl⟩ | ⟨off, v, tg, rest, ha, h8, ht, rfl⟩
  · exact .kept rfl rfl
  · obtain ⟨e, hc⟩ := step_completion hb hn h
    exact .completed hc.done_set hc.ovr
  · obtain ⟨e, hc⟩ := step_completion hi.1 hi.2.2 h
    exact .completed hc.done_set hc.ovr
  · exact .reset (.inr hp) rfl rfl
  · rcases hostRead_cases tg s.popTurn with ⟨-, -, hr⟩ | ⟨-, hr⟩ <;> rw [hr] <;> exact .kept rfl rfl
  · exact statusStep_hostWrite ha h8 ht

/-! ### What clears DONE (R198) -/

theorem doneFlag_of_statusWrite {s t : State} {v : Word} (hw : s.writeNext 0x010 v) (h : step s = .next t) :
    t.doneFlag = (s.doneFlag && !v.getLsbD 1) := by
  obtain ⟨rest, ha⟩ := hw
  have hs := step_hostWrite ha (tg := .status) rfl rfl
  rw [hostWrite_status] at hs
  obtain rfl := Host.Outcome.next.inj (hs.symm.trans h)
  rfl

theorem doneFlag_of_accept {s t : State} (ha : s.acceptNext) (h : step s = .next t) : t.doneFlag = false := by
  obtain ⟨hb, v, rest, ha⟩ := ha
  obtain rfl := Host.Outcome.next.inj ((step_accept hb ha).symm.trans h)
  rfl

theorem doneFlag_of_reset {s t : State} (hr : s.softResetNext ∨ s.powerOnNext) (h : step s = .next t) :
    t.doneFlag = false := by
  rcases hr with hr | hr
  · obtain ⟨ie, hs⟩ := step_softReset hr
    obtain rfl := Host.Outcome.next.inj (hs.symm.trans h)
    rfl
  · obtain rfl := Host.Outcome.next.inj ((step_powerOn hr).symm.trans h)
    rfl

/-- Settles O25: the steps of `StatusStep` that leave DONE at 0 are those listed, and each listed turn leaves it at 0. -/
theorem doneClearsExactlyOn : Obligations.DoneClearsExactlyOn := by
  intro s t h hset
  constructor
  · intro hclear
    cases step_statusStep h with
    | kept done ovr => simp [done, hset] at hclear
    | completed done ovr => simp [done] at hclear
    | accepted turn done ovr => exact .inr (.inl turn)
    | discarded turn done ovr => simp [done, hset] at hclear
    | statusWrite v turn done ovr => exact .inl ⟨v, turn, by simpa [done, hset] using hclear⟩
    | reset turn done ovr => exact .inr (.inr turn)
  · rintro (⟨v, hw, hv⟩ | ha | hr)
    · rw [doneFlag_of_statusWrite hw h, hv, Bool.not_true, Bool.and_false]
    · exact doneFlag_of_accept ha h
    · exact doneFlag_of_reset hr h

/-! ### What sets and clears OVR (R209) -/

/-- A write that BUSY = 1 discards sets OVR and changes nothing else (R55(a)). -/
theorem step_discarded {s t : State} {off : Nat} {v : Word} {tg : Target} {rest : List Turn} (hb : s.busy = true)
    (ha : s.agenda = .host (.write off 8 v) :: rest) (ht : target s.limbs off = some tg) (hg : tg.writeGuarded = true)
    (h : step s = .next t) : t = { s with ovr := true, agenda := rest } := by
  have hturn := h
  rw [step_host ha] at hturn
  rcases hostTurn_next hturn with ⟨off', tg', hread, -⟩ | ⟨off', v', tg', hwrite, h8, -⟩
  · cases hread
  · cases hwrite
    have hs := step_hostWrite ha h8 ht
    rw [hostWrite_discarded v (s := { s with agenda := rest }) hb hg] at hs
    exact Host.Outcome.next.inj (h.symm.trans hs)

/-- Only a discarded write sets OVR. -/
theorem discardNext_of_ovr_set {s t : State} (h : step s = .next t) (hclear : s.ovr = false) (hset : t.ovr = true) :
    s.discardNext := by
  cases step_statusStep h with
  | discarded turn done ovr => exact turn
  | kept done ovr => simp [ovr, hclear] at hset
  | completed done ovr => simp [ovr, hclear] at hset
  | accepted turn done ovr => simp [ovr, hclear] at hset
  | statusWrite v turn done ovr => simp [ovr, hclear] at hset
  | reset turn done ovr => simp [ovr] at hset

/-- Only the host's 1 to it and the resets clear OVR. -/
theorem ovr_clearers {s t : State} (h : step s = .next t) (hset : s.ovr = true) (hclear : t.ovr = false) :
    (∃ v, s.writeNext 0x010 v ∧ v.getLsbD 2 = true) ∨ s.softResetNext ∨ s.powerOnNext := by
  cases step_statusStep h with
  | statusWrite v turn done ovr => exact .inl ⟨v, turn, by simpa [ovr, hset] using hclear⟩
  | reset turn done ovr => exact .inr turn
  | kept done ovr => simp [ovr, hset] at hclear
  | completed done ovr => simp [ovr, hset] at hclear
  | accepted turn done ovr => simp [ovr, hset] at hclear
  | discarded turn done ovr => simp [ovr] at hclear

/-- Settles O27: the frame of a discarded write, and the two directions of `StatusStep` for OVR. -/
theorem overrunIsStickyAndHarmless : Obligations.OverrunIsStickyAndHarmless := by
  refine ⟨fun s t off v tg rest hb ha ht htg h => ?_, fun _ _ => discardNext_of_ovr_set, fun _ _ => ovr_clearers⟩
  obtain rfl := step_discarded hb ha ht (Target.writeGuarded_iff.mpr htg) h
  exact ⟨rfl, rfl, rfl, hb, rfl⟩

end Sys2Proof.Machine
end

section
/-! SUPPORT. What the two resets leave (spec/70_reset_and_hazards.md R215, R216): the registers that the draw of an abandoned
command keeps and the one it fills, and the reset values of everything else (spec/10_state.md R38). -/

namespace Sys2Proof.Machine

/-! ### The rd of an abandoned command (R216(d), U3) -/

theorem State.abandonedReg_eq_some_iff {s : State} {r : Reg} :
    s.abandonedReg = some r ↔ s.busy = true ∧ ∃ i, decode s.cmd = .ok i ∧ writesReg i = some r := by
  unfold State.abandonedReg
  cases s.busy with
  | false => simp
  | true => cases decode s.cmd <;> simp

theorem State.reg_softReset_abandoned {s : State} {r : Reg} (h : s.abandonedReg = some r) :
    s.softReset.reg r = ⟨Config.freeBig s.draws % 2 ^ s.bigw, List.replicate s.limbs true⟩ := by
  rw [State.reg_congr s.softReset_regs, State.drawAbandoned_some h]
  exact s.reg_writeBig_self r _

theorem State.reg_softReset_kept {s : State} {r : Reg} (h : s.abandonedReg ≠ some r) :
    s.softReset.reg r = s.reg r := by
  rw [State.reg_congr s.softReset_regs]
  cases hd : s.abandonedReg with
  | none => rw [State.drawAbandoned_none hd]
  | some rd =>
    have hr : r ≠ rd := fun heq => h (heq ▸ hd)
    rw [State.drawAbandoned_some hd]
    exact s.reg_writeBig_other _ hr

/-- The draw is cut to BIGW bits and defines every limb. -/
theorem State.softReset_abandoned_fits {s : State} {r : Reg} (h : s.abandonedReg = some r) :
    s.softReset.big r < 2 ^ s.bigw ∧ (s.softReset.reg r).written = List.replicate s.limbs true := by
  rw [State.big, State.reg_softReset_abandoned h]
  exact ⟨Nat.mod_lt _ (Nat.two_pow_pos s.bigw), rfl⟩

/-! ### Reset values (R38) -/

theorem ShaContext.initial_blk (j : Fin 128) : ShaContext.initial.blk[j] = 0 := Vector.getElem_replicate j.isLt

@[simp] theorem State.reg_powerOnReset (s : State) (r : Reg) : s.powerOnReset.reg r = BigReg.powerOn s.limbs :=
  Vector.getElem_replicate r.isLt

/-! ### The obligations -/

/-- Settles O22: the step is the soft reset of the state without its turn, and a register is kept unless it is the rd of an
abandoned command. -/
theorem softResetEffects : Obligations.SoftResetEffects := by
  intro s hsoft
  obtain ⟨ie, hstep⟩ := step_softReset hsoft
  refine ⟨_, hstep, rfl, rfl, rfl, rfl, rfl, rfl, rfl, rfl, rfl, rfl, fun i => Vector.getElem_replicate i.isLt, rfl,
    ShaContext.initial_blk, rfl, rfl, rfl, rfl, State.softReset_limbs _, State.softReset_agenda _,
    State.softReset_readData _, fun r => ?kept, fun r i hb hd hw => ?drawn⟩
  case kept =>
    by_cases hr : s.abandonedReg = some r
    · exact .inl (State.abandonedReg_eq_some_iff.mp hr)
    · exact .inr (State.reg_softReset_kept (s := { s.popTurn with ie := ie }) hr)
  case drawn =>
    have hr : s.abandonedReg = some r := State.abandonedReg_eq_some_iff.mpr ⟨hb, i, hd, hw⟩
    exact State.softReset_abandoned_fits (s := { s.popTurn with ie := ie }) hr

/-- Settles O23: the step is the power-on reset of the state without its turn, which keeps the width that ID shows. -/
theorem powerOnEffects : Obligations.PowerOnEffects := by
  intro s hpower
  refine ⟨s.popTurn.powerOnReset, step_powerOn hpower, rfl, rfl, rfl, rfl, rfl, rfl, rfl, rfl, rfl, rfl,
    fun i => Vector.getElem_replicate i.isLt, rfl, ShaContext.initial_blk, rfl, rfl, rfl, rfl, State.idWord_congr rfl,
    fun r => ?_⟩
  rw [State.reg_powerOnReset]
  rfl

end Sys2Proof.Machine
end

section
/-! SUPPORT. The two directions of the encoding as one round trip (spec/30_encoding.md R77, R83): a word that decodes is its
row's match with the operands in the bits that the row's mask leaves free. -/

namespace Sys2Proof

/-! ### A field read from a word and put back is the word's bits in that field -/

theorem ofNat_extractLsb'_zero (w : CmdWord) (len : Nat) :
    BitVec.ofNat 32 (w.extractLsb' 0 len).toNat = w &&& BitVec.ofNat 32 (2 ^ len - 1) := by
  apply BitVec.eq_of_toNat_eq
  simp [← Nat.and_two_pow_sub_one_eq_mod]

theorem ofNat_fieldN (w : CmdWord) : BitVec.ofNat 32 (fieldN w) = w &&& 0xFF := ofNat_extractLsb'_zero w 8
theorem ofNat_fieldImm16 (w : CmdWord) : BitVec.ofNat 32 (fieldImm16 w) = w &&& 0xFFFF := ofNat_extractLsb'_zero w 16
theorem ofNat_fieldImm20 (w : CmdWord) : BitVec.ofNat 32 (fieldImm20 w) = w &&& 0xFFFFF := ofNat_extractLsb'_zero w 20

theorem regBits_regField (w : CmdWord) (lo : Nat) : regBits (regField w lo) lo = w &&& (7#32 <<< lo) := by
  have hval : BitVec.ofNat 32 (regField w lo).val = (w.extractLsb' lo 3).setWidth 32 := BitVec.ofNat_toNat 32 _
  have hseven : 7#32 = BitVec.ofNat 32 (2 ^ 3 - 1) := rfl
  apply BitVec.eq_of_getLsbD_eq
  intro i hi
  rw [regBits, hval, hseven]
  by_cases hlo : i < lo
  · simp [hlo]
  · have hfield : i - lo < 32 := by omega
    have hplace : lo + (i - lo) = i := by omega
    simp only [BitVec.getLsbD_and, BitVec.getLsbD_shiftLeft, BitVec.getLsbD_setWidth, BitVec.getLsbD_extractLsb',
      BitVec.getLsbD_ofNat, Nat.testBit_two_pow_sub_one, hi, hlo, hfield, hplace]
    simp [Bool.and_comm]

/-- The encoder puts the operands of a word in the bits that the mask of its row leaves free (R71, R77, R83). -/
theorem encode_operands :
    ∀ row ∈ opcodeMap, ∀ w : CmdWord, encode (row.mnemonic.operands w) = row.pattern ||| (w &&& ~~~row.mask) := by
  intro row hrow w
  simp only [opcodeMap, List.mem_cons, List.not_mem_nil, or_false] at hrow
  rcases hrow with rfl | rfl | rfl | rfl | rfl | rfl | rfl | rfl | rfl | rfl | rfl | rfl | rfl | rfl | rfl <;>
    simp [Mnemonic.operands, encode, fieldRd, fieldRs1, fieldRs2, fieldRs3, regBits_regField, ofNat_fieldN,
      ofNat_fieldImm16, ofNat_fieldImm20, BitVec.or_assoc, ← BitVec.and_or_distrib_left]

/-- An operand is bounded by its field (R73 to R75, R84). -/
theorem operands_wf (m : Mnemonic) (w : CmdWord) : (m.operands w).wf = true := by
  cases m with
  | shaUpdate => exact decide_eq_true (Nat.le_of_lt_succ (w.extractLsb' 0 8).isLt)
  | bigLdi => exact decide_eq_true (Nat.le_of_lt_succ (w.extractLsb' 0 20).isLt)
  | bigShr => exact decide_eq_true (Nat.le_of_lt_succ (w.extractLsb' 0 16).isLt)
  | shaInit | shaDigest | bigMov | bigAdd | bigSub | bigMul | bigMod | bigCmp | bigModmul | bigModexp | bigGcd
  | bigModinv => rfl

/-! ### Which words decode -/

/-- A word that decodes matches one row and is that row's command. -/
theorem row_of_decode {w : CmdWord} {i : Instr} (h : decode w = .ok i) :
    ∃ row ∈ opcodeMap, w &&& row.mask = row.pattern ∧ i = row.mnemonic.operands w := by
  cases hfind : findRow w with
  | none =>
    obtain ⟨d, hd⟩ := decode_error_iff_findRow.mpr hfind
    simp [hd] at h
  | some row =>
    obtain ⟨hrow, hmatch⟩ := matches_of_findRow hfind
    refine ⟨row, hrow, hmatch, ?_⟩
    rw [decode_of_selects hrow (beq_iff_eq.mpr hmatch)] at h
    exact (Except.ok.inj h).symm

theorem decode_wf {w : CmdWord} {i : Instr} (h : decode w = .ok i) : i.wf = true := by
  obtain ⟨row, -, -, rfl⟩ := row_of_decode h
  exact operands_wf row.mnemonic w

/-- The bits under the mask are the row's match, and the others are the operands. -/
theorem encode_of_decode {w : CmdWord} {i : Instr} (h : decode w = .ok i) : encode i = w := by
  obtain ⟨row, hrow, hmatch, rfl⟩ := row_of_decode h
  rw [encode_operands row hrow w, ← hmatch, ← BitVec.and_or_distrib_left, BitVec.or_not_self, BitVec.and_allOnes]

/-- Settles O1, by `decode_encode`. -/
theorem decodeOfEncodeIsIdentity : Obligations.DecodeOfEncodeIsIdentity := fun _ hwf => decode_encode hwf

/-- Settles O2, by `encode_of_decode`. -/
theorem encodeOfDecodeIsIdentity : Obligations.EncodeOfDecodeIsIdentity := fun _ _ h => ⟨decode_wf h, encode_of_decode h⟩

/-- Settles O3: a row that matches a word has the word's opcode, and the opcode is the row's own. -/
theorem atMostOneRowMatches : Obligations.AtMostOneRowMatches := by
  refine ⟨fun w => ⟨fun ⟨i, hi⟩ => ?_, fun ⟨row, hrow, hmatch⟩ => ?_⟩, row_eq_of_opcode_eq,
    fun w r1 h1 r2 h2 hm1 hm2 => ?_⟩
  · obtain ⟨row, hrow, hmatch, -⟩ := row_of_decode hi
    exact ⟨row, hrow, hmatch⟩
  · exact ⟨_, decode_of_selects hrow (beq_iff_eq.mpr hmatch)⟩
  · exact row_eq_of_opcode_eq r1 h1 r2 h2 ((opcode_eq_of_matches h1 hm1).symm.trans (opcode_eq_of_matches h2 hm2))

end Sys2Proof
end

section
/-! SUPPORT. The error codes and the commands that raise them (spec/60_exceptions.md R190), from the one equation of each
command. -/

namespace Sys2Proof.Machine

/-- The two ends of a command with a guard. -/
theorem guarded_cases {o : Host.Outcome State Fault Refusal} {c : Prop} [Decidable c] {e : ErrCode} {rd : Reg} {v : Nat}
    {s t : State} (ho : o = if c then .next (s.finish e) else .next ((s.writeBig rd v).finish .ok)) (h : o = .next t) :
    (c ∧ t = s.finish e) ∨ (¬ c ∧ t = (s.writeBig rd v).finish .ok) := by
  rw [h] at ho
  by_cases hc : c
  · rw [if_pos hc] at ho
    exact .inl ⟨hc, Host.Outcome.next.inj ho⟩
  · rw [if_neg hc] at ho
    exact .inr ⟨hc, Host.Outcome.next.inj ho⟩

/-- What the operands of the command `i` in the state `s` are like when it raises a code (R190). -/
def Raises (i : Instr) (s : State) : ErrCode → Prop
  | .ok => True
  | .illegal => False
  | .arg =>
    (∃ n, i = .shaUpdate n ∧ (n = 0 ∨ 8 < n)) ∨
    (∃ rd a m, i = .bigMod rd a m ∧ s.big m = 0) ∨
    (∃ rd a b m, (i = .bigModmul rd a b m ∨ i = .bigModexp rd a b m) ∧ s.big m = 0) ∨
    (∃ rd a m, i = .bigModinv rd a m ∧ (s.big a = 0 ∨ s.big m = 0 ∨ s.big m ≤ s.big a))
  | .logic => ∃ rd a m, i = .bigModinv rd a m ∧ (s.big m % s.big a = 0 ∨ Nat.gcd (s.big a) (s.big m) ≠ 1)
  | .range => ∃ rd a b,
    (i = .bigAdd rd a b ∧ 2 ^ s.bigw ≤ s.big a + s.big b) ∨ (i = .bigSub rd a b ∧ s.big a < s.big b) ∨
    (i = .bigMul rd a b ∧ 2 ^ s.bigw ≤ s.big a * s.big b)

/-- A command with a guard raises its code under the guard alone. -/
theorem raises_guarded {i : Instr} {c : Prop} [Decidable c] {e : ErrCode} {rd : Reg} {v : Nat} {s t : State}
    (hi : exec i s = if c then .next (s.finish e) else .next ((s.writeBig rd v).finish .ok)) (h : exec i s = .next t)
    (hraise : c → Raises i s e) : Raises i s t.err := by
  rcases guarded_cases hi h with ⟨hc, rfl⟩ | ⟨-, rfl⟩
  · exact hraise hc
  · exact trivial

/-- The code a command ends with is one that its operands raise (R190). -/
theorem exec_raises {i : Instr} {s t : State} (h : exec i s = .next t) : Raises i s t.err := by
  cases i with
  | shaInit | shaDigest | bigMov | bigLdi | bigCmp | bigGcd =>
    obtain rfl := Host.Outcome.next.inj h
    exact trivial
  | bigShr rd rs1 imm16 =>
    obtain rfl := Host.Outcome.next.inj ((exec_bigShr rd rs1 imm16 s).symm.trans h)
    exact trivial
  | shaUpdate n =>
    by_cases hn : n = 0 ∨ 8 < n
    · obtain rfl := Host.Outcome.next.inj ((exec_shaUpdate_arg hn s).symm.trans h)
      exact .inl ⟨n, rfl, hn⟩
    · obtain rfl := Host.Outcome.next.inj ((exec_shaUpdate (by omega) (by omega) s).symm.trans h)
      exact trivial
  | bigAdd rd rs1 rs2 => exact raises_guarded (exec_bigAdd ..) h fun hc => ⟨rd, rs1, rs2, .inl ⟨rfl, hc⟩⟩
  | bigSub rd rs1 rs2 => exact raises_guarded (exec_bigSub ..) h fun hc => ⟨rd, rs1, rs2, .inr (.inl ⟨rfl, hc⟩)⟩
  | bigMul rd rs1 rs2 => exact raises_guarded (exec_bigMul ..) h fun hc => ⟨rd, rs1, rs2, .inr (.inr ⟨rfl, hc⟩)⟩
  | bigMod rd rs1 rs2 => exact raises_guarded (exec_bigMod ..) h fun hc => .inr (.inl ⟨rd, rs1, rs2, rfl, hc⟩)
  | bigModmul rd rs1 rs2 rs3 =>
    exact raises_guarded (exec_bigModmul ..) h fun hc => .inr (.inr (.inl ⟨rd, rs1, rs2, rs3, .inl rfl, hc⟩))
  | bigModexp rd rs1 rs2 rs3 =>
    exact raises_guarded (exec_bigModexp ..) h fun hc => .inr (.inr (.inl ⟨rd, rs1, rs2, rs3, .inr rfl, hc⟩))
  | bigModinv rd rs1 rs2 =>
    by_cases harg : s.big rs1 = 0 ∨ s.big rs2 = 0 ∨ s.big rs2 ≤ s.big rs1
    · obtain rfl := Host.Outcome.next.inj ((exec_bigModinv_of_argError harg).symm.trans h)
      exact .inr (.inr (.inr ⟨rd, rs1, rs2, rfl, harg⟩))
    · exact raises_guarded (exec_bigModinv_of_lt (by omega) (by omega)) h fun hc => ⟨rd, rs1, rs2, rfl, hc⟩

/-- Settles O10, by `exec_raises` at each code. -/
theorem codesAreRaisedByTheirCommands : Obligations.CodesAreRaisedByTheirCommands := by
  intro i s t h
  have hraises {e : ErrCode} (he : t.err = e) : Raises i s e := he ▸ exec_raises h
  exact ⟨hraises, hraises, hraises, hraises⟩

end Sys2Proof.Machine
end

section
/-! SUPPORT. All a step can do, one constructor for each kind of effect: the invariant and the writers of each register are
read off from it. -/

namespace Sys2Proof.Machine

/-- The state a step leads to, with the turn that leads there (spec/20_memory.md R50, R51, R55; spec/60_exceptions.md R192,
R193; spec/70_reset_and_hazards.md R215, R216). -/
inductive StepTo (s : State) : State → Prop where
  | nothing : StepTo s s.popTurn
  | illegal : StepTo s (s.popTurn.finish .illegal)
  | command (i : Instr) (turn : s.completes i) {t : State} (effect : exec i s.popTurn = .next t) : StepTo s t
  | powerOn (turn : s.powerOnNext) : StepTo s s.popTurn.powerOnReset
  | read (value : Option Word) (draws : Nat) : StepTo s { s.popTurn with readData := value, draws := draws }
  | discarded : StepTo s { s.popTurn with ovr := true }
  | softReset (turn : s.softResetNext) (ie : Bool) : StepTo s { s.popTurn with ie := ie }.softReset
  | ieWrite (ie : Bool) : StepTo s { s.popTurn with ie := ie }
  | statusWrite (v : Word) : StepTo s (s.popTurn.writeStatus v)
  | accepted (w : CmdWord) : StepTo s (s.popTurn.accept w)
  | dinWrite (idle : s.busy = false) (v : Word) (turn : s.writeNext 0x020 v) : StepTo s { s.popTurn with din := v }
  | limbWrite (idle : s.busy = false) (r : Reg) (j : Nat) (hj : j < s.limbs) (v : Word)
      (turn : s.writeNext (limbOffset s.limbs r j) v) : StepTo s (s.popTurn.writeLimb r j v)

/-- A host write, by its target (R51, R55). -/
theorem stepTo_hostWrite {s : State} {off : Nat} {v : Word} {tg : Target} {rest : List Turn}
    (ha : s.agenda = .host (.write off 8 v) :: rest) (h8 : off % 8 = 0) (ht : target s.limbs off = some tg) :
    StepTo s (hostWrite tg v s.popTurn) := by
  have idle (hg : s.popTurn.busy = false ∨ tg.writeGuarded = false) (hguard : tg.writeGuarded = true) : s.busy = false :=
    hg.resolve_right (by simp [hguard])
  rcases hostWrite_cases tg v s.popTurn with
    ⟨-, -, h⟩ | ⟨hg, ⟨htg, h⟩ | ⟨-, h⟩ | ⟨-, h⟩ | ⟨rfl, h⟩ | ⟨r, j, rfl, h⟩ | ⟨-, h⟩⟩ <;> rw [h]
  case inl => exact .discarded
  case inr.inl =>
    by_cases hv : v.getLsbD 1 = true
    · rw [State.writeCtrl_reset hv]
      exact .softReset (softResetNext_of_ctrl ha ht htg hv) _
    · rw [State.writeCtrl_noReset hv]
      exact .ieWrite _
  case inr.inr.inl => exact .statusWrite v
  case inr.inr.inr.inl => exact .accepted _
  case inr.inr.inr.inr.inl =>
    obtain rfl := (target_control ht).2.2.2.2 rfl
    exact .dinWrite (idle hg rfl) v ⟨rest, ha⟩
  case inr.inr.inr.inr.inr.inl =>
    obtain rfl := off_of_target_limb h8 ht
    exact .limbWrite (idle hg rfl) r j (target_limb_lt ht) v ⟨rest, ha⟩
  case inr.inr.inr.inr.inr.inr => exact .nothing

theorem stepTo_of_step {s t : State} (h : step s = .next t) : StepTo s t := by
  rcases step_next_cases h with
    ⟨-, -, rfl⟩ | ⟨-, -, -, rfl⟩ | ⟨i, hi, he⟩ | ⟨hp, rfl⟩ | ⟨off, tg, rest, -, -, -, rfl⟩ |
    ⟨off, v, tg, rest, ha, h8, ht, rfl⟩
  · exact .nothing
  · exact .illegal
  · exact .command i hi he
  · exact .powerOn hp
  · rcases hostRead_cases tg s.popTurn with ⟨-, -, hr⟩ | ⟨-, hr⟩ <;> rw [hr] <;> exact .read _ _
  · exact stepTo_hostWrite ha h8 ht

/-- What every completion leaves alone (R193). -/
theorem exec_completedWith {i : Instr} {s t : State} (h : exec i s = .next t) : ∃ e : ErrCode, CompletedWith e s t := by
  obtain ⟨e, he, -⟩ := exec_effect (SameInputs.refl i s)
  obtain rfl := Host.Outcome.next.inj (he.symm.trans h)
  exact ⟨e.code, e.completedWith_code s⟩

/-! ### The writers of DIN, DOUT and the big-integer registers (spec/10_state.md R22, R34, R35) -/

/-- Of the commands, SHA.DIGEST alone writes DOUT (R35). -/
theorem exec_sameDout {i : Instr} {s t : State} (h : exec i s = .next t) : t.dout = s.dout ∨ i = .shaDigest := by
  rcases exec_cases i s with
    ⟨e, -, -, he⟩ | ⟨rd, v, -, he⟩ | ⟨rs1, rs2, -, he⟩ | ⟨-, he⟩ | ⟨n, -, he⟩ | ⟨hi, -⟩
  case inr.inr.inr.inr.inr => exact .inr hi
  all_goals
    obtain rfl := Host.Outcome.next.inj (he.symm.trans h)
    exact .inl rfl

/-- A command writes no register but its rd, and defines every limb of that (R22, R23). -/
theorem exec_reg {i : Instr} {s t : State} (h : exec i s = .next t) (r : Reg) :
    t.reg r = s.reg r ∨ (writesReg i = some r ∧ (t.reg r).written = List.replicate s.limbs true) := by
  rcases exec_cases i s with
    ⟨e, -, -, he⟩ | ⟨rd, v, hw, he⟩ | ⟨rs1, rs2, -, he⟩ | ⟨-, he⟩ | ⟨n, -, he⟩ | ⟨-, he⟩
  case inr.inl =>
    obtain rfl := Host.Outcome.next.inj (he.symm.trans h)
    have hres := resultIn_writeBig s rd v
    by_cases hr : r = rd
    · subst hr; exact .inr ⟨hw, hres.written⟩
    · exact .inl (hres.others r hr)
  all_goals
    obtain rfl := Host.Outcome.next.inj (he.symm.trans h)
    exact .inl rfl

theorem step_din_writers {s t : State} (h : step s = .next t) :
    t.din = s.din ∨ (∃ v, s.busy = false ∧ s.writeNext 0x020 v ∧ t.din = v) ∨ s.softResetNext ∨ s.powerOnNext := by
  cases stepTo_of_step h with
  | command i turn effect =>
    obtain ⟨e, hc⟩ := exec_completedWith effect
    exact .inl hc.din
  | powerOn turn => exact .inr (.inr (.inr turn))
  | softReset turn ie => exact .inr (.inr (.inl turn))
  | dinWrite idle v turn => exact .inr (.inl ⟨v, idle, turn, rfl⟩)
  | nothing | illegal | read | discarded | ieWrite | statusWrite | accepted | limbWrite => exact .inl rfl

theorem step_dout_writers {s t : State} (h : step s = .next t) :
    t.dout = s.dout ∨ s.completes .shaDigest ∨ s.softResetNext ∨ s.powerOnNext := by
  rcases step_results_cases h with hsame | ⟨i, hi, he⟩ | hreset
  · exact .inl hsame.dout
  · rcases exec_sameDout he with hdout | rfl
    · exact .inl hdout
    · exact .inr (.inl hi)
  · exact .inr (.inr hreset)

/-- Settles O29, by the kinds of step. -/
theorem dinAndDoutWriters : Obligations.DinAndDoutWriters := fun _ _ h => ⟨step_din_writers h, step_dout_writers h⟩

/-- Settles O30: of the kinds of step, a command writes its rd, a limb write its register, and the resets are listed. -/
theorem registerWriters : Obligations.RegisterWriters := by
  intro s t r h
  cases stepTo_of_step h with
  | command i turn effect =>
    rcases exec_reg effect r with hsame | ⟨hw, -⟩
    · exact .inl hsame
    · exact .inr (.inl ⟨i, turn, hw⟩)
  | powerOn turn => exact .inr (.inr (.inr (.inr turn)))
  | softReset turn ie => exact .inr (.inr (.inr (.inl turn)))
  | limbWrite idle r' j hj v turn =>
    by_cases hr : r = r'
    · subst hr; exact .inr (.inr (.inl ⟨idle, j, v, hj, turn⟩))
    · exact .inl (State.reg_writeLimb_other s.popTurn j v hr)
  | nothing | illegal | read | discarded | ieWrite | statusWrite | accepted | dinWrite => exact .inl rfl

/-! ### Written limbs (R23) -/

theorem getD_replicate_of_getD {n j : Nat} {l : List Bool} (hlen : l.length = n) (hj : l.getD j false = true) :
    (List.replicate n true).getD j false = true := by
  have hlt : j < l.length := by
    by_contra hge
    rw [List.getD_eq_default _ _ (Nat.le_of_not_lt hge)] at hj
    exact absurd hj (by decide)
  rw [List.getD_replicate _ (hlen ▸ hlt)]

theorem getD_set_true {j : Nat} {l : List Bool} (k : Nat) (hj : l.getD j false = true) :
    (l.set k true).getD j false = true := by
  rw [List.getD_eq_getElem?_getD] at hj ⊢
  rw [List.getElem?_set]
  split
  · split
    · rfl
    · next hk hlt => subst hk; simp [List.getElem?_eq_none (Nat.le_of_not_lt hlt)] at hj
  · exact hj

/-- Settles O31: what a step writes into a register's marks is `true`, but for a power-on reset. -/
theorem writtenLimbsStayWritten : Obligations.WrittenLimbsStayWritten := by
  intro s t r j hinv h hpower hj
  have hall := getD_replicate_of_getD (hinv.marks r) hj
  cases stepTo_of_step h with
  | command i turn effect =>
    rcases exec_reg effect r with hsame | ⟨-, hwritten⟩
    · rw [hsame]; exact hj
    · rw [hwritten]; exact hall
  | powerOn turn => exact absurd turn hpower
  | softReset turn ie =>
    by_cases hr : s.abandonedReg = some r
    · rw [(State.softReset_abandoned_fits (s := { s.popTurn with ie := ie }) hr).2]; exact hall
    · rw [State.reg_softReset_kept (s := { s.popTurn with ie := ie }) hr]; exact hj
  | limbWrite idle r' k hk v turn =>
    by_cases hr : r = r'
    · subst hr; rw [State.reg_writeLimb_self]; exact getD_set_true k hj
    · rw [State.reg_writeLimb_other s.popTurn k v hr]; exact hj
  | nothing | illegal | read | discarded | ieWrite | statusWrite | accepted | dinWrite => exact hj

end Sys2Proof.Machine
end

section
/-! SUPPORT. The invariant of every step: what a completion, a host access and a reset keep of it (spec/10_state.md R21, R23,
R25, R30, R36; spec/40_sha512.md R112). -/

namespace Sys2Proof.Machine

/-! ### The registers: below 2^BIGW, one written mark per limb (R21, R23) -/

/-- What `State.Inv` says of the register file. -/
structure State.RegsFit (s : State) : Prop where
  value (r : Reg) : s.big r < 2 ^ s.bigw
  marks (r : Reg) : (s.reg r).written.length = s.limbs

theorem State.Inv.regsFit {s : State} (h : s.Inv) : s.RegsFit := ⟨h.regs_fit, h.marks⟩

theorem State.RegsFit.congr {s t : State} (h : s.RegsFit) (hregs : t.regs = s.regs) (hlimbs : t.limbs = s.limbs) :
    t.RegsFit where
  value r := by rw [State.big, State.reg_congr hregs, State.bigw, hlimbs]; exact h.value r
  marks r := by rw [State.reg_congr hregs, hlimbs]; exact h.marks r

theorem State.RegsFit.writeBig {s : State} (h : s.RegsFit) (rd : Reg) {v : Nat} (hv : v < 2 ^ s.bigw) :
    (s.writeBig rd v).RegsFit := by
  constructor <;> intro r <;> by_cases hr : r = rd
  · subst hr; rw [State.big_writeBig_self]; exact hv
  · rw [State.big, State.reg_writeBig_other s v hr]; exact h.value r
  · subst hr; rw [State.reg_writeBig_self]; exact List.length_replicate
  · rw [State.reg_writeBig_other s v hr]; exact h.marks r

theorem State.RegsFit.writeLimb {s : State} (h : s.RegsFit) (rd : Reg) {j : Nat} (hj : j < s.limbs) (v : Word) :
    (s.writeLimb rd j v).RegsFit := by
  constructor <;> intro r <;> by_cases hr : r = rd
  · subst hr; rw [State.big, State.reg_writeLimb_self]; exact setLimb_lt v (h.value r) hj
  · rw [State.big, State.reg_writeLimb_other s j v hr]; exact h.value r
  · subst hr; rw [State.reg_writeLimb_self, List.length_set]; exact h.marks r
  · rw [State.reg_writeLimb_other s j v hr]; exact h.marks r

theorem State.RegsFit.softReset {s : State} (h : s.RegsFit) : s.softReset.RegsFit := by
  have hdraw : s.drawAbandoned.RegsFit := by
    cases hd : s.abandonedReg with
    | none => rw [State.drawAbandoned_none hd]; exact h
    | some rd =>
      rw [State.drawAbandoned_some hd]
      exact (h.writeBig rd (Nat.mod_lt (Config.freeBig s.draws) (Nat.two_pow_pos s.bigw))).congr rfl rfl
  exact hdraw.congr rfl rfl

theorem State.RegsFit.powerOnReset (s : State) : s.powerOnReset.RegsFit where
  value r := by rw [State.big, State.reg_powerOnReset]; exact Nat.two_pow_pos _
  marks r := by rw [State.reg_powerOnReset]; exact List.length_replicate

/-- A command with a guard keeps the registers in range if its result is, past the guard. -/
theorem State.RegsFit.guarded {s t : State} (hs : s.RegsFit) {i : Instr} {c : Prop} [Decidable c] {e : ErrCode} {rd : Reg}
    {v : Nat} (hi : exec i s = if c then .next (s.finish e) else .next ((s.writeBig rd v).finish .ok))
    (h : exec i s = .next t) (hv : ¬ c → v < 2 ^ s.bigw) : t.RegsFit := by
  rcases guarded_cases hi h with ⟨-, rfl⟩ | ⟨hc, rfl⟩
  · exact hs.congr rfl rfl
  · exact (hs.writeBig rd (hv hc)).congr rfl rfl

/-- An immediate of BIG.LDI fits the narrowest register (R13, R73). -/
theorem imm20_lt_bigw {s : State} (hl : Config.legalLimbs s.limbs = true) {imm20 : Nat} (himm : imm20 ≤ 1048575) :
    imm20 < 2 ^ s.bigw := by
  simp only [Config.legalLimbs, Bool.and_eq_true, decide_eq_true_eq] at hl
  have hbigw : 20 ≤ s.bigw := by unfold State.bigw; omega
  calc imm20 < 2 ^ 20 := Nat.lt_succ_of_le himm
    _ ≤ 2 ^ s.bigw := Nat.pow_le_pow_right (by decide) hbigw

/-- Every command keeps the registers in range: no result is above an operand, a modulus or the guard (R139). -/
theorem exec_regsFit {i : Instr} {s t : State} (hwf : i.wf = true) (hl : Config.legalLimbs s.limbs = true) (hs : s.RegsFit)
    (h : exec i s = .next t) : t.RegsFit := by
  have hmod {m : Reg} (n : Nat) (hm : ¬ s.big m = 0) : n % s.big m < 2 ^ s.bigw :=
    (Nat.mod_lt n (Nat.pos_of_ne_zero hm)).trans (hs.value m)
  cases i with
  | shaInit | shaDigest | bigCmp =>
    obtain rfl := Host.Outcome.next.inj h
    exact hs.congr rfl rfl
  | shaUpdate n =>
    by_cases hn : n = 0 ∨ 8 < n
    · obtain rfl := Host.Outcome.next.inj ((exec_shaUpdate_arg hn s).symm.trans h)
      exact hs.congr rfl rfl
    · obtain rfl := Host.Outcome.next.inj ((exec_shaUpdate (by omega) (by omega) s).symm.trans h)
      exact hs.congr rfl rfl
  | bigMov rd rs1 =>
    obtain rfl := Host.Outcome.next.inj h
    exact (hs.writeBig rd (hs.value rs1)).congr rfl rfl
  | bigLdi rd imm20 =>
    obtain rfl := Host.Outcome.next.inj h
    exact (hs.writeBig rd (imm20_lt_bigw hl (of_decide_eq_true hwf))).congr rfl rfl
  | bigShr rd rs1 imm16 =>
    obtain rfl := Host.Outcome.next.inj ((exec_bigShr rd rs1 imm16 s).symm.trans h)
    refine (hs.writeBig rd ?_).congr rfl rfl
    split
    · exact Nat.two_pow_pos _
    · exact (Nat.div_le_self ..).trans_lt (hs.value rs1)
  | bigGcd rd rs1 rs2 =>
    obtain rfl := Host.Outcome.next.inj ((exec_bigGcd rd rs1 rs2 s).symm.trans h)
    exact (hs.writeBig rd ((gcd_le_max ..).trans_lt (max_lt (hs.value rs1) (hs.value rs2)))).congr rfl rfl
  | bigAdd rd rs1 rs2 => exact hs.guarded (exec_bigAdd ..) h Nat.lt_of_not_le
  | bigSub rd rs1 rs2 => exact hs.guarded (exec_bigSub ..) h fun _ => (Nat.sub_le ..).trans_lt (hs.value rs1)
  | bigMul rd rs1 rs2 => exact hs.guarded (exec_bigMul ..) h Nat.lt_of_not_le
  | bigMod rd rs1 rs2 => exact hs.guarded (exec_bigMod ..) h (hmod _)
  | bigModmul rd rs1 rs2 rs3 => exact hs.guarded (exec_bigModmul ..) h (hmod _)
  | bigModexp rd rs1 rs2 rs3 => exact hs.guarded (exec_bigModexp ..) h (hmod _)
  | bigModinv rd rs1 rs2 =>
    by_cases harg : s.big rs1 = 0 ∨ s.big rs2 = 0 ∨ s.big rs2 ≤ s.big rs1
    · obtain rfl := Host.Outcome.next.inj ((exec_bigModinv_of_argError harg).symm.trans h)
      exact hs.congr rfl rfl
    · obtain ⟨h0, hlt⟩ : 0 < s.big rs1 ∧ s.big rs1 < s.big rs2 := by omega
      refine hs.guarded (exec_bigModinv_of_lt h0 hlt) h fun hc => ?_
      obtain ⟨hrem, hg⟩ := not_or.mp hc
      exact (inverseCandidate_spec h0 hlt hrem (not_not.mp hg)).2.1.trans (hs.value rs2)

/-- Every step keeps the registers in range. -/
theorem step_regsFit {s t : State} (hl : Config.legalLimbs s.limbs = true) (hs : s.RegsFit) (h : step s = .next t) :
    t.RegsFit := by
  have hpop : s.popTurn.RegsFit := hs.congr rfl rfl
  cases stepTo_of_step h with
  | command i turn effect => exact exec_regsFit (s := s.popTurn) (decode_wf turn.2.1) hl hpop effect
  | powerOn turn => exact State.RegsFit.powerOnReset _
  | softReset turn ie => exact State.RegsFit.softReset (hpop.congr rfl rfl)
  | limbWrite idle r j hj v turn => exact hpop.writeLimb r hj v
  | nothing | illegal | read | discarded | ieWrite | statusWrite | accepted | dinWrite => exact hpop.congr rfl rfl

/-! ### STATUS: a command in flight has DONE and ERR at 0 (R29, R30) -/

/-- What `State.Inv` says of a command in flight. -/
def State.FreshInFlight (s : State) : Prop := s.busy = true → s.doneFlag = false ∧ s.err = .ok

theorem freshInFlight_of_idle {s : State} (hb : s.busy = false) : s.FreshInFlight := fun h => absurd h (by simp [hb])

theorem step_freshInFlight {s t : State} (hs : s.FreshInFlight) (h : step s = .next t) : t.FreshInFlight := by
  cases stepTo_of_step h with
  | command i turn effect =>
    obtain ⟨e, hc⟩ := exec_completedWith effect
    exact freshInFlight_of_idle hc.busy
  | statusWrite v =>
    intro hb
    obtain ⟨hdone, herr⟩ := hs hb
    exact ⟨by rw [State.writeStatus_doneFlag, State.popTurn_doneFlag, hdone, Bool.false_and], herr⟩
  | accepted w => exact fun _ => ⟨rfl, rfl⟩
  | illegal | powerOn | softReset => exact freshInFlight_of_idle rfl
  | nothing | read | discarded | ieWrite | dinWrite | limbWrite => exact hs

/-! ### The flags, the counters of the SHA context and the work storage (R25, R36, R112) -/

theorem SameFlags.flagCount {s t : State} (h : SameFlags s t) : t.flagCount = s.flagCount := by
  simp only [State.flagCount, h.eq_same, h.lt_same, h.gt_same]

theorem step_flagCount_le {s t : State} (hs : s.flagCount ≤ 1) (h : step s = .next t) : t.flagCount ≤ 1 := by
  rcases step_flags_writers h with hsame | ⟨rs1, rs2, hc⟩ | hreset
  · exact hsame.flagCount.trans_le hs
  · exact (flagCount_of_completes_bigCmp hc h).le
  · exact (flagCount_of_reset hreset h).trans_le (Nat.zero_le 1)

/-- BC counts the bits of the whole blocks and of the bytes below BF (R112). -/
def ShaContext.CountersAgree (c : ShaContext) : Prop := c.bc.toNat % 1024 = 8 * c.bf.val

theorem ShaContext.CountersAgree.absorb {c : ShaContext} (hc : c.CountersAgree) (g : List Byte) :
    (c.absorb g).CountersAgree := by
  unfold ShaContext.CountersAgree at *
  rw [c.absorb_bc_toNat, c.absorb_bf]
  omega

theorem step_countersAgree {s t : State} (hs : s.sha.CountersAgree) (h : step s = .next t) : t.sha.CountersAgree := by
  rcases step_sha_writers h with hsame | hinit | ⟨n, hc⟩ | hreset
  · rw [hsame]; exact hs
  · rw [step_sha_initial (.inl hinit) h]; rfl
  · have he := (step_completes hc).symm.trans h
    by_cases hn : n = 0 ∨ 8 < n
    · obtain rfl := Host.Outcome.next.inj ((exec_shaUpdate_arg hn _).symm.trans he)
      exact hs
    · obtain rfl := Host.Outcome.next.inj ((exec_shaUpdate (by omega) (by omega) _).symm.trans he)
      exact hs.absorb _
  · rw [step_sha_initial (.inr hreset) h]; rfl

theorem step_work {s t : State} (hs : s.work = []) (h : step s = .next t) : t.work = [] := by
  cases stepTo_of_step h with
  | command i turn effect =>
    obtain ⟨e, hc⟩ := exec_completedWith effect
    exact hc.work
  | illegal | powerOn | softReset => rfl
  | nothing | read | discarded | ieWrite | statusWrite | accepted | dinWrite | limbWrite => exact hs

/-! ### The obligations -/

/-- A step keeps the invariant, part by part. -/
theorem State.Inv.step {s t : State} (hs : s.Inv) (h : step s = .next t) : t.Inv := by
  have hregs := step_regsFit hs.limbs_legal hs.regsFit h
  exact {
    limbs_legal := by rw [step_limbs h]; exact hs.limbs_legal
    regs_fit := hregs.value
    marks := hregs.marks
    in_flight := step_freshInFlight hs.in_flight h
    one_flag := step_flagCount_le hs.one_flag h
    counters := step_countersAgree hs.counters h
    no_work := step_work hs.no_work h }

/-- Settles O34, by `State.Inv.step`. -/
theorem everyStepKeepsInv : Obligations.EveryStepKeepsInv := fun _ _ => State.Inv.step

/-- Settles O35: the registers are those that a power-on reset leaves, and the rest is at its reset value. -/
theorem resetMeetsInv : Obligations.ResetMeetsInv := by
  have hreset : State.reset.powerOnReset = State.reset := rfl
  have hregs := State.RegsFit.powerOnReset State.reset
  rw [hreset] at hregs
  exact ⟨by decide, hregs.value, hregs.marks, freshInFlight_of_idle rfl, by decide, rfl, rfl⟩

end Sys2Proof.Machine
end

section
/-! SUPPORT. The register window (spec/20_memory.md R46 to R53): where a host access stops the machine, what an idle read
returns, and the place of the window in the host's address space. -/

namespace Sys2Proof.Machine

/-! ### Where the machine stops (R49, R52, R53) -/

theorem checkAccess_busError {limbs off width : Nat} : checkAccess limbs off width = .error .busError ↔
    width ≠ 8 ∨ off % 8 ≠ 0 ∨ (0x028 ≤ off ∧ off ≤ 0x03F) ∨ (0x080 ≤ off ∧ off ≤ 0xFFF) := by
  have hwin : 0x1000 ≤ Config.windowBytes limbs := by simp [Config.windowBytes]
  unfold checkAccess
  by_cases hw : width ≠ 8 ∨ off % 8 ≠ 0
  · rw [if_pos hw]
    exact ⟨fun _ => hw.imp_right .inl, fun _ => rfl⟩
  · rw [if_neg hw]
    have hnone := target_none_iff (limbs := limbs) (off := off) (by omega)
    cases ht : target limbs off with
    | some tg => simp only [ht, reduceCtorEq, false_iff] at hnone ⊢; omega
    | none =>
      simp only [ht, true_iff] at hnone
      by_cases hlow : off < 0x1000
      · simp only [if_pos hlow, true_iff]; omega
      · simp only [if_neg hlow, Except.error.injEq, reduceCtorEq, false_iff]; omega

theorem checkAccess_outsideWindow {limbs off width : Nat} : checkAccess limbs off width = .error .outsideWindow ↔
    width = 8 ∧ off % 8 = 0 ∧ Config.windowBytes limbs ≤ off := by
  have hwin : 0x1000 ≤ Config.windowBytes limbs := by simp [Config.windowBytes]
  unfold checkAccess
  by_cases hw : width ≠ 8 ∨ off % 8 ≠ 0
  · simp only [if_pos hw, Except.error.injEq, reduceCtorEq, false_iff]; omega
  · rw [if_neg hw]
    have hnone := target_none_iff (limbs := limbs) (off := off) (by omega)
    cases ht : target limbs off with
    | some tg => simp only [ht, reduceCtorEq, false_iff] at hnone ⊢; omega
    | none =>
      simp only [ht, true_iff] at hnone
      by_cases hlow : off < 0x1000
      · simp only [if_pos hlow, Except.error.injEq, reduceCtorEq, false_iff]; omega
      · simp only [if_neg hlow, true_iff]; omega

/-- A host access stops the machine exactly where the access rules do, and is never refused. -/
theorem hostTurn_outcome (a : Access) (s : State) :
    (∃ t, hostTurn a s = .next t ∧ (checkAccess s.limbs a.off a.width).isOk = true) ∨
    ∃ f, hostTurn a s = .fault f ∧ checkAccess s.limbs a.off a.width = .error f := by
  cases a with
  | read off width =>
    cases h : checkAccess s.limbs off width with
    | ok tg => exact .inl ⟨hostRead tg s, by simp only [hostTurn, h], by simp only [Access.off, Access.width, h]; rfl⟩
    | error f => exact .inr ⟨f, by simp only [hostTurn, h], h⟩
  | write off width v =>
    cases h : checkAccess s.limbs off width with
    | ok tg => exact .inl ⟨hostWrite tg v s, by simp only [hostTurn, h], by simp only [Access.off, Access.width, h]; rfl⟩
    | error f => exact .inr ⟨f, by simp only [hostTurn, h], h⟩

/-- The engine's turn never stops the machine (R193, R208). -/
theorem engineTurn_next (s : State) : ∃ t, engineTurn s = .next t := by
  cases hb : s.busy with
  | false => exact ⟨s, engineTurn_idle hb⟩
  | true =>
    obtain ⟨e, he⟩ := engineTurn_effect hb
    exact ⟨_, he⟩

/-- A step stops only at a host access that the access rules stop. -/
theorem step_outcome (s : State) :
    ((∃ t, step s = .next t) ∧ ∀ a rest f, s.agenda = .host a :: rest → checkAccess s.limbs a.off a.width ≠ .error f) ∨
    ∃ a rest f, s.agenda = .host a :: rest ∧ checkAccess s.limbs a.off a.width = .error f ∧ step s = .fault f := by
  rcases s.nextTurn_cases with hn | ⟨a, rest, ha⟩ | hp
  · obtain ⟨t, ht⟩ := engineTurn_next s.popTurn
    refine .inl ⟨⟨t, (step_engine hn).trans ht⟩, fun a rest f ha => ?_⟩
    rcases hn with h | ⟨rest', h⟩ <;> simp [h] at ha
  · rcases hostTurn_outcome a s.popTurn with ⟨t, ht, hok⟩ | ⟨f, hf, hc⟩
    · refine .inl ⟨⟨t, (step_host ha).trans ht⟩, fun a' rest' f ha' hc => ?_⟩
      obtain ⟨rfl, rfl⟩ : a = a' ∧ rest = rest' := by simpa [ha] using ha'
      simp [hc, Except.isOk, Except.toBool] at hok
    · exact .inr ⟨a, rest, f, ha, hc, (step_host ha).trans hf⟩
  · refine .inl ⟨⟨_, step_powerOn hp⟩, fun a rest f ha => ?_⟩
    obtain ⟨rest', h⟩ := hp
    simp [h] at ha

theorem step_fault_iff {s : State} {f : Fault} :
    step s = .fault f ↔ ∃ a rest, s.agenda = .host a :: rest ∧ checkAccess s.limbs a.off a.width = .error f := by
  rcases step_outcome s with ⟨⟨t, ht⟩, hnone⟩ | ⟨a, rest, f', ha, hc, hf⟩
  · simp only [ht, reduceCtorEq, false_iff]
    exact fun ⟨a, rest, ha, hc⟩ => hnone a rest f ha hc
  · rw [hf]
    constructor
    · intro h
      obtain rfl := Host.Outcome.fault.inj h
      exact ⟨a, rest, ha, hc⟩
    · rintro ⟨a', rest', ha', hc'⟩
      obtain ⟨rfl, rfl⟩ : a = a' ∧ rest = rest' := by simpa [ha] using ha'
      rw [Except.error.inj (hc.symm.trans hc')]

/-- Settles O12: a step faults where `checkAccess` does, and its two errors are the two kinds of offset. -/
theorem stepStopsExactlyAtIllegalAccess : Obligations.StepStopsExactlyAtIllegalAccess := by
  intro s
  refine ⟨fun r hr => ?_, ?_, ?_⟩
  · rcases step_outcome s with ⟨⟨t, ht⟩, -⟩ | ⟨a, rest, f, -, -, hf⟩
    · simp [ht] at hr
    · simp [hf] at hr
  · simp only [step_fault_iff, checkAccess_busError]
  · simp only [step_fault_iff, checkAccess_outsideWindow]
    rfl

/-! ### Idle reads (R27 to R30, R50) -/

theorem hostRead_idle (tg : Target) {s : State} (hb : s.busy = false) :
    hostRead tg s = { s with readData := some (s.valueAt tg) } := by
  simp [hostRead, hb]

theorem step_read_idle {s : State} {off : Nat} {tg : Target} {rest : List Turn} (hb : s.busy = false) (h8 : off % 8 = 0)
    (ht : target s.limbs off = some tg) (ha : s.agenda = .host (.read off 8) :: rest) :
    step s = .next { s with readData := some (s.valueAt tg), agenda := rest } := by
  rw [step_hostRead ha h8 ht, hostRead_idle tg (s := { s with agenda := rest }) hb, State.valueAt_withAgenda]

/-- Settles O14: each register's offset reaches it, and an idle read returns the value there. -/
theorem idleReadReturnsValue : Obligations.IdleReadReturnsValue := by
  intro s rest hb
  have hcmd : s.cmd.setWidth 64 = BitVec.ofNat 64 s.cmd.toNat := (BitVec.ofNat_toNat 64 s.cmd).symm
  refine ⟨step_read_idle (tg := .id) hb rfl rfl, step_read_idle (tg := .ctrl) hb rfl rfl,
    step_read_idle (tg := .status) hb rfl rfl, ?_, step_read_idle (tg := .din) hb rfl rfl, fun i => ?_, fun r j hj => ?_,
    fun off tg h8 ht => step_read_idle hb h8 ht⟩
  · rw [← hcmd]
    exact step_read_idle (tg := .cmd) hb rfl rfl
  · exact step_read_idle hb (doutOffset_mod_eight i) (target_doutOffset s.limbs i)
  · exact step_read_idle hb (limbOffset_mod_eight s.limbs r j) (target_limbOffset r hj)

/-- A limb write replaces one limb of one register (R51). -/
theorem State.limbOf_big_writeLimb (s : State) (r r' : Reg) (j k : Nat) (v : Word) :
    limbOf ((s.writeLimb r j v).big r') k = if r' = r ∧ k = j then v else limbOf (s.big r') k := by
  by_cases hr : r' = r
  · subst hr
    rw [State.big, State.reg_writeLimb_self]
    by_cases hk : k = j
    · rw [if_pos ⟨rfl, hk⟩, hk, limbOf_setLimb_self]
    · rw [if_neg (hk ·.2), limbOf_setLimb_other _ v hk]
  · rw [State.big, State.reg_writeLimb_other s j v hr, if_neg (hr ·.1), State.big]

/-- Settles O17: the write replaces one limb of one register, and the read returns the limb at its offset. -/
theorem limbReadsBackAfterWrite : Obligations.LimbReadsBackAfterWrite := by
  intro s r r' j k v rest hb hj hk ha
  have hwrite := step_hostWrite ha (limbOffset_mod_eight s.limbs r j) (target_limbOffset r hj)
  rw [hostWrite_limb_idle (s := { s with agenda := .host (.read (limbOffset s.limbs r' k) 8) :: rest }) r j v hb] at hwrite
  exact ⟨_, _, hwrite, step_read_idle hb (limbOffset_mod_eight s.limbs r' k) (target_limbOffset r' hk) rfl,
    congrArg some (State.limbOf_big_writeLimb _ r r' j k v)⟩

/-! ### The bits of CTRL and STATUS (R28, R29) -/

theorem testBit_three_flags (a b c : Bool) (k : Nat) : (a.toNat + 2 * b.toNat + 4 * c.toNat).testBit k =
    if k = 0 then a else if k = 1 then b else if k = 2 then c else false := by
  by_cases hk : k < 3
  · obtain ⟨h0, h1, h2⟩ := testBit_flags a b c
    interval_cases k
    · exact h0
    · exact h1
    · exact h2
  · have hlt : a.toNat + 2 * b.toNat + 4 * c.toNat < 2 ^ 3 := by
      have := a.toNat_le; have := b.toNat_le; have := c.toNat_le
      omega
    rw [Nat.testBit_lt_two_pow (hlt.trans_le (Nat.pow_le_pow_right (by decide) (Nat.le_of_not_lt hk))), if_neg (by omega),
      if_neg (by omega), if_neg (by omega)]

theorem State.getLsbD_ctrlWord (s : State) {k : Nat} (hk : k < 64) : s.ctrlWord.getLsbD k = (decide (k = 0) && s.ie) := by
  have hbit := testBit_three_flags s.ie false false k
  simp only [Bool.toNat_false, Nat.mul_zero, Nat.add_zero, ite_self] at hbit
  rw [State.ctrlWord, BitVec.getLsbD_ofNat, hbit, decide_eq_true hk, Bool.true_and]
  split <;> simp [*]

/-- STATUS as its three groups: BUSY, DONE, OVR from bit 0, ERR from bit 8, the flags from bit 16 (R29). -/
theorem State.getLsbD_statusWord (s : State) {k : Nat} (hk : k < 64) : s.statusWord.getLsbD k =
    if k < 8 then (s.busy.toNat + 2 * s.doneFlag.toNat + 4 * s.ovr.toNat).testBit k
    else if k < 16 then s.err.code.testBit (k - 8)
    else (s.eqFlag.toNat + 2 * s.ltFlag.toNat + 4 * s.gtFlag.toNat).testBit (k - 16) := by
  have hlow : s.busy.toNat + 2 * s.doneFlag.toNat + 4 * s.ovr.toNat < 2 ^ 8 := by
    have := s.busy.toNat_le; have := s.doneFlag.toNat_le; have := s.ovr.toNat_le
    omega
  have herr : s.err.code < 2 ^ 8 := s.err.code_lt.trans (by decide)
  have hsplit : s.statusWord = BitVec.ofNat 64
      (2 ^ 8 * (2 ^ 8 * (s.eqFlag.toNat + 2 * s.ltFlag.toNat + 4 * s.gtFlag.toNat) + s.err.code)
        + (s.busy.toNat + 2 * s.doneFlag.toNat + 4 * s.ovr.toNat)) := by
    unfold State.statusWord; congr 1; ring
  rw [hsplit, BitVec.getLsbD_ofNat, decide_eq_true hk, Bool.true_and, Nat.testBit_two_pow_mul_add _ hlow]
  refine if_congr Iff.rfl rfl ?_
  rw [Nat.testBit_two_pow_mul_add _ herr, Nat.sub_sub]
  refine if_congr (by omega) rfl rfl

/-- Settles O20: the groups of STATUS, and the bits of each group. -/
theorem controlAndStatusLayout : Obligations.ControlAndStatusLayout := by
  intro s k hk
  refine ⟨s.getLsbD_ctrlWord hk, ?_⟩
  rw [s.getLsbD_statusWord hk, testBit_three_flags, testBit_three_flags]
  by_cases hlow : k < 8
  · rw [if_pos hlow]
    refine if_congr Iff.rfl rfl (if_congr Iff.rfl rfl (if_congr Iff.rfl rfl ?_))
    rw [if_neg (by omega), if_neg (by omega), if_neg (by omega), if_neg (by omega)]
  rw [if_neg hlow, if_neg (show ¬ k = 0 by omega), if_neg (show ¬ k = 1 by omega), if_neg (show ¬ k = 2 by omega)]
  by_cases hmid : k < 16
  · rw [if_pos hmid]
    by_cases herr : k ≤ 11
    · rw [if_pos ⟨by omega, herr⟩]
    · have hcode : s.err.code < 2 ^ (k - 8) :=
        (s.err.code_lt.trans (by decide : 5 < 2 ^ 4)).trans_le (Nat.pow_le_pow_right (by decide) (by omega))
      rw [Nat.testBit_lt_two_pow hcode, if_neg (by omega), if_neg (by omega), if_neg (by omega), if_neg (by omega)]
  · rw [if_neg hmid, if_neg (show ¬ (8 ≤ k ∧ k ≤ 11) by omega)]
    exact if_congr (by omega) rfl (if_congr (by omega) rfl (if_congr (by omega) rfl rfl))

/-! ### The window in the host's address space (R46, R48) -/

/-- Settles O21: the alignment is the power of two that `Nat.clog` gives, and an address is a base and an offset below WIN. -/
theorem windowIsAlignedAndDecoded : Obligations.WindowIsAlignedAndDecoded := by
  intro limbs
  refine ⟨⟨_, rfl⟩, Nat.le_pow_clog (by decide) _, fun p hp => ?_, Dvd.intro_left _ rfl, fun off hoff => ?_,
    fun addr off haddr => ?_⟩
  · exact Nat.pow_le_pow_right (by decide) (Nat.clog_le_of_le_pow hp)
  · rw [Config.offsetOf, Config.hostAddress, if_pos (by omega), Nat.add_sub_cancel_left]
  · unfold Config.offsetOf at haddr
    split at haddr
    · next hin =>
      obtain rfl := Option.some.inj haddr
      exact ⟨by omega, Nat.add_sub_cancel' hin.1⟩
    · simp at haddr

end Sys2Proof.Machine
end

section
/-! SUPPORT. From accept to completion (spec/60_exceptions.md R192, R193, spec/70_reset_and_hazards.md R226): the step that runs
the decoded command, what it leaves of the window, and that the harmless turns before it do not keep it off. -/

namespace Sys2Proof.Machine

/-- Settles O6, by `step_completes`. -/
theorem engineTurnRunsDecodedCommand : Obligations.EngineTurnRunsDecodedCommand := fun _ _ => step_completes

theorem tableWord_32 (w : Nat) : tableWord 32 w = BitVec.ofNat 32 w := by
  apply BitVec.eq_of_toNat_eq
  simp [tableWord]

/-- Settles O8: the placed word is in flight with the engine's turn next. -/
theorem placedWordRunsNext : Obligations.PlacedWordRunsNext := by
  intro s w i hd
  have hc : (s.withFetchWord 32 w).completes i := ⟨rfl, by rw [← tableWord_32] at hd; exact hd, .inr ⟨s.agenda, rfl⟩⟩
  rw [step_completes hc, ← tableWord_32]
  rfl

/-! ### What a completion leaves of the window (R137, R138, R149, R163) -/

theorem State.valueAt_finish (s : State) (e : ErrCode) {tg : Target} (htg : tg ≠ .status) :
    (s.finish e).valueAt tg = s.valueAt tg := by
  cases tg with
  | status => exact absurd rfl htg
  | id | ctrl | cmd | din | dout | limb => rfl

theorem State.valueAt_writeBig (s : State) {rd : Reg} (v : Nat) {tg : Target} (htg : ∀ j, tg ≠ .limb rd j) :
    (s.writeBig rd v).valueAt tg = s.valueAt tg := by
  cases tg with
  | limb r j =>
    have hr : r ≠ rd := fun h => htg j (h ▸ rfl)
    exact congrArg (fun b : BigReg => limbOf b.value j) (s.reg_writeBig_other v hr)
  | id | ctrl | status | cmd | din | dout => rfl

theorem State.valueAt_writeCompareFlags (s : State) (a b : Nat) {tg : Target} (htg : tg ≠ .status) :
    (s.writeCompareFlags a b).valueAt tg = s.valueAt tg := by
  cases tg with
  | status => exact absurd rfl htg
  | id | ctrl | cmd | din | dout | limb => rfl

theorem State.valueAt_withDout (s : State) (d : HashWords) {tg : Target} (htg : ∀ k, tg ≠ .dout k) :
    { s with dout := d }.valueAt tg = s.valueAt tg := by
  cases tg with
  | dout k => exact absurd rfl (htg k)
  | id | ctrl | status | cmd | din | limb => rfl

/-- Settles O11, by the result of the completion: each is in no register of the window but the one named. -/
theorem windowUnchangedOutsideResult : Obligations.WindowUnchangedOutsideResult := by
  intro i s t off tg h _ hstatus hlimb hdout
  rcases exec_cases i s with
    ⟨e, -, -, he⟩ | ⟨rd, v, hw, he⟩ | ⟨rs1, rs2, -, he⟩ | ⟨-, he⟩ | ⟨n, -, he⟩ | ⟨hi, he⟩ <;>
    obtain rfl := Host.Outcome.next.inj (he.symm.trans h) <;>
    rw [State.valueAt_finish _ _ hstatus]
  · exact s.valueAt_writeBig v fun j => hlimb rd j hw
  · exact s.valueAt_writeCompareFlags _ _ hstatus
  · exact s.valueAt_withSha _ tg
  · exact s.valueAt_withSha _ tg
  · exact s.valueAt_withDout _ (hdout hi)

/-! ### Every accepted command completes (R226) -/

/-- A step takes one turn off the agenda. -/
theorem step_agenda {s t : State} (h : step s = .next t) : t.agenda = s.agenda.tail := by
  cases stepTo_of_step h with
  | command i turn effect =>
    obtain ⟨e, hc⟩ := exec_completedWith effect
    exact hc.agenda
  | softReset turn ie => exact State.softReset_agenda _
  | nothing | illegal | powerOn | read | discarded | ieWrite | statusWrite | accepted | dinWrite | limbWrite => rfl

/-- A harmless access is legal and no soft reset, so the command stays in flight. -/
theorem step_harmless {s : State} {a : Access} {rest : List Turn} (hb : s.busy = true) (ha : s.agenda = .host a :: rest)
    (hturn : harmlessTurn s.limbs (.host a) = true) :
    ∃ t, step s = .next t ∧ t.busy = true ∧ t.limbs = s.limbs ∧ t.agenda = rest := by
  have hlegal : (checkAccess s.limbs a.off a.width).isOk = true ∧ ¬ s.softResetNext := by
    cases a with
    | read off width =>
      refine ⟨hturn, fun ⟨v, rest', h, _⟩ => ?_⟩
      simp [h] at ha
    | write off width v =>
      obtain ⟨hok, hreset⟩ := Bool.and_eq_true_iff.mp hturn
      refine ⟨hok, fun ⟨v', rest', h, hv⟩ => ?_⟩
      obtain ⟨⟨rfl, -, rfl⟩, -⟩ : (off = 0x008 ∧ width = 8 ∧ v = v') ∧ rest = rest' := by simpa [h, eq_comm] using ha
      rw [hv] at hreset
      exact absurd hreset (by decide)
  obtain ⟨hok, hreset⟩ := hlegal
  rcases hostTurn_outcome a s.popTurn with ⟨t, ht, -⟩ | ⟨f, -, hf⟩
  · have h : step s = .next t := (step_host ha).trans ht
    have hsame := step_host_sameOperands hb ha hreset h
    exact ⟨t, h, hsame.busy.trans hb, hsame.limbs, by rw [step_agenda h, ha]; rfl⟩
  · rw [State.popTurn_limbs] at hf
    simp [hf, Except.isOk, Except.toBool] at hok

theorem core_run_succ {s t : State} (h : step s = .next t) (k : Nat) :
    Sys2Proof.core.run (k + 1) s = Sys2Proof.core.run k t := by
  have hcore : Sys2Proof.core.step s = .next t := h
  simp only [Host.Core.run, hcore]

/-- Some number of steps, at most `n` and at least one, completes the command in flight. -/
def CompletesWithin (n : Nat) (s : State) : Prop :=
  ∃ k t, 1 ≤ k ∧ k ≤ n ∧ Sys2Proof.core.run k s = .next t ∧ t.busy = false ∧ t.doneFlag = true

theorem completesWithin_of_engineNext {s : State} (hb : s.busy = true) (hn : s.engineNext) {n : Nat} (hpos : 1 ≤ n) :
    CompletesWithin n s := by
  obtain ⟨t, ht⟩ := engineTurn_next s.popTurn
  have h : step s = .next t := (step_engine hn).trans ht
  obtain ⟨e, hc⟩ := step_completion hb hn h
  exact ⟨1, t, le_rfl, hpos, core_run_succ h 0, hc.busy, hc.done_set⟩

/-- By induction on the turns before the engine's. -/
theorem completesWithin_of_harmless (turns : List Turn) : ∀ s : State, s.agenda = turns → s.busy = true →
    (∀ turn ∈ turns, harmlessTurn s.limbs turn = true) → CompletesWithin (turns.length + 1) s := by
  induction turns with
  | nil => exact fun s ha hb _ => completesWithin_of_engineNext hb (.inl ha) le_rfl
  | cons turn rest ih =>
    intro s ha hb hturns
    obtain ⟨hturn, hrest⟩ := List.forall_mem_cons.mp hturns
    cases turn with
    | engine => exact completesWithin_of_engineNext hb (.inr ⟨rest, ha⟩) (Nat.le_add_left ..)
    | powerOn => simp [harmlessTurn] at hturn
    | host a =>
      obtain ⟨t, h, htb, htl, hta⟩ := step_harmless hb ha hturn
      obtain ⟨k, u, -, hk, hrun, hu⟩ := ih t hta htb (htl ▸ hrest)
      exact ⟨k + 1, u, Nat.le_add_left .., Nat.succ_le_succ hk, (core_run_succ h k).trans hrun, hu⟩

/-- Settles O13, by `completesWithin_of_harmless`. -/
theorem acceptedCommandCompletes : Obligations.AcceptedCommandCompletes := fun s hb hturns =>
  completesWithin_of_harmless s.agenda s rfl hb hturns

/-! ### The SHA unit's inputs (spec/40_sha512.md R92, R94) -/

/-- Settles O55: the terminated block takes from the context only the bytes below BF. -/
theorem digestIgnoresStaleBytes : Obligations.DigestIgnoresStaleBytes := by
  intro c c' hh hbf hbc hblk
  have htake : c'.blk.toList.take c.bf.val = c.blk.toList.take c.bf.val := by
    refine List.ext_getElem (by simp) fun j hj _ => ?_
    have hlt : j < c.bf.val := by simp at hj; omega
    have hbyte := hblk ⟨j, hlt.trans c.bf.isLt⟩ hlt
    simpa using hbyte
  have hblock : c'.terminatedBlock = c.terminatedBlock := by
    rw [ShaContext.terminatedBlock, hbf, htake, ShaContext.terminatedBlock]
  rw [ShaContext.digest, hblock, hh, hbf, hbc, ShaContext.digest]

/-- Settles O56, by `dinBytes_packGroup`. -/
theorem groupPackingAgrees : Obligations.GroupPackingAgrees := fun _ => dinBytes_packGroup

end Sys2Proof.Machine
end

section
/-! SUPPORT. `stbig` (spec/30_encoding.md R86): the limb writes of an integer one after another, whether the turns stand in the
agenda or are taken now. -/

namespace Sys2Proof.Machine

/-- The limbs `js` of `v` written into Bi one after another (R51). -/
def State.writeLimbs (s : State) (r : Reg) (v : Nat) (js : List Nat) : State :=
  js.foldl (fun s j => s.writeLimb r j (limbOf v j)) s

@[simp] theorem State.writeLimbs_nil (s : State) (r : Reg) (v : Nat) : s.writeLimbs r v [] = s := rfl

@[simp] theorem State.writeLimbs_cons (s : State) (r : Reg) (v j : Nat) (js : List Nat) :
    s.writeLimbs r v (j :: js) = (s.writeLimb r j (limbOf v j)).writeLimbs r v js := rfl

/-! ### What the writes leave -/

theorem State.writeLimbs_frame (r : Reg) (v : Nat) (js : List Nat) : ∀ s : State,
    s.writeLimbs r v js = { s with regs := (s.writeLimbs r v js).regs } := by
  induction js with
  | nil => exact fun _ => rfl
  | cons j js ih =>
    intro s
    rw [State.writeLimbs_cons]
    exact ih _

theorem State.writeLimbs_limbs (s : State) (r : Reg) (v : Nat) (js : List Nat) : (s.writeLimbs r v js).limbs = s.limbs := by
  rw [State.writeLimbs_frame]

theorem State.reg_writeLimbs_other {r r' : Reg} (hr : r' ≠ r) (v : Nat) (js : List Nat) : ∀ s : State,
    (s.writeLimbs r v js).reg r' = s.reg r' := by
  induction js with
  | nil => exact fun _ => rfl
  | cons j js ih =>
    intro s
    rw [State.writeLimbs_cons, ih, State.reg_writeLimb_other s j _ hr]

theorem State.RegsFit.writeLimbs (r : Reg) (v : Nat) (js : List Nat) : ∀ {s : State}, s.RegsFit → (∀ j ∈ js, j < s.limbs) →
    (s.writeLimbs r v js).RegsFit := by
  induction js with
  | nil => exact fun hs _ => hs
  | cons j js ih =>
    intro s hs hjs
    obtain ⟨hj, hrest⟩ := List.forall_mem_cons.mp hjs
    exact ih (hs.writeLimb r hj _) hrest

/-- The limbs written are those of the integer, the others as before. -/
theorem State.limbOf_writeLimbs (r : Reg) (v : Nat) (js : List Nat) (k : Nat) : ∀ s : State,
    limbOf ((s.writeLimbs r v js).big r) k = if k ∈ js then limbOf v k else limbOf (s.big r) k := by
  induction js with
  | nil => exact fun _ => rfl
  | cons j js ih =>
    intro s
    rw [State.writeLimbs_cons, ih, State.limbOf_big_writeLimb]
    by_cases hmem : k ∈ js
    · rw [if_pos hmem, if_pos (List.mem_cons_of_mem j hmem)]
    · by_cases hk : k = j
      · subst hk; rw [if_neg hmem, if_pos ⟨rfl, rfl⟩, if_pos List.mem_cons_self]
      · rw [if_neg hmem, if_neg (hk ·.2), if_neg (by simp [hk, hmem])]

/-- The limbs written are marked. -/
theorem State.written_writeLimbs (r : Reg) (v : Nat) (js : List Nat) (k : Nat) : ∀ {s : State}, k < (s.reg r).written.length →
    (k ∈ js ∨ (s.reg r).written.getD k false = true) → ((s.writeLimbs r v js).reg r).written.getD k false = true := by
  induction js with
  | nil => exact fun _ h => h.resolve_left List.not_mem_nil
  | cons j js ih =>
    intro s hlen h
    refine ih (by rw [State.reg_writeLimb_self, List.length_set]; exact hlen) ?_
    rw [State.reg_writeLimb_self]
    rcases h with hmem | hold
    · rcases List.mem_cons.mp hmem with rfl | hrest
      · refine .inr ?_
        rw [List.getD_eq_getElem?_getD, List.getElem?_set_self hlen, Option.getD_some]
      · exact .inl hrest
    · exact .inr (getD_set_true j hold)

theorem State.defined_of_getD {s : State} {r : Reg}
    (h : ∀ k, k < (s.reg r).written.length → (s.reg r).written.getD k false = true) : s.defined r = true := by
  refine List.all_eq_true.mpr fun b hb => ?_
  obtain ⟨k, hk, rfl⟩ := List.mem_iff_getElem.mp hb
  rw [← List.getD_eq_getElem _ false hk]
  exact h k hk

/-- Writing every limb loads the integer and defines the register (R23, R58). -/
theorem State.writeLimbs_range {s : State} (hs : s.RegsFit) (r : Reg) {v : Nat} (hv : v < 2 ^ s.bigw) :
    (s.writeLimbs r v (List.range s.limbs)).big r = v ∧ (s.writeLimbs r v (List.range s.limbs)).defined r = true := by
  have hfit := hs.writeLimbs r v (List.range s.limbs) fun _ => List.mem_range.mp
  have hlimbs := s.writeLimbs_limbs r v (List.range s.limbs)
  constructor
  · have hbig := hfit.value r
    rw [State.bigw, hlimbs] at hbig
    refine eq_of_limbs_eq hbig hv fun k hk => ?_
    rw [State.limbOf_writeLimbs, if_pos (List.mem_range.mpr hk)]
  · refine State.defined_of_getD fun k hk => ?_
    rw [hfit.marks r, hlimbs] at hk
    exact State.written_writeLimbs r v _ k (by rw [hs.marks r]; exact hk) (.inl (List.mem_range.mpr hk))

/-! ### The turns of `stbig` -/

/-- The writes of the limbs `js` as turns. -/
def limbTurns (limbs : Nat) (r : Reg) (v : Nat) (js : List Nat) : List Turn :=
  js.map fun j => turnSt (limbOffset limbs r j) (limbOf v j)

theorem turnsStbig_eq (limbs : Nat) (r : Reg) (v : Nat) : turnsStbig limbs r v = limbTurns limbs r v (List.range limbs) := rfl

theorem limbTurns_cons (limbs : Nat) (r : Reg) (v j : Nat) (js : List Nat) :
    limbTurns limbs r v (j :: js) = turnSt (limbOffset limbs r j) (limbOf v j) :: limbTurns limbs r v js := rfl

/-- The steps that take the turns from the agenda. -/
theorem core_run_limbTurns (r : Reg) (v : Nat) (js : List Nat) : ∀ s : State, s.busy = false → (∀ j ∈ js, j < s.limbs) →
    s.agenda = limbTurns s.limbs r v js →
    Sys2Proof.core.run js.length s = .next ({ s with agenda := [] }.writeLimbs r v js) := by
  induction js with
  | nil =>
    intro s _ _ ha
    have hs : { s with agenda := [] } = s := by rw [← show s.agenda = [] from ha]
    rw [State.writeLimbs_nil, hs]
    rfl
  | cons j js ih =>
    intro s hb hjs ha
    obtain ⟨hj, hrest⟩ := List.forall_mem_cons.mp hjs
    rw [limbTurns_cons] at ha
    have hstep := step_hostWrite ha (limbOffset_mod_eight s.limbs r j) (target_limbOffset r hj)
    rw [hostWrite_limb_idle (s := { s with agenda := limbTurns s.limbs r v js }) r j _ hb] at hstep
    exact (core_run_succ hstep js.length).trans (ih _ hb hrest rfl)

/-- The turns taken now. -/
theorem runTurns_limbTurns (r : Reg) (v : Nat) (js : List Nat) : ∀ s : State, s.busy = false → (∀ j ∈ js, j < s.limbs) →
    runTurns (limbTurns s.limbs r v js) s = .next (s.writeLimbs r v js) := by
  induction js with
  | nil => exact fun _ _ _ => rfl
  | cons j js ih =>
    intro s hb hjs
    obtain ⟨hj, hrest⟩ := List.forall_mem_cons.mp hjs
    have hperform := perform_st (v := limbOf v j) (limbOffset_mod_eight s.limbs r j) (target_limbOffset r hj)
    rw [hostWrite_limb_idle r j _ hb] at hperform
    rw [limbTurns_cons, runTurns_cons, hperform, andThen_next]
    exact ih (s.writeLimb r j (limbOf v j)) hb hrest

/-- Settles O18: the steps write the limbs one after another, and all of them make up the integer. -/
theorem stbigLoadsTheInteger : Obligations.StbigLoadsTheInteger := by
  intro s r v hb hinv hv ha
  have hrun := core_run_limbTurns r v (List.range s.limbs) s hb (fun _ => List.mem_range.mp) (turnsStbig_eq .. ▸ ha)
  rw [List.length_range] at hrun
  have hfit : State.RegsFit { s with agenda := [] } := hinv.regsFit.congr rfl rfl
  obtain ⟨hbig, hdef⟩ := State.writeLimbs_range hfit r hv
  exact ⟨_, hrun, hbig, hdef, fun r' hr => State.reg_writeLimbs_other hr v _ _, State.writeLimbs_frame r v _ _⟩

end Sys2Proof.Machine
end

section
/-! SUPPORT. The lines of a host program (spec/30_encoding.md R86): loads of an idle block, `wait`, `run`, `absorb`
and `digest`, each as the state it leaves. -/

namespace Sys2Proof.Machine

/-! ### Loads while idle -/

/-- The value of the last read is no register of the window (R47). -/
theorem State.valueAt_withReadData (s : State) (d : Option Word) (tg : Target) :
    { s with readData := d }.valueAt tg = s.valueAt tg := by
  cases tg <;> rfl

/-- The loads of mapped offsets give the values that stand there. -/
theorem hostLdAll_idle {α : Type} (off : α → Nat) (tg : α → Target) (js : List α) : ∀ {s : State}, s.busy = false →
    (∀ j ∈ js, off j % 8 = 0 ∧ target s.limbs (off j) = some (tg j)) →
    ∃ d, hostLdAll (js.map off) s = .next (js.map fun j => s.valueAt (tg j), { s with readData := d }) := by
  induction js with
  | nil => exact fun {s} _ _ => ⟨s.readData, rfl⟩
  | cons j js ih =>
    intro s hb hjs
    obtain ⟨⟨h8, ht⟩, hrest⟩ := List.forall_mem_cons.mp hjs
    obtain ⟨d, hd⟩ := ih (s := { s with readData := some (s.valueAt (tg j)) }) hb hrest
    refine ⟨d, ?_⟩
    simp only [List.map_cons, hostLdAll, hostLd_exact h8 ht (.inl hb), andThen_next, hd, State.valueAt_withReadData]

/-- `ldbig` of an idle block (R58). -/
theorem hostLdbig_idle {s : State} (hb : s.busy = false) (hs : s.RegsFit) (r : Reg) :
    ∃ d, hostLdbig r s = .next (s.big r, { s with readData := d }) := by
  obtain ⟨d, hd⟩ := hostLdAll_idle (limbOffset s.limbs r) (Target.limb r) (List.range s.limbs) hb fun j hj =>
    ⟨limbOffset_mod_eight s.limbs r j, target_limbOffset r (List.mem_range.mp hj)⟩
  refine ⟨d, ?_⟩
  rw [hostLdbig, hd, andThen_next]
  have hlimbs : fromLimbs ((List.range s.limbs).map fun j => s.valueAt (.limb r j)) = s.big r := by
    refine (fromLimbs_limbOf s.limbs (s.big r)).trans (Nat.mod_eq_of_lt (hs.value r))
  rw [hlimbs]

/-- `ldbig` after `stbig` gives the integer back. -/
theorem hostLdbig_hostStbig {s : State} (hb : s.busy = false) (hs : s.RegsFit) (r : Reg) {v : Nat} (hv : v < 2 ^ s.bigw) :
    ∃ t d, hostStbig r v s = .next t ∧ hostLdbig r t = .next (v, { t with readData := d }) := by
  have hstore : hostStbig r v s = .next (s.writeLimbs r v (List.range s.limbs)) :=
    runTurns_limbTurns r v (List.range s.limbs) s hb fun _ => List.mem_range.mp
  have hidle : (s.writeLimbs r v (List.range s.limbs)).busy = false := by rw [State.writeLimbs_frame]; exact hb
  have hfit := hs.writeLimbs r v (List.range s.limbs) fun _ => List.mem_range.mp
  obtain ⟨d, hd⟩ := hostLdbig_idle hidle hfit r
  rw [(State.writeLimbs_range hs r hv).1] at hd
  exact ⟨_, d, hstore, hd⟩

/-! ### `wait` and `run` -/

/-- A completion reads nothing of the value the host read last. -/
theorem engineTurn_withReadData {s c : State} (hb : s.busy = true) (h : engineTurn s = .next c) (d : Option Word) :
    engineTurn { s with readData := d } = .next { c with readData := d } := by
  have hon (e : Effect) : e.on { s with readData := d } = { e.on s with readData := d } := by cases e <;> rfl
  cases hd : decode s.cmd with
  | ok i =>
    rw [engineTurn_command hb hd] at h
    rw [engineTurn_command (s := { s with readData := d }) hb hd]
    obtain ⟨e, hs, hs'⟩ := exec_effect (i := i) (s := s) (s' := { s with readData := d })
      ⟨rfl, fun _ _ => rfl, fun _ _ => ⟨rfl, rfl⟩, fun _ => rfl⟩
    obtain rfl := Host.Outcome.next.inj (hs.symm.trans h)
    rw [hs', hon]
  | error f =>
    obtain rfl := Host.Outcome.next.inj ((engineTurn_illegal hb hd).symm.trans h)
    exact engineTurn_illegal (s := { s with readData := d }) hb hd

/-- BUSY is bit 0 of STATUS (R29). -/
theorem State.statusWord_busy (s : State) : s.statusWord.getLsbD 0 = s.busy := by
  rw [s.getLsbD_statusWord (by decide), if_pos (by decide), testBit_three_flags, if_pos rfl]

theorem hostLd_status (s : State) :
    hostLd 0x010 s = .next (s.statusWord, { s with readData := some s.statusWord }) :=
  hostLd_exact (tg := .status) rfl rfl (.inr rfl)

/-- `wait` ends with the STATUS of the completion, however many polls come before it. -/
theorem hostWait_eq (polls : Nat) : ∀ {s c : State}, s.busy = true → engineTurn s = .next c →
    hostWait polls s = .next (c.statusWord, { c with readData := some c.statusWord }) := by
  induction polls with
  | zero =>
    intro s c _ h
    rw [hostWait, perform_engine, h, andThen_next, hostLd_status]
  | succ polls ih =>
    intro s c hb h
    rw [hostWait, hostLd_status, andThen_next, if_pos (by rw [s.statusWord_busy]; exact hb)]
    exact ih (c := { c with readData := some s.statusWord }) hb (engineTurn_withReadData hb h _)

/-- The check of `run` on the STATUS of a completion with OK (R86, R190). -/
theorem statusErr_of_ok {s : State} (h : s.err = .ok) : statusErr s.statusWord = 0 := by
  apply BitVec.eq_of_getLsbD_eq
  intro k hk
  rw [statusErr, BitVec.getLsbD_extractLsb', s.getLsbD_statusWord (by omega), if_neg (by omega), if_pos (by omega), h]
  simp [ErrCode.code]

/-- `run` of a well-formed command that completes with OK. -/
theorem hostRun_of_ok {i : Instr} (hwf : i.wf = true) {s c : State} (hb : s.busy = false)
    (hexec : exec i (s.accept (encode i)) = .next c) (herr : c.err = .ok) (polls : Nat) :
    hostRun polls i s = .next (true, { c with readData := some c.statusWord }) := by
  have haccept : perform (turnCmd i) s = .next (s.accept (encode i)) := by
    rw [turnCmd, perform_st (tg := .cmd) rfl rfl, hostWrite_cmd_idle _ hb, ← BitVec.setWidth_eq_extractLsb' (by decide),
      BitVec.setWidth_setWidth_of_le _ (by decide), BitVec.setWidth_eq]
  have hturn : engineTurn (s.accept (encode i)) = .next c := (engineTurn_command rfl (decode_encode hwf)).trans hexec
  rw [hostRun, haccept, andThen_next, hostWait_eq polls rfl hturn, andThen_next, statusErr_of_ok herr]
  rfl

/-! ### `absorb` and `digest` -/

theorem hostRun_shaInit {s : State} (hb : s.busy = false) (polls : Nat) :
    ∃ t, hostRun polls .shaInit s = .next (true, t) ∧ t.busy = false ∧ SameRegs s t ∧ t.sha = ShaContext.initial :=
  ⟨_, hostRun_of_ok rfl hb (exec_shaInit _) rfl polls, rfl, fun _ => rfl, rfl⟩

/-- Storing a group in DIN and running SHA.UPDATE absorbs the group (R86 `absorb`, R93). -/
theorem hostRun_shaUpdate_absorbed {g : List Byte} (h1 : 1 ≤ g.length) (h8 : g.length ≤ 8) {s : State} (hb : s.busy = false)
    (polls : Nat) :
    ∃ t, hostRun polls (.shaUpdate g.length) { s with din := packGroup g } = .next (true, t) ∧ t.busy = false ∧
      Absorbed g s t :=
  ⟨_, hostRun_of_ok (i := .shaUpdate g.length) (decide_eq_true (h8.trans (by decide)))
      (s := { s with din := packGroup g }) hb (exec_shaUpdate h1 h8 _) rfl polls, rfl,
    congrArg s.sha.absorb (dinBytes_packGroup h8), fun _ => rfl, ⟨rfl, rfl, rfl⟩, rfl, fun _ => rfl⟩

theorem hostAbsorbGroups_absorbed (polls : Nat → Nat) (gs : List (List Byte)) : ∀ {s : State}, s.busy = false →
    (∀ g ∈ gs, 1 ≤ g.length ∧ g.length ≤ 8) →
    ∃ t, hostAbsorbGroups polls gs s = .next (true, t) ∧ t.busy = false ∧ Absorbed gs.flatten s t := by
  induction gs with
  | nil => exact fun {s} hb _ => ⟨s, rfl, hb, Absorbed.refl s⟩
  | cons g gs ih =>
    intro s hb hgs
    obtain ⟨⟨h1, h8⟩, hrest⟩ := List.forall_mem_cons.mp hgs
    have hstore : perform (turnSt 0x020 (packGroup g)) s = .next { s with din := packGroup g } := by
      rw [perform_st (tg := .din) rfl rfl, hostWrite_din_idle _ hb]
    obtain ⟨t, ht, htb, hst⟩ := hostRun_shaUpdate_absorbed h1 h8 hb (polls gs.length)
    obtain ⟨u, hu, hub, htu⟩ := ih htb hrest
    refine ⟨u, ?_, hub, hst.trans htu⟩
    rw [hostAbsorbGroups, hstore, andThen_next, ht, andThen_next, if_pos rfl, hu]

/-- The loads of DOUT[0] to DOUT[7]. -/
theorem hostLdAll_dout {s : State} (hb : s.busy = false) :
    ∃ d, hostLdAll ((List.finRange 8).map doutOffset) s = .next (s.dout.toList, { s with readData := d }) := by
  have hwords : (List.finRange 8).map (fun i => s.valueAt (.dout i)) = s.dout.toList := by
    refine List.ext_getElem (by simp) fun k _ _ => ?_
    simp [State.valueAt]
  rw [← hwords]
  exact hostLdAll_idle doutOffset Target.dout (List.finRange 8) hb fun i _ =>
    ⟨doutOffset_mod_eight i, target_doutOffset s.limbs i⟩

theorem hostDigest_of_run {s c : State} {polls : Nat} (hrun : hostRun polls .shaDigest s = .next (true, c))
    (hb : c.busy = false) : ∃ d, hostDigest polls s = .next (some (digestBytes c.dout.toList), { c with readData := d }) := by
  obtain ⟨d, hd⟩ := hostLdAll_dout hb
  exact ⟨d, by rw [hostDigest, hrun, andThen_next, if_pos rfl, hd, andThen_next]⟩

/-- `digest` gives the bytes of the context's digest and leaves the context and the registers (R86 `digest`, R94). -/
theorem hostDigest_eq {s : State} (hb : s.busy = false) (polls : Nat) :
    ∃ t, hostDigest polls s = .next (some (digestBytes s.sha.digest.toList), t) ∧ SameRegs s t ∧ t.sha = s.sha := by
  obtain ⟨d, hd⟩ := hostDigest_of_run (hostRun_of_ok (i := .shaDigest) rfl hb (exec_shaDigest _) rfl polls) rfl
  exact ⟨_, hd, fun _ => rfl, rfl⟩

/-- Settles O60: `hostWait_eq` and BUSY = 0 at the completion, `hostLdbig_hostStbig`, and the message that SHA.INIT, `absorb` and
`digest` take through the context (`HoldsMessage.digest`). -/
theorem hostLinesComputeWhatTheyName : Obligations.HostLinesComputeWhatTheyName := by
  refine ⟨fun s polls hb => ?_, fun s r v hb hinv hv => ?_, fun s m p q polls hb hlen => ?_⟩
  · obtain ⟨e, he⟩ := engineTurn_effect hb
    exact ⟨_, _, _, he, hostWait_eq polls hb he, (State.statusWord_busy _).trans (e.completedWith_code s).busy, rfl, rfl⟩
  · obtain ⟨t, d, ht, hd⟩ := hostLdbig_hostStbig hb hinv.regsFit r hv
    exact ⟨t, _, ht, hd, rfl⟩
  · obtain ⟨t, ht, htb, hregs, hsha⟩ := hostRun_shaInit hb p
    obtain ⟨u, hu, hub, habs⟩ := hostAbsorbGroups_absorbed polls (byteGroups m) htb (byteGroups_length m)
    obtain ⟨w, hw, hregs', hsha'⟩ := hostDigest_eq hub q
    rw [byteGroups_flatten] at habs
    have hholds : HoldsMessage m u.sha := by rw [habs.sha, hsha]; exact holdsMessage_initial.absorb m
    rw [hholds.digest hlen] at hw
    exact ⟨t, u, w, ht, hu, hw, fun r => (hregs' r).trans ((habs.regs r).trans (hregs r)), hsha'⟩

end Sys2Proof.Machine
end

section
/-! SUPPORT. Safe turns (spec/70_reset_and_hazards.md R219, R220, spec/10_state.md R23): what a safe access is, that it is exact,
and that a safe turn tells apart no two states that differ in unwritten limbs alone. -/

namespace Sys2Proof.Machine

/-! ### What a safe access is -/

/-- A safe read: legal, of no guarded target while BUSY = 1, of no unwritten limb. -/
structure SafeRead (s : State) (off : Nat) (tg : Target) : Prop where
  aligned : off % 8 = 0
  mapped : target s.limbs off = some tg
  unguarded : s.busy = false ∨ tg.readGuarded = false
  written : ∀ r j, tg = .limb r j → (s.reg r).written.getD j false = true

/-- A safe write: legal, of no guarded target while BUSY = 1, and no soft reset that leaves an rd unspecified. -/
structure SafeWrite (s : State) (off : Nat) (v : Word) (tg : Target) : Prop where
  aligned : off % 8 = 0
  mapped : target s.limbs off = some tg
  unguarded : s.busy = false ∨ tg.writeGuarded = false
  nothingAbandoned : tg = .ctrl → v.getLsbD 1 = true → s.abandonedReg = none

theorem safeRead_of_safeTurn {s : State} {off width : Nat} (h : s.safeTurn (.host (.read off width)) = true) :
    width = 8 ∧ ∃ tg, SafeRead s off tg := by
  simp only [State.safeTurn, State.respectsHazards, State.readIsUnwritten, Bool.and_eq_true] at h
  obtain ⟨⟨hok, hhazard⟩, hwritten⟩ := h
  cases hc : checkAccess s.limbs off width with
  | error f => simp [hc, Except.isOk, Except.toBool] at hok
  | ok tg =>
    obtain ⟨rfl, h8, ht⟩ := checkAccess_ok.mp hc
    refine ⟨rfl, tg, h8, ht, by simpa [hc] using hhazard, ?_⟩
    rintro r j rfl
    simpa [hc] using hwritten

theorem safeWrite_of_safeTurn {s : State} {off width : Nat} {v : Word} (h : s.safeTurn (.host (.write off width v)) = true) :
    width = 8 ∧ ∃ tg, SafeWrite s off v tg := by
  simp only [State.safeTurn, State.respectsHazards, Bool.and_eq_true] at h
  obtain ⟨⟨hok, hhazard⟩, hreset⟩ := h
  cases hc : checkAccess s.limbs off width with
  | error f => simp [hc, Except.isOk, Except.toBool] at hok
  | ok tg =>
    obtain ⟨rfl, h8, ht⟩ := checkAccess_ok.mp hc
    refine ⟨rfl, tg, h8, ht, by simpa [hc] using hhazard, fun htg hv => ?_⟩
    obtain rfl := (target_control ht).2.1 htg
    rw [hv] at hreset
    simpa using hreset

/-- The three kinds of safe turn that comes next. -/
theorem safe_nextTurn_cases {s : State} (h : s.safeTurn s.nextTurn = true) :
    (s.engineNext ∧ s.completionReadsUnwritten = false) ∨ s.powerOnNext ∨
    (∃ off tg rest, s.agenda = .host (.read off 8) :: rest ∧ SafeRead s off tg) ∨
    (∃ off v tg rest, s.agenda = .host (.write off 8 v) :: rest ∧ SafeWrite s off v tg) := by
  have hengine (hn : s.nextTurn = .engine) : s.completionReadsUnwritten = false := by
    rw [hn] at h
    simpa [State.safeTurn] using h
  cases ha : s.agenda with
  | nil => exact .inl ⟨.inl ha, hengine (by simp [State.nextTurn, ha])⟩
  | cons turn rest =>
    have hnext : s.nextTurn = turn := by simp [State.nextTurn, ha]
    cases turn with
    | engine => exact .inl ⟨.inr ⟨rest, ha⟩, hengine hnext⟩
    | powerOn => exact .inr (.inl ⟨rest, ha⟩)
    | host a =>
      rw [hnext] at h
      cases a with
      | read off width =>
        obtain ⟨rfl, tg, hsafe⟩ := safeRead_of_safeTurn h
        exact .inr (.inr (.inl ⟨off, tg, rest, rfl, hsafe⟩))
      | write off width v =>
        obtain ⟨rfl, tg, hsafe⟩ := safeWrite_of_safeTurn h
        exact .inr (.inr (.inr ⟨off, v, tg, rest, rfl, hsafe⟩))

theorem State.popTurn_eq {s : State} {turn : Turn} {rest : List Turn} (ha : s.agenda = turn :: rest) :
    s.popTurn = { s with agenda := rest } := by
  simp [State.popTurn, ha]

/-- A safe read returns the value that stands at its target. -/
theorem SafeRead.step {s : State} {off : Nat} {tg : Target} {rest : List Turn} (h : SafeRead s off tg)
    (ha : s.agenda = .host (.read off 8) :: rest) : step s = .next { s.popTurn with readData := some (s.valueAt tg) } := by
  have hread : hostRead tg s.popTurn = { s.popTurn with readData := some (s.popTurn.valueAt tg) } := by
    rcases h.unguarded with hb | hg
    · exact hostRead_idle tg hb
    · exact hostRead_unguarded _ hg
  rw [step_hostRead ha h.aligned h.mapped, ← State.popTurn_eq ha, hread, State.popTurn, State.valueAt_withAgenda]

theorem SafeWrite.step {s : State} {off : Nat} {v : Word} {tg : Target} {rest : List Turn} (h : SafeWrite s off v tg)
    (ha : s.agenda = .host (.write off 8 v) :: rest) : step s = .next (hostWrite tg v s.popTurn) := by
  rw [step_hostWrite ha h.aligned h.mapped, ← State.popTurn_eq ha]

theorem SafeWrite.popTurn {s : State} {off : Nat} {v : Word} {tg : Target} (h : SafeWrite s off v tg) :
    SafeWrite s.popTurn off v tg := ⟨h.aligned, h.mapped, h.unguarded, h.nothingAbandoned⟩

/-! ### A safe turn sets no OVR and draws nothing -/

theorem SafeWrite.harmless {s : State} {off : Nat} {v : Word} {tg : Target} (h : SafeWrite s off v tg) :
    ((hostWrite tg v s).ovr = true → s.ovr = true) ∧ (hostWrite tg v s).draws = s.draws := by
  rcases hostWrite_cases tg v s with
    ⟨hb, hg, -⟩ | ⟨-, ⟨htg, hw⟩ | ⟨-, hw⟩ | ⟨-, hw⟩ | ⟨-, hw⟩ | ⟨r, j, -, hw⟩ | ⟨-, hw⟩⟩
  case inl => exact absurd h.unguarded (by simp [hb, hg])
  case inr.inl =>
    rw [hw]
    by_cases hv : v.getLsbD 1 = true
    · rw [State.writeCtrl_reset hv, State.softReset_draws,
        State.drawAbandoned_none (s := { s with ie := v.getLsbD 0 }) (h.nothingAbandoned htg hv)]
      exact ⟨fun hovr => absurd hovr Bool.false_ne_true, rfl⟩
    · rw [State.writeCtrl_noReset hv]
      exact ⟨id, rfl⟩
  case inr.inr.inl =>
    rw [hw, State.writeStatus_ovr, State.writeStatus_draws]
    exact ⟨fun hovr => (Bool.and_eq_true_iff.mp hovr).1, rfl⟩
  all_goals rw [hw]; exact ⟨id, rfl⟩

/-- The engine's turn sets no OVR and draws nothing (R193, R208). -/
theorem engineTurn_harmless (s : State) : ∃ t, engineTurn s = .next t ∧ t.ovr = s.ovr ∧ t.draws = s.draws := by
  cases hb : s.busy with
  | false => exact ⟨s, engineTurn_idle hb, rfl, rfl⟩
  | true =>
    obtain ⟨e, he⟩ := engineTurn_effect hb
    have hc := e.completedWith_code s
    exact ⟨_, he, hc.ovr, hc.draws⟩

theorem step_of_safeTurn {s : State} (h : s.safeTurn s.nextTurn = true) :
    ∃ t, step s = .next t ∧ (t.ovr = true → s.ovr = true) ∧ t.draws = s.draws := by
  rcases safe_nextTurn_cases h with ⟨hn, -⟩ | hp | ⟨off, tg, rest, ha, hsafe⟩ | ⟨off, v, tg, rest, ha, hsafe⟩
  · obtain ⟨t, ht, hovr, hdraws⟩ := engineTurn_harmless s.popTurn
    exact ⟨t, (step_engine hn).trans ht, fun h => hovr.symm.trans h, hdraws⟩
  · exact ⟨_, step_powerOn hp, fun h => absurd h (by simp), rfl⟩
  · exact ⟨_, hsafe.step ha, id, rfl⟩
  · exact ⟨_, hsafe.step ha, hsafe.popTurn.harmless⟩

/-! ### The effect of a safe write (R51) -/

/-- What R51 gives a write, target by target. -/
theorem SafeWrite.effect {s t : State} {off : Nat} {v : Word} {tg : Target} (h : SafeWrite s off v tg)
    (ht : t = hostWrite tg v s) :
    (s.busy = false ∨ tg = .id ∨ tg = .ctrl ∨ tg = .status ∨ ∃ i, tg = .dout i) ∧
    (tg = .cmd → t.cmd = v.extractLsb' 0 32 ∧ t.busy = true) ∧ (tg = .din → t.din = v) ∧
    (∀ r j, tg = .limb r j → limbOf (t.big r) j = v) ∧ (tg = .ctrl → t.ie = (v.getLsbD 0 && !v.getLsbD 1)) ∧
    (tg = .status → t.doneFlag = (s.doneFlag && !v.getLsbD 1) ∧ t.ovr = (s.ovr && !v.getLsbD 2)) := by
  have hidle (hg : tg.writeGuarded = true) : s.busy = false := h.unguarded.resolve_right (by simp [hg])
  refine ⟨?_, ?_, ?_, ?_, ?_, ?_⟩
  · cases tg with
    | cmd | din | limb => exact .inl (hidle rfl)
    | id | ctrl | status | dout => simp
  · rintro rfl
    rw [ht, hostWrite_cmd_idle v (hidle rfl)]
    exact ⟨rfl, rfl⟩
  · rintro rfl
    rw [ht, hostWrite_din_idle v (hidle rfl)]
  · rintro r j rfl
    rw [ht, hostWrite_limb_idle r j v (hidle rfl), State.limbOf_big_writeLimb, if_pos ⟨rfl, rfl⟩]
  · rintro rfl
    rw [ht, hostWrite_ctrl]
    by_cases hv : v.getLsbD 1 = true
    · rw [State.writeCtrl_reset hv, hv, Bool.not_true, Bool.and_false]; rfl
    · rw [State.writeCtrl_noReset hv, Bool.eq_false_iff.mpr hv, Bool.not_false, Bool.and_true]
  · rintro rfl
    rw [ht, hostWrite_status]
    exact ⟨rfl, rfl⟩

/-! ### States that differ in unwritten limbs alone -/

theorem SameButUnwritten.refl (s : State) : SameButUnwritten s s := ⟨rfl, fun _ => rfl, fun _ _ _ => rfl⟩

/-- Updates that leave the registers alone keep the relation. -/
theorem SameButUnwritten.of_regs {s s' t t' : State} (h : SameButUnwritten s s') (ht : t.regs = s.regs)
    (ht' : t' = { t with regs := s'.regs }) : SameButUnwritten t t' := by
  have hreg := State.reg_congr ht
  have hreg' (r : Reg) : t'.reg r = s'.reg r := State.reg_congr (by rw [ht']) r
  refine ⟨by rw [ht'], fun r => ?_, fun r j => ?_⟩
  · rw [hreg, hreg', h.marks r]
  · rw [State.big, State.big, hreg, hreg']
    exact h.limbs r j

/-- A write of one register keeps it, if the register written does. -/
theorem SameButUnwritten.set_reg {s : State} {regs : Vector BigReg 8} (h : SameButUnwritten s { s with regs := regs })
    (rd : Reg) {b b' : BigReg} (hmarks : b'.written = b.written)
    (hlimbs : ∀ j, b.written.getD j false = true → limbOf b'.value j = limbOf b.value j) :
    SameButUnwritten { s with regs := s.regs.set rd b } { s with regs := regs.set rd b' } := by
  have hset (l : Vector BigReg 8) (c : BigReg) (r : Reg) :
      { s with regs := l.set rd c }.reg r = if r = rd then c else { s with regs := l }.reg r := by
    simp [State.reg, Vector.getElem_set, Fin.val_inj, eq_comm]
  refine ⟨rfl, fun r => ?_, fun r j => ?_⟩ <;> by_cases hr : r = rd
  · simp only [hset, if_pos hr]; exact hmarks
  · simp only [hset, if_neg hr]; exact h.marks r
  · simp only [State.big, hset, if_pos hr]; exact hlimbs j
  · simp only [State.big, hset, if_neg hr]; exact h.limbs r j

theorem getD_set_ne {j k : Nat} (hk : k ≠ j) (l : List Bool) : (l.set j true).getD k false = l.getD k false := by
  rw [List.getD_eq_getElem?_getD, List.getElem?_set_ne hk.symm, List.getD_eq_getElem?_getD]

theorem SameButUnwritten.writeLimb {s : State} {regs : Vector BigReg 8} (h : SameButUnwritten s { s with regs := regs })
    (r : Reg) (j : Nat) (v : Word) : SameButUnwritten (s.writeLimb r j v) ({ s with regs := regs }.writeLimb r j v) := by
  refine h.set_reg r (congrArg (fun l : List Bool => l.set j true) (h.marks r)) fun k hk => ?_
  by_cases hkj : k = j
  · rw [hkj, limbOf_setLimb_self, limbOf_setLimb_self]
  · rw [limbOf_setLimb_other _ v hkj, limbOf_setLimb_other _ v hkj]
    exact h.limbs r k (by rwa [getD_set_ne hkj] at hk)

/-- One effect on both states. -/
theorem SameButUnwritten.effect {s : State} {regs : Vector BigReg 8} (h : SameButUnwritten s { s with regs := regs })
    (e : Effect) : SameButUnwritten (e.on s) (e.on { s with regs := regs }) := by
  cases e with
  | register rd v =>
    exact SameButUnwritten.of_regs (h.set_reg rd (b := ⟨v, List.replicate s.limbs true⟩) rfl fun _ _ => rfl) rfl rfl
  | error e => exact h.of_regs rfl rfl
  | flags a b => exact h.of_regs rfl rfl
  | context c => exact h.of_regs rfl rfl
  | digest d => exact h.of_regs rfl rfl

/-- A read that is of no unwritten limb returns the same value. -/
theorem SameButUnwritten.valueAt {s : State} {regs : Vector BigReg 8} (h : SameButUnwritten s { s with regs := regs })
    {tg : Target} (hw : ∀ r j, tg = .limb r j → (s.reg r).written.getD j false = true) :
    { s with regs := regs }.valueAt tg = s.valueAt tg := by
  cases tg with
  | limb r j => exact h.limbs r j (hw r j rfl)
  | id | ctrl | status | cmd | din | dout => rfl

/-- A soft reset that abandons no rd writes no register (R216). -/
theorem SameButUnwritten.softReset {s : State} {regs : Vector BigReg 8} (h : SameButUnwritten s { s with regs := regs })
    (hnone : s.abandonedReg = none) : SameButUnwritten s.softReset ({ s with regs := regs }.softReset) := by
  rw [State.softReset, State.softReset, State.drawAbandoned_none hnone,
    State.drawAbandoned_none (s := { s with regs := regs }) hnone]
  exact h.of_regs rfl rfl

/-- A safe write has the same effect. -/
theorem SameButUnwritten.hostWrite {s : State} {regs : Vector BigReg 8} (h : SameButUnwritten s { s with regs := regs })
    {off : Nat} {v : Word} {tg : Target} (hsafe : SafeWrite s off v tg) :
    SameButUnwritten (hostWrite tg v s) (hostWrite tg v { s with regs := regs }) := by
  have hidle (hg : tg.writeGuarded = true) : s.busy = false := hsafe.unguarded.resolve_right (by simp [hg])
  cases tg with
  | id => rw [hostWrite_id, hostWrite_id]; exact h
  | dout i => rw [hostWrite_dout, hostWrite_dout]; exact h
  | status => rw [hostWrite_status, hostWrite_status]; exact h.of_regs rfl rfl
  | cmd =>
    rw [hostWrite_cmd_idle v (hidle rfl), hostWrite_cmd_idle (s := { s with regs := regs }) v (hidle rfl)]
    exact h.of_regs rfl rfl
  | din =>
    rw [hostWrite_din_idle v (hidle rfl), hostWrite_din_idle (s := { s with regs := regs }) v (hidle rfl)]
    exact h.of_regs rfl rfl
  | limb r j =>
    rw [hostWrite_limb_idle r j v (hidle rfl), hostWrite_limb_idle (s := { s with regs := regs }) r j v (hidle rfl)]
    exact h.writeLimb r j v
  | ctrl =>
    rw [hostWrite_ctrl, hostWrite_ctrl]
    by_cases hv : v.getLsbD 1 = true
    · have hie : SameButUnwritten { s with ie := v.getLsbD 0 } { s with ie := v.getLsbD 0, regs := regs } := h.of_regs rfl rfl
      rw [State.writeCtrl_reset hv, State.writeCtrl_reset hv]
      exact hie.softReset (hsafe.nothingAbandoned rfl hv)
    · rw [State.writeCtrl_noReset hv, State.writeCtrl_noReset hv]
      exact h.of_regs rfl rfl

/-- A command that reads no undefined register has the same inputs (R23). -/
theorem SameButUnwritten.inputs {s s' : State} (h : SameButUnwritten s s') (hs : s.Inv) (hs' : s'.Inv) {i : Instr}
    (hdef : ∀ r ∈ operandRegs i, s.defined r = true) : SameInputs i s s' where
  limbs := by rw [h.rest]
  operands r hr := h.big_eq hs hs' (hdef r hr)
  update n _ := by rw [h.rest]; exact ⟨rfl, rfl⟩
  digest _ := by rw [h.rest]

theorem SameButUnwritten.engineTurn {s : State} {regs : Vector BigReg 8} (h : SameButUnwritten s { s with regs := regs })
    (hs : s.Inv) (hs' : State.Inv { s with regs := regs }) (hdef : s.completionReadsUnwritten = false) :
    ∃ t t', engineTurn s = .next t ∧ engineTurn { s with regs := regs } = .next t' ∧ SameButUnwritten t t' := by
  by_cases hb : s.busy = true
  · cases hd : decode s.cmd with
    | error d =>
      exact ⟨_, _, engineTurn_illegal hb hd, engineTurn_illegal (s := { s with regs := regs }) hb hd,
        h.effect (.error .illegal)⟩
    | ok i =>
      have hregs : ∀ r ∈ operandRegs i, s.defined r = true := by
        simpa [State.completionReadsUnwritten, hb, hd] using hdef
      obtain ⟨e, he, he'⟩ := exec_effect (h.inputs hs hs' hregs)
      exact ⟨_, _, (engineTurn_command hb hd).trans he,
        (engineTurn_command (s := { s with regs := regs }) hb hd).trans he', h.effect e⟩
  · have hidle : s.busy = false := Bool.eq_false_iff.mpr hb
    exact ⟨_, _, engineTurn_idle hidle, engineTurn_idle (s := { s with regs := regs }) hidle, h⟩

theorem State.Inv.popTurn {s : State} (h : s.Inv) : s.popTurn.Inv := { h with }

/-- A safe turn keeps two states that differ in unwritten limbs alone so (R23, log entry 2). -/
theorem SameButUnwritten.step {s s' t : State} (hs : s.Inv) (hs' : s'.Inv) (h : SameButUnwritten s s')
    (hsafe : s.safeTurn s.nextTurn = true) (ht : step s = .next t) : ∃ t', step s' = .next t' ∧ SameButUnwritten t t' := by
  obtain ⟨regs, rfl⟩ : ∃ regs, s' = { s with regs := regs } := ⟨_, h.rest⟩
  have hpop : SameButUnwritten s.popTurn { s.popTurn with regs := regs } := h.of_regs rfl rfl
  rcases safe_nextTurn_cases hsafe with ⟨hn, hdef⟩ | hp | ⟨off, tg, rest, ha, hread⟩ | ⟨off, v, tg, rest, ha, hwrite⟩
  · obtain ⟨u, u', hu, hu', hsame⟩ := hpop.engineTurn hs.popTurn hs'.popTurn hdef
    obtain rfl := Host.Outcome.next.inj (((step_engine hn).trans hu).symm.trans ht)
    exact ⟨u', (step_engine (s := { s with regs := regs }) hn).trans hu', hsame⟩
  · obtain rfl := Host.Outcome.next.inj ((step_powerOn hp).symm.trans ht)
    exact ⟨_, step_powerOn (s := { s with regs := regs }) hp, SameButUnwritten.refl _⟩
  · obtain rfl := Host.Outcome.next.inj ((hread.step ha).symm.trans ht)
    have hread' : SafeRead { s with regs := regs } off tg :=
      ⟨hread.aligned, hread.mapped, hread.unguarded, fun r j htg => by rw [h.marks r]; exact hread.written r j htg⟩
    refine ⟨_, hread'.step (s := { s with regs := regs }) ha, ?_⟩
    rw [h.valueAt hread.written]
    exact h.of_regs rfl rfl
  · obtain rfl := Host.Outcome.next.inj ((hwrite.step ha).symm.trans ht)
    have hwrite' : SafeWrite { s with regs := regs } off v tg :=
      ⟨hwrite.aligned, hwrite.mapped, hwrite.unguarded, hwrite.nothingAbandoned⟩
    exact ⟨_, hwrite'.step (s := { s with regs := regs }) ha, hpop.hostWrite hwrite.popTurn⟩

/-- Settles O33: the cases of a safe turn, the effect of a safe write, the value of a safe read, and the step of two states that
differ in unwritten limbs alone. -/
theorem hazardFreeAccessesAreExact : Obligations.HazardFreeAccessesAreExact := by
  refine ⟨fun s => step_of_safeTurn, fun s t off v tg rest ha hsafe ht h => ?_, fun s t off tg rest ha hsafe ht h => ?_,
    fun s s' t hs hs' hsame hsafe ht => hsame.step hs hs' hsafe ht⟩
  · obtain ⟨-, tg', hwrite⟩ := safeWrite_of_safeTurn hsafe
    obtain rfl := Option.some.inj (hwrite.mapped.symm.trans ht)
    have heq := Host.Outcome.next.inj (h.symm.trans (hwrite.step ha))
    exact ⟨heq, hwrite.popTurn.effect heq⟩
  · obtain ⟨-, tg', hread⟩ := safeRead_of_safeTurn hsafe
    obtain rfl := Option.some.inj (hread.mapped.symm.trans ht)
    obtain rfl := Host.Outcome.next.inj ((hread.step ha).symm.trans h)
    refine ⟨rfl, fun hb => ?_, hread.written⟩
    have hg : tg'.readGuarded = false := hread.unguarded.resolve_left (by simp [hb])
    constructor
    · rintro i rfl; exact absurd hg (by simp [Target.readGuarded])
    · rintro r j rfl; exact absurd hg (by simp [Target.readGuarded])

end Sys2Proof.Machine
end
